-- ==== Sys2Proof/Word.lean ====
section
/-! DEFINITION. The bit vectors the spec treats as bits: bytes on the wire, 16-bit command and
calibration words, 32-bit host data and compensation values (00_scope R10, R13). -/

namespace Sys2Proof

/-- A byte on the bus or in BUF (R13). -/
abbrev Byte := BitVec 8

/-- A 16-bit command word or calibration word (R23, R90). -/
abbrev Half := BitVec 16

/-- A 32-bit host register word; also every compensation intermediate (R10 XLEN and HBUSW, R232). -/
abbrev Word := BitVec 32

end Sys2Proof
end

