-- ==== Sys2Proof/Syntax.lean ====
section
/-! DEFINITION. The ten commands of 30_encoding R94, one constructor per row of
spec/opcode_table.json, with the operands of formats Z, M, X and O (R91, R92, R93, R95). -/

namespace Sys2Proof

/-- A command of the block (R94). The buffer argument of WRB and RDB is always BUF from index 0
and is no operand (R93). -/
inductive Instr where
  /-- INIT (R140). -/
  | init
  /-- START (R144). -/
  | start
  /-- STOP (R146). -/
  | stop
  /-- SETMODE m (R174); `m` is the 2-bit mode field of format M. -/
  | setmode (m : BitVec 2)
  /-- WRB len [,S] [,P] (R171). -/
  | wrb (len : BitVec 6) (withStart withStop : Bool)
  /-- RDB len [,A] [,P] (R173). -/
  | rdb (len : BitVec 6) (ackLast withStop : Bool)
  /-- RDCAL (R202). -/
  | rdcal
  /-- RDT (R204). -/
  | rdt
  /-- RDP oss (R205). -/
  | rdp (oss : BitVec 2)
  /-- COMP (R230). -/
  | comp
  deriving DecidableEq, Repr

end Sys2Proof
end

