-- ==== Sys2Proof/WellFormed.lean ====
section
/-! DEFINITION. The one check a command's operands must pass: a transfer length within BUF
(30_encoding R98). Every other operand is legal at every value of its field (R92, R95). -/

namespace Sys2Proof

/-- `len` values 0 to 32 are legal, 33 to 63 are not (R98). -/
def lenLegal (len : BitVec 6) : Bool := len.toNat ≤ 32

/-- A command that some legal word encodes. -/
def Instr.wellFormed : Instr → Bool
  | .init | .start | .stop | .rdcal | .rdt | .comp => true
  | .setmode _ | .rdp _ => true
  | .wrb len _ _ | .rdb len _ _ => lenLegal len

end Sys2Proof
end

