-- ==== Sys2Proof/Decode.lean ====
section
/-! DEFINITION. The command decoder, total on all 65536 words and rejecting by name
(30_encoding R96), and the encoder written from the same formats (R91, R92, R93, R95). -/

namespace Sys2Proof

/-- Why a word is no command: the three tests of R96 in their order. -/
inductive Reject where
  /-- Step 2: the opcode is 0x0 or one of 0xB to 0xF. -/
  | opcode
  /-- Step 3: a reserved bit of the opcode's format is 1. -/
  | reserved
  /-- Step 4: format X with `len` above 32. -/
  | length
  deriving DecidableEq, Repr

/-- The opcode field `c[15:12]` (R90). -/
def opcodeOf (c : Half) : BitVec 4 := c.extractLsb' 12 4

/-- Format Z (R91): no operand, bits 11:0 reserved. -/
def decodeZ (c : Half) (i : Instr) : Except Reject Instr :=
  if c.extractLsb' 0 12 = 0 then .ok i else .error .reserved

/-- Formats M and O (R92, R95): a 2-bit operand in bits 1:0, bits 11:2 reserved. -/
def decodeTwoBit (c : Half) (mk : BitVec 2 → Instr) : Except Reject Instr :=
  if c.extractLsb' 2 10 = 0 then .ok (mk (c.extractLsb' 0 2)) else .error .reserved

/-- Format X (R93): P in bit 9, f in bit 8, len in bits 5:0; bits 11:10 and 7:6 reserved; the
reserved bits are looked at before the length (R96). -/
def decodeX (c : Half) (mk : BitVec 6 → Bool → Bool → Instr) : Except Reject Instr :=
  if c.extractLsb' 10 2 ≠ 0 ∨ c.extractLsb' 6 2 ≠ 0 then .error .reserved
  else if lenLegal (c.extractLsb' 0 6) then
    .ok (mk (c.extractLsb' 0 6) (c.getLsbD 8) (c.getLsbD 9))
  else .error .length

/-- Decoding of a command word (R96, opcode map R94). -/
def decode (c : Half) : Except Reject Instr :=
  match (opcodeOf c).toNat with
  | 1 => decodeZ c .init
  | 2 => decodeZ c .start
  | 3 => decodeZ c .stop
  | 4 => decodeTwoBit c .setmode
  | 5 => decodeX c .wrb
  | 6 => decodeX c .rdb
  | 7 => decodeZ c .rdcal
  | 8 => decodeZ c .rdt
  | 9 => decodeTwoBit c .rdp
  | 10 => decodeZ c .comp
  | _ => .error .opcode

/-- A format X word from its fields (R93). -/
def encodeX (op : BitVec 4) (len : BitVec 6) (f p : Bool) : Half :=
  op ++ 0#2 ++ BitVec.ofBool p ++ BitVec.ofBool f ++ 0#2 ++ len

/-- The word of a command (R94). -/
def encode : Instr → Half
  | .init => 0x1000
  | .start => 0x2000
  | .stop => 0x3000
  | .setmode m => 0x4#4 ++ 0#10 ++ m
  | .wrb len s p => encodeX 0x5 len s p
  | .rdb len a p => encodeX 0x6 len a p
  | .rdcal => 0x7000
  | .rdt => 0x8000
  | .rdp oss => 0x9#4 ++ 0#10 ++ oss
  | .comp => 0xA000

/-- CONNRESET, the one pseudo-command: the five commands it stands for, each run by the host as a
command of its own (R104). -/
def connReset : List Instr := [.stop, .setmode 0, .rdb 1 false false, .setmode 1, .start]

/-- The command the decoder reads from an opcode-table word: one 16-bit word, whose bits the table
numbers as R90 does; bits above `nbits` are 0. -/
def decodeTableWord (nbits w : Nat) : Option Instr :=
  match decode (BitVec.ofNat 16 (w % 2 ^ nbits)) with
  | .ok i => some i
  | .error _ => none

end Sys2Proof
end

