-- ==== Sys2Proof/Config.lean ====
section
/-! DEFINITION. The parameters the spec leaves to an implementation (00_scope R10): VARIANT_TAIL
and DIV_ROUND, held as plain data so that every claim can range over them, and F_CLK, which is
OPEN and therefore opaque. -/

namespace Sys2Proof

/-- One element of VARIANT_TAIL: a pin micro-operation of R130, a delay of R134 or a `ClockUp()`
call of R137, which is the only place where it may sample (R143, U11). -/
inductive TailOp where
  | assertScl
  | releaseScl
  | assertSda
  | releaseSda
  | delay (us : Nat)
  | clockUp
  deriving DecidableEq, Repr

/-- DIV_ROUND: the rounding of the one signed division of COMP (R10, R234, U10). -/
inductive DivRound where
  /-- The default: quotient rounded toward zero (D23). -/
  | towardZero
  /-- The other value U10 names. -/
  | towardMinusInfinity
  deriving DecidableEq, Repr

/-- The configurable parameters; no command and no host access changes them. -/
structure Config where
  variantTail : List TailOp
  divRound : DivRound
  deriving DecidableEq, Repr

/-- The drive latches (SCL, SDA; true is asserted) that a tail leaves, from given ones; a
`ClockUp()` that returns leaves SCL released (R137). -/
def tailExit : List TailOp → Bool × Bool → Bool × Bool
  | [], d => d
  | .assertScl :: ops, (_, sda) => tailExit ops (true, sda)
  | .releaseScl :: ops, (_, sda) => tailExit ops (false, sda)
  | .assertSda :: ops, (scl, _) => tailExit ops (scl, true)
  | .releaseSda :: ops, (scl, _) => tailExit ops (scl, false)
  | .delay _ :: ops, d => tailExit ops d
  | .clockUp :: ops, (_, sda) => tailExit ops (false, sda)

/-- A legal VARIANT_TAIL, entered as GeneralStart leaves the lines (both asserted), ends with SCL
asserted and SDA released (R147, U11). -/
def Config.wf (c : Config) : Bool := tailExit c.variantTail (true, true) == (true, false)

/-- F_CLK in hertz (R10): OPEN, no value is given and none can be proved. -/
opaque Config.fClk : Nat

/-- The least number of clock cycles of `Delay(t)`, `t` in microseconds: `ceil(t * F_CLK)` (R134). -/
def delayCycles (us : Nat) : Nat := (us * Config.fClk + 999999) / 1000000

end Sys2Proof
end

