-- ==== Sys2Proof/Machine/Constants.lean ====
section
/-! DEFINITION. The fixed constants of 00_scope R8 and R9, the wire bytes of 30_encoding R99 and
R100, and the default of VARIANT_TAIL (40_bit_transport R143). -/

namespace Sys2Proof.Machine

/-- T_HIGH, minimum clock-high time in microseconds (R8). -/
def tHigh : Nat := 4

/-- T_LOW, minimum clock-low time in microseconds (R8). -/
def tLow : Nat := 4

/-- T_SU, minimum data setup time in microseconds (R8). T_HD (1) never appears as a delay (R148). -/
def tSetup : Nat := 1

/-- T_CONV_T, wait after the temperature command in microseconds (R8). -/
def tConvTemp : Nat := 5000

/-- T_CONV_P, wait after the pressure command in microseconds, the same for every oss (R8, C6). -/
def tConvPres : Nat := 26000

/-- DEV_ADDR7, the 7-bit device address of the BMP085 (R8). -/
def devAddr7 : BitVec 7 := 0x77

/-- An address byte `addr7 ++ rw` with direction bit `rw`, 1 = read (R9, R99). -/
def addressByte (read : Bool) : Byte := devAddr7 ++ BitVec.ofBool read

/-- ADDR_W = 0xEE (R9). -/
def addrW : Byte := addressByte false

/-- ADDR_R = 0xEF (R9). -/
def addrR : Byte := addressByte true

/-- REG_CAL, first register of the calibration block (R8). -/
def regCal : Byte := 0xAA

/-- REG_CTRL, the control register (R8). -/
def regCtrl : Byte := 0xF4

/-- REG_MSB, the first result register (R8). -/
def regMsb : Byte := 0xF6

/-- CMD_TEMP, the control value that starts a temperature conversion (R8, R100). -/
def cmdTemp : Byte := 0x2E

/-- The control value that starts a pressure conversion: `0x34 | (oss << 6)` (R8, R100). -/
def cmdPres (oss : BitVec 2) : Byte := 0x34 ||| (oss.setWidth 8 <<< 6)

/-- Length of the calibration block in bytes (R8: N_CAL = 11 words). -/
def calBytes : Nat := 22

/-- BUFSZ, the number of bytes of BUF (R10). -/
def bufSize : Nat := 32

/-- POFF_DEFAULT (R8). -/
def poffDefault : Word := 1600

/-- The default VARIANT_TAIL of R143. -/
def variantTailDefault : List TailOp :=
  [.clockUp, .delay tHigh, .releaseSda, .delay tHigh, .assertSda, .delay tHigh,
   .assertScl, .delay tLow, .releaseSda]

/-- The parameters at their defaults (R10). -/
def configDefault : Config := ⟨variantTailDefault, .towardZero⟩

end Sys2Proof.Machine
end

