-- ==== Sys2Proof/Machine/State.lean ====
section
/-! DEFINITION. The state of the block (10_state), the environment's answers, the pending host
events and the trace, all as plain data; the reasons a step can stop (there are none but the
stand-in `notModelled`); and the state after reset (10_state R43). -/

namespace Sys2Proof.Machine

/-- MODE, the transport mode (R20, R102). -/
inductive Mode where
  /-- NORMAL, encoded 0. -/
  | normal
  /-- SENSOR_VARIANT, encoded 1. -/
  | sensorVariant
  deriving DecidableEq, Repr

/-- The status codes of R101, in the order of their numbers 0 to 8. -/
inductive Status where
  | ok
  | noAck
  | busy
  | unknownMode
  | i2cError
  | modeChangeError
  | timeout
  | arithFault
  | illegalCmd
  deriving DecidableEq, Repr

/-- The two wait loops of R135. -/
inductive WaitLoop where
  /-- `WaitSCLHigh()`. -/
  | sclHigh
  /-- `WaitSDALow()`. -/
  | sdaLow
  deriving DecidableEq, Repr

/-- The sequencer position between two steps (R40): idle, or inside a wait loop that the
environment never lets end, with the command that runs (R281, log 3). -/
inductive Sequencer where
  | idle
  | waiting (running : Instr) (loop : WaitLoop)
  deriving DecidableEq, Repr

/-- The environment's answers to the samples of one line, in order: finitely many, then `rest` for
ever (R133, U5, log 2). -/
structure Line where
  answers : List Bool
  rest : Bool
  deriving DecidableEq, Repr

/-- A pin event of the trace (R136). -/
inductive Event where
  /-- `C-`, AssertSCL. -/
  | sclLow
  /-- `C+`, ReleaseSCL. -/
  | sclRel
  /-- `D-`, AssertSDA. -/
  | sdaLow
  /-- `D+`, ReleaseSDA. -/
  | sdaRel
  /-- `c?v`, SampleSCL() returned v. -/
  | sclSample (v : Bool)
  /-- `d?v`, SampleSDA() returned v. -/
  | sdaSample (v : Bool)
  /-- `~t`, Delay(t), t in microseconds. -/
  | dly (us : Nat)
  deriving DecidableEq, Repr

/-- What the outside does to the host port and the reset input, one event at a time (R60, R63,
R300, R303; log 11, log 12). -/
inductive HostEvent where
  /-- `MemWrite(addr, 1, data)`. -/
  | write (addr : BitVec 8) (data : Word)
  /-- `MemRead(addr, 1)`. -/
  | read (addr : BitVec 8)
  /-- `rst` asserted while no command runs, or while one hangs. -/
  | reset
  /-- A write of `data` to CMD whose command is cut short by `rst` after `k` micro-operations. -/
  | resetDuring (data : Word) (k : Nat)
  deriving DecidableEq, Repr

/-- Which of the registers with no reset value have been written since reset (U1, log 6). -/
structure Written where
  cal : Vector Bool 11
  ut : Bool
  up : Bool
  oss : Bool
  tt : Bool
  tp : Bool
  buf : Vector Bool 32
  deriving DecidableEq, Repr

/-- Nothing written (after reset). -/
def Written.none : Written :=
  ⟨Vector.replicate 11 false, false, false, false, false, false, Vector.replicate 32 false⟩

/-- BUF as a list of (index, byte) cells in canonical form: indexes strictly rising, no cell equal
to what an unlisted index reads as (R35, log 5). -/
abbrev Memory := List Host.Cell

/-- The whole machine. The registers of 10_state come first; `written`, `cfg`, the environment's
answers, the trace, the pending host events and the last read data are the model's own. -/
structure State where
  mode : Mode
  started : Bool
  sclDrv : Bool
  sdaDrv : Bool
  cal : Vector Half 11
  ut : BitVec 16
  up : BitVec 19
  oss : BitVec 2
  tt : Word
  tp : Word
  poff : Word
  wlim : Word
  status : BitVec 4
  cmd : Half
  buf : Memory
  seq : Sequencer
  written : Written
  cfg : Config
  scl : Line
  sda : Line
  trace : List Event
  host : List HostEvent
  rdata : Word
  deriving DecidableEq, Repr

/-- The machine stops with no fault: the block's failures are status codes (R270) and the hang is
an infinite execution (R281), so no step answers a fault and this type has no constructor. -/
inductive Fault where
  deriving DecidableEq, Repr

/-- Reasons to give no meaning. -/
inductive Refusal where
  /-- An instruction with no meaning yet, by mnemonic. No arm of exec raises it: every command has
  its meaning. It would be safe: the run stops. -/
  | notModelled (mnemonic : String)
  deriving DecidableEq, Repr

/-- The state after reset (R43, R300). CAL, UT, UP, OSS, TT, TP and BUF have no reset value in the
spec and hold 0 here (DESIGN CHOICE, unsafe, log 4 and log 5); `written` says that nothing has been
written. The environment's answers are the model's own field (DESIGN CHOICE, log 2). -/
def State.reset : State where
  mode := .normal
  started := false
  sclDrv := false
  sdaDrv := false
  cal := Vector.replicate 11 0
  ut := 0
  up := 0
  oss := 0
  tt := 0
  tp := 0
  poff := poffDefault
  wlim := 0
  status := 0
  cmd := 0
  buf := []
  seq := .idle
  written := Written.none
  cfg := configDefault
  scl := ⟨[], true⟩
  sda := ⟨[], true⟩
  trace := []
  host := []
  rdata := 0

end Sys2Proof.Machine
end

