-- ==== Sys2Proof/Machine/Flags.lean ====
section
/-! DEFINITION. Status code numbers (30_encoding R101), mode numbers (R102) and the FLAGS view
(10_state R33). The block has no arithmetic flags. -/

namespace Sys2Proof.Machine

/-- The number STATUS holds for a code (R101). -/
def Status.code : Status → BitVec 4
  | .ok => 0
  | .noAck => 1
  | .busy => 2
  | .unknownMode => 3
  | .i2cError => 4
  | .modeChangeError => 5
  | .timeout => 6
  | .arithFault => 7
  | .illegalCmd => 8

/-- The MODE bit (R20, R102). -/
def Mode.bit : Mode → Bool
  | .normal => false
  | .sensorVariant => true

/-- The mode a 2-bit mode field names; 2 and 3 name none (R92). -/
def modeOfField (m : BitVec 2) : Option Mode :=
  if m = 0 then some .normal else if m = 1 then some .sensorVariant else none

/-- FLAGS: bit 0 STARTED, bit 1 MODE, bit 2 SCL_DRV, bit 3 SDA_DRV, bits 31:4 zero (R33). -/
def State.flags (s : State) : Word :=
  0#28 ++ BitVec.ofBool s.sdaDrv ++ BitVec.ofBool s.sclDrv ++ BitVec.ofBool s.mode.bit ++
    BitVec.ofBool s.started

end Sys2Proof.Machine
end

