-- ==== Sys2Proof/Machine/Ops.lean ====
section
/-! DEFINITION. The named operations over memory, registers and pins: BUF accesses, register
writes with their definedness marks, the pin micro-operations of 40_bit_transport R130 to R134, the
wait loops of R135, how a procedure ends, and how a command ends (60_exceptions R272, R284). -/

namespace Sys2Proof.Machine

/-! ### BUF -/

/-- What a byte of BUF that nothing has written reads as (DESIGN CHOICE, unsafe, log 5). -/
def unlistedByte : Byte := 0

/-- `BUF[a]` (R35). -/
def Memory.read : Memory → Nat → Byte
  | [], _ => unlistedByte
  | (b, v) :: m, a => if b = a then v else Memory.read m a

/-- `BUF[a] <- v` (R35); keeps the canonical form, so that writing `unlistedByte` removes a cell. -/
def Memory.write : Memory → Nat → Byte → Memory
  | [], a, v => if v = unlistedByte then [] else [(a, v)]
  | (b, w) :: m, a, v =>
    if a < b then if v = unlistedByte then (b, w) :: m else (a, v) :: (b, w) :: m
    else if a = b then if v = unlistedByte then m else (a, v) :: m
    else (b, w) :: Memory.write m a v

/-- The canonical form: indexes below 32 and strictly rising, no cell equal to `unlistedByte`. -/
def Memory.wf : Memory → Bool
  | [] => true
  | (a, v) :: m =>
    decide (a < bufSize) && decide (v ≠ unlistedByte) && m.all (fun c => decide (a < c.1)) &&
      Memory.wf m

/-- `BUF[i] <- v`, which makes the byte defined (R35, U1). -/
def State.setBuf (s : State) (i : Nat) (v : Byte) : State :=
  { s with buf := Memory.write s.buf i v
           written := { s.written with buf := s.written.buf.setIfInBounds i true } }

/-! ### Data registers -/

/-- `CAL[i] <- v` by the host (R23). -/
def State.setCal (s : State) (i : Nat) (v : Half) : State :=
  { s with cal := s.cal.setIfInBounds i v
           written := { s.written with cal := s.written.cal.setIfInBounds i true } }

/-- All eleven CAL words at once, as a successful RDCAL writes them (R44, R202). -/
def State.setAllCal (s : State) (c : Vector Half 11) : State :=
  { s with cal := c, written := { s.written with cal := Vector.replicate 11 true } }

/-- `UT <- v` (R25). -/
def State.setUt (s : State) (v : BitVec 16) : State :=
  { s with ut := v, written := { s.written with ut := true } }

/-- `UP <- v` (R26). -/
def State.setUp (s : State) (v : BitVec 19) : State :=
  { s with up := v, written := { s.written with up := true } }

/-- `OSS <- v` (R27). -/
def State.setOss (s : State) (v : BitVec 2) : State :=
  { s with oss := v, written := { s.written with oss := true } }

/-- `TT <- t ; TP <- tp`, together (R253). -/
def State.setResults (s : State) (t tp : Word) : State :=
  { s with tt := t, tp := tp, written := { s.written with tt := true, tp := true } }

/-! ### Pin micro-operations -/

/-- Record an event of the trace (R136); the newest event stands first. -/
def State.log (s : State) (e : Event) : State := { s with trace := e :: s.trace }

/-- `AssertSCL` (R130). -/
def State.assertScl (s : State) : State := { s with sclDrv := true }.log .sclLow

/-- `ReleaseSCL` (R130). -/
def State.releaseScl (s : State) : State := { s with sclDrv := false }.log .sclRel

/-- `AssertSDA` (R130). -/
def State.assertSda (s : State) : State := { s with sdaDrv := true }.log .sdaLow

/-- `ReleaseSDA` (R130). -/
def State.releaseSda (s : State) : State := { s with sdaDrv := false }.log .sdaRel

/-- `Delay(t)`: changes no state but the trace (R134). -/
def State.delay (s : State) (us : Nat) : State := s.log (.dly us)

/-- One answer `env()` of a line and the line after it (R133). -/
def Line.next (l : Line) : Bool × Line :=
  match l.answers with
  | [] => (l.rest, l)
  | v :: vs => (v, { l with answers := vs })

/-- `SampleSCL()`: 0 while the block drives the line, else one answer (R133). -/
def State.sampleScl (s : State) : Bool × State :=
  if s.sclDrv then (false, s.log (.sclSample false))
  else (s.scl.next.1, { s with scl := s.scl.next.2 }.log (.sclSample s.scl.next.1))

/-- `SampleSDA()` (R133). -/
def State.sampleSda (s : State) : Bool × State :=
  if s.sdaDrv then (false, s.log (.sdaSample false))
  else (s.sda.next.1, { s with sda := s.sda.next.2 }.log (.sdaSample s.sda.next.1))

/-! ### How a procedure ends -/

/-- The end of a procedure: it returns, it raises a status (R13 `raise`), or it stays in a wait loop
for ever (R281). Each carries the state reached there; nothing is rolled back (R272). -/
inductive Flow (α : Type) where
  | done (a : α) (s : State)
  | raised (st : Status) (s : State)
  | hung (w : WaitLoop) (s : State)

/-- The state a procedure reached, however it ended. -/
def Flow.state {α : Type} : Flow α → State
  | .done _ s | .raised _ s | .hung _ s => s

/-- Go on after a procedure that returned; a raise or a hang ends the command (R272). -/
def Flow.bind {α β : Type} (f : Flow α) (k : α → State → Flow β) : Flow β :=
  match f with
  | .done a s => k a s
  | .raised st s => .raised st s
  | .hung w s => .hung w s

/-- Inside RDCAL, RDT and RDP a TIMEOUT is recorded as I2C_ERROR (R201, R272). -/
def Flow.timeoutAsI2c {α : Type} : Flow α → Flow α
  | .raised .timeout s => .raised .i2cError s
  | f => f

/-! ### The wait loops (R135) -/

/-- How a wait loop ends. -/
inductive WaitEnd where
  /-- A sample showed the wanted level. -/
  | seen
  /-- WLIM samples were taken without it. -/
  | timeout
  /-- WLIM = 0 and the line never shows it. -/
  | never
  deriving DecidableEq, Repr

/-- A wait loop's samples in order, the line after them and the loop's end. For `never` the
samples are those before the line's constant rest level; each further one is a step of its own. -/
structure WaitResult where
  samples : List Bool
  line : Line
  ending : WaitEnd
  deriving DecidableEq, Repr

/-- The loop of R135 for the wanted level `want`, with limit `limit` (0 is unbounded), `n` samples
counted so far, on the answers given and then `rest` for ever. -/
def waitFrom (want : Bool) (limit : Nat) (rest : Bool) : Nat → List Bool → WaitResult
  | n, [] =>
    if rest = want then ⟨[rest], ⟨[], rest⟩, .seen⟩
    else if limit = 0 then ⟨[], ⟨[], rest⟩, .never⟩
    else ⟨List.replicate (limit - n) rest, ⟨[], rest⟩, .timeout⟩
  | n, v :: vs =>
    if v = want then ⟨[v], ⟨vs, rest⟩, .seen⟩
    else if limit ≠ 0 ∧ n + 1 = limit then ⟨[v], ⟨vs, rest⟩, .timeout⟩
    else
      let r := waitFrom want limit rest (n + 1) vs
      { r with samples := v :: r.samples }

/-- The loop on a line; a line the block itself drives reads 0 at every sample and consumes no
answer (R133). -/
def waitOn (want : Bool) (limit : Nat) (driven : Bool) (l : Line) : WaitResult :=
  if driven then { waitFrom want limit false 0 [] with line := l }
  else waitFrom want limit l.rest 0 l.answers

/-- How the enclosing procedure goes on after a wait loop (R135, R280, R281). -/
def WaitEnd.flow (e : WaitEnd) (w : WaitLoop) (s : State) : Flow Unit :=
  match e with
  | .seen => .done () s
  | .timeout => .raised .timeout s
  | .never => .hung w s

/-- `WaitSCLHigh()` (R135). -/
def State.waitSclHigh (s : State) : Flow Unit :=
  let r := waitOn true s.wlim.toNat s.sclDrv s.scl
  r.ending.flow .sclHigh
    { s with scl := r.line, trace := (r.samples.map .sclSample).reverse ++ s.trace }

/-- `WaitSDALow()` (R135). -/
def State.waitSdaLow (s : State) : Flow Unit :=
  let r := waitOn false s.wlim.toNat s.sdaDrv s.sda
  r.ending.flow .sdaLow
    { s with sda := r.line, trace := (r.samples.map .sdaSample).reverse ++ s.trace }

/-- One more sample of a wait loop the environment never lets end (R135, R281): the unwanted level
again, with nothing else changed. -/
def State.sampleAgain (s : State) : WaitLoop → State
  | .sclHigh => s.log (.sclSample false)
  | .sdaLow => s.log (.sdaSample true)

/-! ### How a command ends -/

/-- The end of a command with a status: STATUS is written as the last action and the sequencer is
idle (R32, R105). This is also all that a failure does, the block's form of taking an exception
(R272, R284); there is no return from one (R285). -/
def State.endCommand (s : State) (st : Status) : State :=
  { s with status := st.code, seq := .idle }

/-- The outcome of a command whose body ended so: a returned or raised status ends it; a hang
leaves it running for ever, STATUS unwritten (R281). -/
def Flow.close (f : Flow Status) (running : Instr) : Host.Outcome State Fault Refusal :=
  match f with
  | .done st s => .next (s.endCommand st)
  | .raised st s => .next (s.endCommand st)
  | .hung w s => .next { s with seq := .waiting running w }

end Sys2Proof.Machine
end

