-- ==== Sys2Proof/Machine/Operands.lean ====
section
/-! DEFINITION. Operand forms: the bytes a WRB sends, bit order on the wire (20_memory R68), the
assembly of received bytes (R70, 42_bmp085_access R203, R206), and the extension of COMP's inputs
(10_state R24, 43_compensation R231). -/

namespace Sys2Proof.Machine

/-- The bits of a byte in wire order, most significant first (R68). -/
def wireBits (b : Byte) : List Bool :=
  [b.getLsbD 7, b.getLsbD 6, b.getLsbD 5, b.getLsbD 4, b.getLsbD 3, b.getLsbD 2, b.getLsbD 1,
   b.getLsbD 0]

/-- The shift register after one more received bit: the first bit received ends as bit 7 (R68,
R172). -/
def shiftIn (v : Byte) (bit : Bool) : Byte := (v <<< 1) ||| (BitVec.ofBool bit).setWidth 8

/-- `[BUF[i], ..., BUF[i+n-1]]` (R171). -/
def bufBytes (m : Memory) : Nat → Nat → List Byte
  | 0, _ => []
  | n + 1, i => Memory.read m i :: bufBytes m n (i + 1)

/-- The j-th received byte; every use is below the received length. -/
def rxByte (rx : List Byte) (j : Nat) : Byte := rx.getD j 0

/-- `rx[2i] ++ rx[2i+1]`, most significant byte first (R70, R203). -/
def rxWord (rx : List Byte) (i : Nat) : Half := rxByte rx (2 * i) ++ rxByte rx (2 * i + 1)

/-- The eleven calibration words of 22 received bytes (R203). -/
def calWords (rx : List Byte) : Vector Half 11 :=
  #v[rxWord rx 0, rxWord rx 1, rxWord rx 2, rxWord rx 3, rxWord rx 4, rxWord rx 5,
     rxWord rx 6, rxWord rx 7, rxWord rx 8, rxWord rx 9, rxWord rx 10]

/-- The raw pressure of three received bytes: 24 bits shifted right by `8 - oss` (R206). -/
def rawPressure (rx : List Byte) (oss : BitVec 2) : BitVec 19 :=
  ((rxByte rx 0 ++ rxByte rx 1 ++ rxByte rx 2 : BitVec 24) >>> (8 - oss.toNat)).setWidth 19

/-- A calibration word read as signed (R24). -/
def calSigned (v : Half) : Word := v.signExtend 32

/-- A calibration word read as unsigned (R24). -/
def calUnsigned (v : Half) : Word := v.setWidth 32

end Sys2Proof.Machine
end

