-- ==== Sys2Proof/Machine/BitTransport.lean ====
section
/-! DEFINITION. The bit-level transport (40_bit_transport): ClockUp, the one-bit procedures, the
start and stop sequences, and the commands INIT, START and STOP. -/

namespace Sys2Proof.Machine

/-- `ClockUp()` (R137). -/
def clockUp (s : State) : Flow Unit := s.releaseScl.waitSclHigh

/-- `if b = 1 then ReleaseSDA else AssertSDA` (R138). -/
def State.driveSda (s : State) (b : Bool) : State := if b then s.releaseSda else s.assertSda

/-- `WBIT(b)` (R138). -/
def wbit (b : Bool) (s : State) : Flow Unit :=
  (clockUp ((s.driveSda b).delay tSetup)).bind fun _ s =>
    .done () ((s.delay tHigh).assertScl.delay tLow)

/-- `RBIT()` (R139). -/
def rbit (s : State) : Flow Bool :=
  (clockUp (s.releaseSda.delay tSetup)).bind fun _ s =>
    let r := (s.delay tHigh).sampleSda
    .done r.1 (r.2.assertScl.delay tLow)

/-- `GeneralStart()` (R141). -/
def generalStart (s : State) : Flow Unit :=
  (clockUp (s.releaseSda.delay tSetup)).bind fun _ s =>
    .done () (((s.delay tHigh).assertSda.delay tHigh).assertScl.delay tLow)

/-- The micro-operations of a VARIANT_TAIL in order (R143, U11). -/
def runTail : List TailOp → State → Flow Unit
  | [], s => .done () s
  | .assertScl :: ops, s => runTail ops s.assertScl
  | .releaseScl :: ops, s => runTail ops s.releaseScl
  | .assertSda :: ops, s => runTail ops s.assertSda
  | .releaseSda :: ops, s => runTail ops s.releaseSda
  | .delay us :: ops, s => runTail ops (s.delay us)
  | .clockUp :: ops, s => (clockUp s).bind fun _ s => runTail ops s

/-- `VariantTail()` (R143). -/
def variantTail (s : State) : Flow Unit := runTail s.cfg.variantTail s

/-- `StartSeq()` (R142): STARTED is set first; MODE is read after GeneralStart. -/
def startSeq (s : State) : Flow Unit :=
  (generalStart { s with started := true }).bind fun _ s =>
    match s.mode with
    | .normal => .done () s
    | .sensorVariant => variantTail s

/-- `StopSeq()` (R145): STARTED is cleared last; MODE is not read. -/
def stopSeq (s : State) : Flow Unit :=
  (clockUp (s.assertSda.delay tSetup)).bind fun _ s =>
    .done () { ((s.delay tHigh).releaseSda.delay tHigh) with started := false }

/-- INIT (R140). -/
def execInit (s : State) : Host.Outcome State Fault Refusal :=
  .next (s.releaseScl.releaseSda.endCommand .ok)

/-- START (R144). -/
def execStart (s : State) : Host.Outcome State Fault Refusal :=
  ((startSeq s).bind fun _ s => .done .ok s).close .start

/-- STOP (R146). -/
def execStop (s : State) : Host.Outcome State Fault Refusal :=
  ((stopSeq s).bind fun _ s => .done .ok s).close .stop

end Sys2Proof.Machine
end

