-- ==== Sys2Proof/Machine/ByteTransport.lean ====
section
/-! DEFINITION. The byte transport (41_byte_transport): WriteSeq, ReadSeq, and the commands WRB,
RDB and SETMODE. -/

namespace Sys2Proof.Machine

/-- Send the bits of a list in order, each a WBIT (R170). -/
def writeBits : List Bool → State → Flow Unit
  | [], s => .done () s
  | b :: bs, s => (wbit b s).bind fun _ s => writeBits bs s

/-- The byte loop of WriteSeq: each byte most significant bit first, then the acknowledge slot; a 1
there is NACK and ends the loop (R170, R175). -/
def writeBytes : List Byte → State → Flow Status
  | [], s => .done .ok s
  | b :: bs, s =>
    (writeBits (wireBits b) s).bind fun _ s =>
      (rbit s).bind fun nack s => if nack then .done .noAck s else writeBytes bs s

/-- An optional start or stop. -/
def optionally (c : Bool) (p : State → Flow Unit) (s : State) : Flow Unit :=
  if c then p s else .done () s

/-- `WriteSeq(bytes, S, P)` (R170): the stop is sent on both paths, but not after a TIMEOUT. -/
def writeSeq (bytes : List Byte) (withStart withStop : Bool) (s : State) : Flow Status :=
  (optionally withStart startSeq s).bind fun _ s =>
    (writeBytes bytes s).bind fun st s =>
      (optionally withStop stopSeq s).bind fun _ s => .done st s

/-- `n` received bits shifted into `v`, the first one highest (R172). -/
def readBits : Nat → Byte → State → Flow Byte
  | 0, v, s => .done v s
  | n + 1, v, s => (rbit s).bind fun b s => readBits n (shiftIn v b) s

/-- The byte loop of ReadSeq for `n` more bytes from index `i`: each byte, when `toBuf`, goes to BUF
before its acknowledge pulse (R173); every byte but the last is acknowledged, the last one when
`ackLast` (R172). -/
def readBytes (toBuf ackLast : Bool) : Nat → Nat → State → Flow (List Byte)
  | 0, _, s => .done [] s
  | n + 1, i, s =>
    (readBits 8 0 s).bind fun v s =>
      (wbit (n == 0 && !ackLast) (if toBuf then s.setBuf i v else s)).bind fun _ s =>
        (readBytes toBuf ackLast n (i + 1) s).bind fun vs s => .done (v :: vs) s

/-- The wait for data low that opens a read in SENSOR_VARIANT mode, after a release of the line
(R172). -/
def readReady (s : State) : Flow Unit :=
  match s.mode with
  | .normal => .done () s
  | .sensorVariant => s.releaseSda.waitSdaLow

/-- `ReadSeq(L, A, P)` (R172), with the received bytes also stored in BUF when `toBuf` (R173). -/
def readSeq (toBuf : Bool) (len : Nat) (ackLast withStop : Bool) (s : State) :
    Flow (List Byte) :=
  (readReady s).bind fun _ s =>
    (readBytes toBuf ackLast len 0 s).bind fun rx s =>
      (optionally withStop stopSeq s).bind fun _ s => .done rx s

/-- WRB (R171). A length above 32, which no legal word encodes, is refused as ILLEGAL_CMD before
any micro-operation (R65, R98; DEDUCED, log 13). -/
def execWrb (len : BitVec 6) (withStart withStop : Bool) (s : State) :
    Host.Outcome State Fault Refusal :=
  if lenLegal len then
    (writeSeq (bufBytes s.buf len.toNat 0) withStart withStop s).close (.wrb len withStart withStop)
  else .next (s.endCommand .illegalCmd)

/-- RDB (R173). A length above 32 as in WRB (log 13). -/
def execRdb (len : BitVec 6) (ackLast withStop : Bool) (s : State) :
    Host.Outcome State Fault Refusal :=
  if lenLegal len then
    ((readSeq true len.toNat ackLast withStop s).bind fun _ s => .done .ok s).close
      (.rdb len ackLast withStop)
  else .next (s.endCommand .illegalCmd)

/-- SETMODE (R174): BUSY before UNKNOWN_MODE (R283). -/
def execSetmode (m : BitVec 2) (s : State) : Host.Outcome State Fault Refusal :=
  if s.started then .next (s.endCommand .busy)
  else
    match modeOfField m with
    | none => .next (s.endCommand .unknownMode)
    | some mode => .next ({ s with mode := mode }.endCommand .ok)

end Sys2Proof.Machine
end

