-- ==== Sys2Proof/Machine/Bmp085.lean ====
section
/-! DEFINITION. The BMP085 register accessor (42_bmp085_access): SetNormal, the wrapped write
steps, and the commands RDCAL, RDT and RDP. -/

namespace Sys2Proof.Machine

/-- A `WriteSeq` whose NO_ACK is raised as I2C_ERROR (R201). -/
def writeStep (bytes : List Byte) (withStart withStop : Bool) (s : State) : Flow Unit :=
  (writeSeq bytes withStart withStop s).bind fun st s =>
    if st = .ok then .done () s else .raised .i2cError s

/-- Pointer write, read address after a repeated start, then `n` bytes into the receive area, the
last one not acknowledged, with stop (R100, R209, R210). -/
def readRegister (reg : Byte) (n : Nat) (s : State) : Flow (List Byte) :=
  (writeStep [addrW, reg] true false s).bind fun _ s =>
    (writeStep [addrR] true false s).bind fun _ s => readSeq false n false true s

/-- A conversion: the control-register write with stop, the fixed delay, then the result read
(R204, R205). -/
def convert (control : Byte) (us : Nat) (n : Nat) (s : State) : Flow (List Byte) :=
  (writeStep [addrW, regCtrl, control] true true s).bind fun _ s =>
    readRegister regMsb n (s.delay us)

/-- A register command: `SetNormal()` (R200), then the body, whose TIMEOUT counts as I2C_ERROR
(R201). -/
def registerCommand (running : Instr) (body : State → Flow Status) (s : State) :
    Host.Outcome State Fault Refusal :=
  if s.started then .next (s.endCommand .modeChangeError)
  else (body { s with mode := .normal }).timeoutAsI2c.close running

/-- RDCAL (R202): the eleven words are written together, on success only. -/
def execRdcal (s : State) : Host.Outcome State Fault Refusal :=
  registerCommand .rdcal
    (fun s => (readRegister regCal calBytes s).bind fun rx s => .done .ok (s.setAllCal (calWords rx)))
    s

/-- RDT (R204). -/
def execRdt (s : State) : Host.Outcome State Fault Refusal :=
  registerCommand .rdt
    (fun s => (convert cmdTemp tConvTemp 2 s).bind fun rx s => .done .ok (s.setUt (rxWord rx 0))) s

/-- RDP (R205): UP and OSS are written together, on success only. -/
def execRdp (oss : BitVec 2) (s : State) : Host.Outcome State Fault Refusal :=
  registerCommand (.rdp oss)
    (fun s => (convert (cmdPres oss) tConvPres 3 s).bind fun rx s =>
      .done .ok ((s.setUp (rawPressure rx oss)).setOss oss))
    s

end Sys2Proof.Machine
end

