-- ==== Sys2Proof/Machine/Compensation.lean ====
section
/-! DEFINITION. The fixed-point compensation engine (43_compensation) and the command COMP. Every
value is a 32-bit word; `+`, `-`, `*` and left shifts keep the low 32 bits (R232 b), and a word is
read as signed or unsigned by the operation that uses it (R232 f). -/

namespace Sys2Proof.Machine

/-- `>>` on a signed value: the arithmetic shift (R13, R232 c). -/
def asr (v : Word) (n : Nat) : Word := v.sshiftRight n

/-- `/` on signed values with a divisor that is not 0, rounded as DIV_ROUND says (R232 d, U10). -/
def signedDiv (round : DivRound) (a b : Word) : Word :=
  BitVec.ofInt 32
    (match round with
      | .towardZero => Int.tdiv a.toInt b.toInt
      | .towardMinusInfinity => Int.fdiv a.toInt b.toInt)

/-- The inputs of the engine, extended to 32 bits (R231). MB is extended for completeness and used
by no formula (R256). -/
structure CompInput where
  rawT : Word
  rawP : Word
  oss : Nat
  ac1 : Word
  ac2 : Word
  ac3 : Word
  ac4 : Word
  ac5 : Word
  ac6 : Word
  b1 : Word
  b2 : Word
  mb : Word
  mc : Word
  md : Word
  poff : Word
  deriving DecidableEq, Repr

/-- The inputs as the registers hold them (R231). -/
def State.compInput (s : State) : CompInput where
  rawT := s.ut.setWidth 32
  rawP := s.up.setWidth 32
  oss := s.oss.toNat
  ac1 := calSigned s.cal[0]
  ac2 := calSigned s.cal[1]
  ac3 := calSigned s.cal[2]
  ac4 := calUnsigned s.cal[3]
  ac5 := calUnsigned s.cal[4]
  ac6 := calUnsigned s.cal[5]
  b1 := calSigned s.cal[6]
  b2 := calSigned s.cal[7]
  mb := calSigned s.cal[8]
  mc := calSigned s.cal[9]
  md := calSigned s.cal[10]
  poff := s.poff

/-! ### Temperature -/

/-- x1 of R233. -/
def tempX1 (c : CompInput) : Word := asr ((c.rawT - c.ac6) * c.ac5) 15

/-- The divisor `x1 + md` of R234. -/
def tempDen (c : CompInput) : Word := tempX1 c + c.md

/-- x2 of R234; used only where the divisor is not 0. -/
def tempX2 (round : DivRound) (c : CompInput) : Word := signedDiv round (c.mc * 2048) (tempDen c)

/-- b5 of R235. -/
def compB5 (round : DivRound) (c : CompInput) : Word := tempX1 c + tempX2 round c

/-- t of R236, from b5. -/
def trueTemp (b5 : Word) : Word := asr (b5 + 8) 4

/-! ### Pressure -/

/-- b6 of R237. -/
def compB6 (b5 : Word) : Word := b5 - 4000

/-- q of R238. -/
def compQ (b6 : Word) : Word := asr (b6 * b6) 12

/-- x3 of R239 to R241. -/
def presX3a (c : CompInput) (b6 : Word) : Word :=
  asr (c.b2 * compQ b6) 11 + asr (c.ac2 * b6) 11

/-- b3 of R242. -/
def compB3 (c : CompInput) (b6 : Word) : Word :=
  asr (((c.ac1 * 4 + presX3a c b6) <<< c.oss) + 2) 2

/-- x3 of R243 to R245. -/
def presX3b (c : CompInput) (b6 : Word) : Word :=
  asr (asr (c.ac3 * b6) 13 + asr (c.b1 * compQ b6) 16 + 2) 2

/-- b4 of R246, unsigned: the shift is logical. -/
def compB4 (c : CompInput) (b6 : Word) : Word := (c.ac4 * (presX3b c b6 + 32768)) >>> 15

/-- b7 of R247, unsigned. -/
def compB7 (c : CompInput) (b6 : Word) : Word :=
  (c.rawP - compB3 c b6) * ((50000 : Word) >>> c.oss)

/-- p of R248, from b7 and a b4 that is not 0; comparison and divisions are unsigned. -/
def compP (b7 b4 : Word) : Word := if b7 < 0x80000000 then (b7 * 2) / b4 else (b7 / b4) * 2

/-- x1 of R249 and R250. -/
def presX1 (p : Word) : Word := asr (asr p 8 * asr p 8 * 3038) 16

/-- x2 of R251. -/
def presX2 (p : Word) : Word := asr (-7357 * p) 16

/-- tp of R252, with the offset register POFF in place of the literal 1600. -/
def truePressure (p poff : Word) : Word := p + asr (presX1 p + presX2 p + 3791) 4 + poff

/-- Rules R233 to R252 in order: the pair (t, tp), or none where a divisor is 0 (R254), the
temperature's looked at before the pressure's (R283). -/
def compensate (round : DivRound) (c : CompInput) : Option (Word × Word) :=
  if tempDen c = 0 then none
  else
    let b5 := compB5 round c
    let b6 := compB6 b5
    if compB4 c b6 = 0 then none
    else some (trueTemp b5, truePressure (compP (compB7 c b6) (compB4 c b6)) c.poff)

/-- COMP (R230, R253, R254). -/
def execComp (s : State) : Host.Outcome State Fault Refusal :=
  match compensate s.cfg.divRound s.compInput with
  | none => .next (s.endCommand .arithFault)
  | some (t, tp) => .next ((s.setResults t tp).endCommand .ok)

end Sys2Proof.Machine
end

