-- ==== Sys2Proof/Machine/Dispatch.lean ====
section
/-! DEFINITION. One arm per command (30_encoding R94): the whole command as one transition
(10_state R40, log 1). -/

namespace Sys2Proof.Machine

def exec (i : Instr) (s : State) : Host.Outcome State Fault Refusal :=
  match i with
  | .init => Sys2Proof.Machine.execInit s
  | .start => Sys2Proof.Machine.execStart s
  | .stop => Sys2Proof.Machine.execStop s
  | .setmode m => Sys2Proof.Machine.execSetmode m s
  | .wrb len ws wp => Sys2Proof.Machine.execWrb len ws wp s
  | .rdb len al wp => Sys2Proof.Machine.execRdb len al wp s
  | .rdcal => Sys2Proof.Machine.execRdcal s
  | .rdt => Sys2Proof.Machine.execRdt s
  | .rdp oss => Sys2Proof.Machine.execRdp oss s
  | .comp => Sys2Proof.Machine.execComp s

end Sys2Proof.Machine
end

