-- ==== Sys2Proof/Machine/HostPort.lean ====
section
/-! DEFINITION. The host register space (20_memory R60 to R64), the ready signal, a write to CMD
(R63), the reset input (70_reset_and_hazards R300, R303), and what a step does at an idle block and in
a hang (60_exceptions R281). -/

namespace Sys2Proof.Machine

/-- What stands at a host register address (R61). -/
inductive HostReg where
  | cmd
  | status
  | flags
  | poff
  | wlim
  | oss
  | ut
  | up
  | tt
  | tp
  | cal (i : Fin 11)
  | buf (i : Fin 32)
  | reserved
  deriving DecidableEq, Repr

/-- The register map (R61). -/
def regAt (addr : BitVec 8) : HostReg :=
  let a := addr.toNat
  if a = 0x00 then .cmd
  else if a = 0x01 then .status
  else if a = 0x02 then .flags
  else if a = 0x03 then .poff
  else if a = 0x04 then .wlim
  else if a = 0x05 then .oss
  else if a = 0x06 then .ut
  else if a = 0x07 then .up
  else if a = 0x08 then .tt
  else if a = 0x09 then .tp
  else if h : 0x10 ≤ a ∧ a < 0x1B then .cal ⟨a - 0x10, by omega⟩
  else if h : 0x20 ≤ a ∧ a < 0x40 then .buf ⟨a - 0x20, by omega⟩
  else .reserved

/-- `MemRead(addr, 1)`: the register zero-extended, 0 at a reserved address; no side effect (R62,
R64). -/
def hostRead (addr : BitVec 8) (s : State) : Word :=
  match regAt addr with
  | .cmd => s.cmd.setWidth 32
  | .status => s.status.setWidth 32
  | .flags => s.flags
  | .poff => s.poff
  | .wlim => s.wlim
  | .oss => s.oss.setWidth 32
  | .ut => s.ut.setWidth 32
  | .up => s.up.setWidth 32
  | .tt => s.tt
  | .tp => s.tp
  | .cal i => s.cal[i].setWidth 32
  | .buf i => (Memory.read s.buf i).setWidth 32
  | .reserved => 0

/-- The command a word written to CMD starts: an illegal word ends at once with ILLEGAL_CMD (R96,
R97). CMD already holds the word. -/
def runWord (c : Half) (s : State) : Host.Outcome State Fault Refusal :=
  match decode c with
  | .ok i => exec i s
  | .error _ => .next (s.endCommand .illegalCmd)

/-- `MemWrite(addr, 1, data)` (R62, R63, R64): the low bits the register has are kept; read-only and
reserved addresses ignore it; a write to CMD stores the low 16 bits and starts the command. -/
def hostWrite (addr : BitVec 8) (data : Word) (s : State) : Host.Outcome State Fault Refusal :=
  match regAt addr with
  | .cmd => runWord (data.setWidth 16) { s with cmd := data.setWidth 16 }
  | .poff => .next { s with poff := data }
  | .wlim => .next { s with wlim := data }
  | .oss => .next (s.setOss (data.setWidth 2))
  | .ut => .next (s.setUt (data.setWidth 16))
  | .up => .next (s.setUp (data.setWidth 19))
  | .cal i => .next (s.setCal i (data.setWidth 16))
  | .buf i => .next (s.setBuf i (data.setWidth 8))
  | .status | .flags | .tt | .tp | .reserved => .next s

/-- h_ready: no command runs (R63, R302). -/
def State.ready (s : State) : Bool := s.seq == .idle

/-- `rst`: every piece of the block's state takes its reset value (R300). What is not the block's
stays: the parameters, the environment, the trace so far, the host's events and last read data
(log 12). -/
def State.applyReset (s : State) : State :=
  { State.reset with
    cfg := s.cfg, scl := s.scl, sda := s.sda, trace := s.trace, host := s.host, rdata := s.rdata }

/-- Drop the answers `n` samples consumed. -/
def Line.drop (l : Line) (n : Nat) : Line := { l with answers := l.answers.drop n }

/-- Is the event a sample of SCL? -/
def Event.isSclSample : Event → Bool
  | .sclSample _ => true
  | _ => false

/-- Is the event a sample of SDA? -/
def Event.isSdaSample : Event → Bool
  | .sdaSample _ => true
  | _ => false

/-- The first `k` micro-operations of a command that led from `s` to `t`, oldest first. A command
that hangs goes on sampling the line it waits for. -/
def executedEvents (s t : State) (k : Nat) : List Event :=
  ((t.trace.take (t.trace.length - s.trace.length)).reverse ++
    (match t.seq with
      | .idle => []
      | .waiting _ .sclHigh => List.replicate k (.sclSample false)
      | .waiting _ .sdaLow => List.replicate k (.sdaSample true))).take k

/-- The state after a reset that cuts the command from `s` to `t` short after `k` micro-operations
(R303): the rest is not executed, STATUS takes its reset value, both lines are released; the
environment has given the answers of the samples executed. -/
def cutShort (s t : State) (k : Nat) : State :=
  let done := executedEvents s t k
  { s.applyReset with
    scl := s.scl.drop (done.countP Event.isSclSample)
    sda := s.sda.drop (done.countP Event.isSdaSample)
    trace := done.reverse ++ s.trace }

/-- The outcome of a command cut short, from the outcome of the whole command. -/
def cutOutcome (s : State) (k : Nat) :
    Host.Outcome State Fault Refusal → Host.Outcome State Fault Refusal
  | .next t => .next (cutShort s t k)
  | .fault r => .fault r
  | .refused r => .refused r

/-- One host event at an idle block. -/
def hostStep (e : HostEvent) (s : State) : Host.Outcome State Fault Refusal :=
  match e with
  | .write addr data => hostWrite addr data s
  | .read addr => .next { s with rdata := hostRead addr s }
  | .reset => .next s.applyReset
  | .resetDuring data k => cutOutcome s k (hostWrite 0 data s)

/-- A step of an idle block: the next host event, or nothing when there is none (R300). -/
def idleStep (s : State) : Host.Outcome State Fault Refusal :=
  match s.host with
  | [] => .next s
  | e :: rest => hostStep e { s with host := rest }

/-- A step inside a wait loop that never ends: another sample, unless `rst` is asserted, the only
way out (R281, R300). A held host's accesses stay pending (R63). -/
def waitStep (w : WaitLoop) (s : State) : State :=
  match s.host with
  | .reset :: rest => { s with host := rest }.applyReset
  | _ => s.sampleAgain w

end Sys2Proof.Machine
end

