-- ==== Sys2Proof/Machine/Step.lean ====
section
/-! DEFINITION. One step: the next host event at an idle block, one more sample in a command that
hangs (60_exceptions R281), nothing at an idle block with no event (70_reset_and_hazards R300). -/

namespace Sys2Proof.Machine

/-- One step of the machine. -/
def step (s : State) : Host.Outcome State Fault Refusal :=
  match s.seq with
  | .waiting _ w => .next (waitStep w s)
  | .idle => idleStep s

/-- The state in which the host is about to write the command word `w` (its `nbits` bits, zeros
above) to CMD: an idle block with that access first in the queue (log 11). -/
def State.withFetchWord (s : State) (nbits w : Nat) : State :=
  { s with
    seq := .idle
    host := .write 0 ((BitVec.ofNat 16 (w % 2 ^ nbits)).setWidth 32) :: s.host }

end Sys2Proof.Machine
end

