-- ==== Sys2Proof/Safety.lean ====
section
/-! DEFINITION. The terms claims use: what an environment must do for the waits to end, what the
sampled answers stand for, the pin events each procedure of the spec lists (written out from
95_test_vectors, conventions, not from the model's procedures), what a run with defined inputs is
(93_implementation_defined U1), and the invariant of the machine. -/

namespace Sys2Proof.Machine

/-! ### The environment's answers -/

/-- The next `n` answers of a line. -/
def Line.peek (l : Line) : Nat → List Bool
  | 0 => []
  | n + 1 => l.next.1 :: l.next.2.peek n

/-- What is left of an SCL line after `n` waits for a high clock that all end (R135, R137); none when
one of them does not. -/
def Line.afterRises (limit : Nat) : Nat → Line → Option Line
  | 0, l => some l
  | n + 1, l =>
    let r := waitOn true limit false l
    if r.ending = .seen then r.line.afterRises limit n else none

/-- The answers of SCL left after `n` rises of the clock from here, if all their waits end. -/
def State.clockAfter (s : State) (n : Nat) : Option Line := s.scl.afterRises s.wlim.toNat n

/-- The wait for a high clock on the answers `l` (R135). -/
def State.clockWait (s : State) (l : Line) : WaitResult := waitOn true s.wlim.toNat false l

/-- The one wait for data low that opens a read in SENSOR_VARIANT mode from here (R172). -/
def State.dataWait (s : State) : WaitResult := waitOn false s.wlim.toNat false s.sda

/-- That wait, where the mode asks for it, ends. -/
def State.dataReady (s : State) : Bool := s.mode == .normal || s.dataWait.ending == .seen

/-- The answers to unwanted samples at the head of a line. -/
def Line.unwanted (l : Line) (want : Bool) : List Bool := l.answers.takeWhile (· != want)

/-- The line after a wait for `want` that ended. -/
def Line.afterWait (l : Line) (want : Bool) : Line := l.drop ((l.unwanted want).length + 1)

/-- The number a list of bits spells, most significant bit first (R68). -/
def bitsValue (bits : List Bool) : Nat := bits.foldl (fun n b => 2 * n + b.toNat) 0

/-- The `n` bytes a line's next `8 * n` answers spell (R68). -/
def Line.bytes (l : Line) : Nat → List Byte
  | 0 => []
  | n + 1 => BitVec.ofNat 8 (bitsValue (l.peek 8)) :: (l.drop 8).bytes n

/-- How many bytes a WriteSeq clocks out, given the answers in the acknowledge slots: up to and
with the first NACK (R170, E2). -/
def bytesSent : List Bool → Nat
  | [] => 0
  | nack :: acks => 1 + (if nack then 0 else bytesSent acks)

/-- The status of a WriteSeq with these answers in the acknowledge slots (R170). -/
def writeStatus (acks : List Bool) : Status := if acks.any id then .noAck else .ok

/-! ### What a list of events, oldest first, says of the pins -/

/-- The answers to the samples of SCL, in order (R133). -/
def sclAnswers : List Event → List Bool
  | [] => []
  | .sclSample v :: es => v :: sclAnswers es
  | _ :: es => sclAnswers es

/-- The answers to the samples of SDA, in order (R133). -/
def sdaAnswers : List Event → List Bool
  | [] => []
  | .sdaSample v :: es => v :: sdaAnswers es
  | _ :: es => sdaAnswers es

/-- The drive latches (SCL, SDA; true is asserted) after the pin micro-operations of the list, from
given ones (R130). -/
def pinDrive : List Event → Bool × Bool → Bool × Bool
  | [], d => d
  | .sclLow :: es, (_, sda) => pinDrive es (true, sda)
  | .sclRel :: es, (_, sda) => pinDrive es (false, sda)
  | .sdaLow :: es, (scl, _) => pinDrive es (scl, true)
  | .sdaRel :: es, (scl, _) => pinDrive es (scl, false)
  | .sclSample _ :: es, d | .sdaSample _ :: es, d | .dly _ :: es, d => pinDrive es d

/-! ### Bus activity -/

/-- The drive latches (SCL, SDA), true is asserted. -/
def State.drv (s : State) : Bool × Bool := (s.sclDrv, s.sdaDrv)

/-- `s` after bus activity and nothing else: STARTED and the drive latches as given, `scl` and `sda`
the answers left, `new` the events (newest first). Every register stays. -/
def State.bus (s : State) (started : Bool) (drv : Bool × Bool) (scl sda : Line)
    (new : List Event) : State :=
  { s with
    started := started, sclDrv := drv.1, sdaDrv := drv.2, scl := scl, sda := sda
    trace := new ++ s.trace }

/-- `s` with BUF and its marks as given and nothing else changed. -/
def State.withBuf (s : State) (b : Memory) (w : Written) : State := { s with buf := b, written := w }

/-- How command `i` is left when a wait of it has ended so without the wanted level: ended with `st`
under a limit (R280), hanging in the wait without one (R281). -/
def State.waitFailed (s : State) (i : Instr) (w : WaitLoop) (e : WaitEnd) (st : Status) : State :=
  match e with
  | .never => { s with seq := .waiting i w }
  | .seen | .timeout => s.endCommand st

/-! ### Pin events, oldest first, of an unstretched clock (95_test_vectors, conventions) -/

/-- A trace's events, oldest first, without the samples of SCL that showed 0, whose number depends on
clock stretching: the trace the same command has with an unstretched clock (R137). -/
def quiet (tr : List Event) : List Event := tr.reverse.filter (fun e => e ≠ .sclSample false)

/-- How often the clock rises in an unstretched trace: `c?1` ends each `ClockUp()` (R137). -/
def rises (evs : List Event) : Nat := evs.count (.sclSample true)

/-- The events before the clock rises for the `n + 1`-st time: all that comes before that `c?1`. -/
def beforeRise : Nat → List Event → List Event
  | _, [] => []
  | 0, e :: es => if e = .sclSample true then [] else e :: beforeRise 0 es
  | n + 1, e :: es =>
    e :: (if e = .sclSample true then beforeRise n es else beforeRise (n + 1) es)

/-- `w0` and `w1`: one written bit (R138). -/
def evBitOut (b : Bool) : List Event :=
  [if b then .sdaRel else .sdaLow, .dly 1, .sclRel, .sclSample true, .dly 4, .sclLow, .dly 4]

/-- `rv`: one read bit (R139). -/
def evBitIn (v : Bool) : List Event :=
  [.sdaRel, .dly 1, .sclRel, .sclSample true, .dly 4, .sdaSample v, .sclLow, .dly 4]

/-- `ST`: GeneralStart (R141). -/
def evGeneralStart : List Event :=
  [.sdaRel, .dly 1, .sclRel, .sclSample true, .dly 4, .sdaLow, .dly 4, .sclLow, .dly 4]

/-- `SP`: StopSeq (R145). -/
def evStop : List Event :=
  [.sdaLow, .dly 1, .sclRel, .sclSample true, .dly 4, .sdaRel, .dly 4]

/-- The events of one element of VARIANT_TAIL (R137, U11). -/
def evTailOp : TailOp → List Event
  | .assertScl => [.sclLow]
  | .releaseScl => [.sclRel]
  | .assertSda => [.sdaLow]
  | .releaseSda => [.sdaRel]
  | .delay us => [.dly us]
  | .clockUp => [.sclRel, .sclSample true]

/-- The start sequence of either mode (R142). -/
def evStart (cfg : Config) : Mode → List Event
  | .normal => evGeneralStart
  | .sensorVariant => evGeneralStart ++ cfg.variantTail.flatMap evTailOp

/-- One written byte and the answer in its acknowledge slot (R170, R175). -/
def evByteOut (b : Byte) (nack : Bool) : List Event := (wireBits b).flatMap evBitOut ++ evBitIn nack

/-- One received byte and the master's acknowledge pulse (R172, R175). -/
def evByteIn (b : Byte) (ack : Bool) : List Event := (wireBits b).flatMap evBitIn ++ evBitOut (!ack)

/-- The bytes of a WriteSeq up to the first NACK (R170). -/
def evBytesOut : List Byte → List Bool → List Event
  | b :: bs, nack :: acks => evByteOut b nack ++ (if nack then [] else evBytesOut bs acks)
  | _, _ => []

/-- The bytes of a ReadSeq: all acknowledged but the last, that one when `ackLast` (R172). -/
def evBytesIn (ackLast : Bool) : List Byte → List Event
  | [] => []
  | [b] => evByteIn b ackLast
  | b :: bs => evByteIn b true ++ evBytesIn ackLast bs

/-- The wait for data low of a read in SENSOR_VARIANT mode: released, sampled until it is low
(R172). -/
def evReady (l : Line) : Mode → List Event
  | .normal => []
  | .sensorVariant => .sdaRel :: (l.unwanted false ++ [false]).map .sdaSample

/-- Events only when a flag is set. -/
def evIf (c : Bool) (evs : List Event) : List Event := if c then evs else []

/-- The pointer write and the read-address write of a register read, with the answers in their three
acknowledge slots; a NACK ends the list (R202, R204, R205, P2). -/
def evAddress (reg : Byte) (acks : List Bool) : List Event :=
  evGeneralStart ++ evBytesOut [0xEE, reg] (acks.take 2) ++
    evIf (!(acks.take 2).any id) (evGeneralStart ++ evBytesOut [0xEF] (acks.drop 2))

/-- The writes of a conversion, with the answers in their six acknowledge slots: the control-register
write with its stop, the delay, the addressing of the result; a NACK ends the list (R204, R205,
V31, V33). -/
def evConversion (control : Byte) (us : Nat) (acks : List Bool) : List Event :=
  evGeneralStart ++ evBytesOut [0xEE, 0xF4, control] (acks.take 3) ++ evStop ++
    evIf (!(acks.take 3).any id) (.dly us :: evAddress 0xF6 (acks.drop 3))

/-- The drive latches (SCL, SDA) a start sequence leaves (R147). -/
def startExit (cfg : Config) : Mode → Bool × Bool
  | .normal => (true, true)
  | .sensorVariant => tailExit cfg.variantTail (true, true)

/-- The drive latches (SCL, SDA) a completed WriteSeq of `n` bytes leaves (R171). -/
def writeExit (s : State) (n : Nat) (withStart withStop : Bool) : Bool × Bool :=
  if withStop then (false, false)
  else if n ≠ 0 then (true, false)
  else if withStart then startExit s.cfg s.mode
  else s.drv

/-- The drive latches (SCL, SDA) when the wait of a read is over: SENSOR_VARIANT mode has released
SDA (R172). -/
def readyExit (s : State) : Bool × Bool :=
  match s.mode with
  | .normal => s.drv
  | .sensorVariant => (s.sclDrv, false)

/-- The drive latches (SCL, SDA) a completed ReadSeq of `n` bytes leaves (R173). -/
def readExit (s : State) (n : Nat) (ackLast withStop : Bool) : Bool × Bool :=
  if withStop then (false, false)
  else if n ≠ 0 then (true, ackLast)
  else readyExit s

/-- The answers of SDA from the first data bit of a read: after the wait for data low in
SENSOR_VARIANT mode (R172). -/
def State.readLine (s : State) : Line :=
  match s.mode with
  | .normal => s.sda
  | .sensorVariant => s.sda.afterWait false

/-- The data phase of a register read of `n` bytes on the answers `l`, after slots that answered
`acks`: nothing after a NACK (R208, R210). -/
def evResult (acks : List Bool) (l : Line) (n : Nat) : List Event :=
  evIf (!acks.any id) (evBytesIn false ((l.drop acks.length).bytes n) ++ evStop)

/-- The events of a command from `s` whose waits all end (each procedure of the spec written out). -/
def busEvents (i : Instr) (s : State) : List Event :=
  match i with
  | .init => [.sclRel, .sdaRel]
  | .start => evStart s.cfg s.mode
  | .stop => evStop
  | .setmode _ | .comp => []
  | .wrb len ws wp =>
    evIf (lenLegal len) (evIf ws (evStart s.cfg s.mode) ++
      evBytesOut (bufBytes s.buf len.toNat 0) (s.sda.peek len.toNat) ++ evIf wp evStop)
  | .rdb len al wp =>
    evIf (lenLegal len)
      (evReady s.sda s.mode ++ evBytesIn al (s.readLine.bytes len.toNat) ++ evIf wp evStop)
  | .rdcal =>
    evIf (!s.started) (evAddress 0xAA (s.sda.peek 3) ++ evResult (s.sda.peek 3) s.sda 22)
  | .rdt =>
    evIf (!s.started)
      (evConversion 0x2E 5000 (s.sda.peek 6) ++ evResult (s.sda.peek 6) s.sda 2)
  | .rdp oss =>
    evIf (!s.started) (evConversion (BitVec.ofNat 8 (0x34 + 64 * oss.toNat)) 26000 (s.sda.peek 6) ++
      evResult (s.sda.peek 6) s.sda 3)

/-- Every wait of the command from `s` ends: each rise of the clock, and for a read in SENSOR_VARIANT
mode its one opening wait for data low. -/
def waitsEnd (i : Instr) (s : State) : Bool :=
  (s.clockAfter (rises (busEvents i s))).isSome &&
    (match i with
      | .rdb len _ _ => !lenLegal len || s.dataReady
      | _ => true)

/-- Every rising edge of the clock is a `ClockUp()` (R137): in a list of events, oldest first, an
SCL release is followed by an SCL sample, and only an SCL sample of 1 lets anything but another
SCL sample follow. A list may end anywhere. -/
def clockDiscipline : List Event → Bool
  | [] => true
  | [_] => true
  | e :: f :: es =>
    (match e with
      | .sclRel | .sclSample false => f.isSclSample
      | _ => true) && clockDiscipline (f :: es)

/-- The least duration of a list of events in microseconds (R330, R331). -/
def durationUs : List Event → Nat
  | [] => 0
  | .dly us :: es => us + durationUs es
  | _ :: es => durationUs es

/-! ### Defined inputs (U1) -/

/-- Every one of the first `n` bytes of BUF has been written since reset. -/
def Written.bufBelow (w : Written) (n : Nat) : Bool :=
  (List.range n).all fun i => w.buf.getD i false

/-- The command consumes no register that nothing has written since reset: WRB the BUF bytes it may
send, COMP its inputs (U1). -/
def inputsDefined (i : Instr) (s : State) : Bool :=
  match i with
  | .wrb len _ _ => s.written.bufBelow len.toNat
  | .comp => s.written.cal.all id && s.written.ut && s.written.up && s.written.oss
  | .init | .start | .stop | .setmode _ | .rdb _ _ _ | .rdcal | .rdt | .rdp _ => true

/-- A host read returns no register that nothing has written since reset (U1). -/
def readDefined (addr : BitVec 8) (s : State) : Bool :=
  match regAt addr with
  | .ut => s.written.ut
  | .up => s.written.up
  | .oss => s.written.oss
  | .tt => s.written.tt
  | .tp => s.written.tp
  | .cal i => s.written.cal[i]
  | .buf i => s.written.buf[i]
  | .cmd | .status | .flags | .poff | .wlim | .reserved => true

/-- The command a word starts, if any, consumes no undefined register. -/
def wordDefined (c : Half) (s : State) : Bool :=
  match decode c with
  | .ok i => inputsDefined i s
  | .error _ => true

/-- The next step consumes no undefined register: a safe step in the sense of U1. -/
def State.stepDefined (s : State) : Bool :=
  match s.seq, s.host with
  | .idle, .write addr data :: _ =>
    if regAt addr = .cmd then wordDefined (data.setWidth 16) s else true
  | .idle, .resetDuring data _ :: _ => wordDefined (data.setWidth 16) s
  | .idle, .read addr :: _ => readDefined addr s
  | _, _ => true

/-- Two states that differ at most in the values of registers that nothing has written since reset
(U1). -/
def State.sameDefined (s s' : State) : Prop :=
  s' = { s with
    cal := s'.cal, ut := s'.ut, up := s'.up, oss := s'.oss, tt := s'.tt, tp := s'.tp
    buf := s'.buf } ∧
  (∀ i : Fin 11, s.written.cal[i] = true → s'.cal[i] = s.cal[i]) ∧
  (s.written.ut = true → s'.ut = s.ut) ∧ (s.written.up = true → s'.up = s.up) ∧
  (s.written.oss = true → s'.oss = s.oss) ∧ (s.written.tt = true → s'.tt = s.tt) ∧
  (s.written.tp = true → s'.tp = s.tp) ∧
  (∀ j : Fin 32, s.written.buf[j] = true → Memory.read s'.buf j = Memory.read s.buf j)

/-! ### What the tables of the spec allow a command -/

/-- The commands that open with the mode-set step (R200). -/
def isRegisterCommand : Instr → Bool
  | .rdcal | .rdt | .rdp _ => true
  | .init | .start | .stop | .setmode _ | .wrb _ _ _ | .rdb _ _ _ | .comp => false

/-- The statuses a command can end with from `s`: its row of R101 and R271, TIMEOUT only under a
limit (R280). -/
def statuses (i : Instr) (s : State) : List Status :=
  let waits := if s.wlim = 0 then [] else [Status.timeout]
  match i with
  | .init => [.ok]
  | .start | .stop => .ok :: waits
  | .setmode _ => [.ok, .busy, .unknownMode]
  | .wrb len _ _ => if lenLegal len then .ok :: .noAck :: waits else [.illegalCmd]
  | .rdb len _ _ => if lenLegal len then .ok :: waits else [.illegalCmd]
  | .rdcal | .rdt | .rdp _ => [.ok, .i2cError, .modeChangeError]
  | .comp => [.ok, .arithFault]

/-- BUF bytes from here on are out of a command's reach (R65). -/
def bufBound : Instr → Nat
  | .rdb len _ _ => if lenLegal len then len.toNat else 0
  | _ => 0

/-- The commands that can set STARTED (R44). -/
def canStart : Instr → Bool
  | .start | .rdcal | .rdt | .rdp _ => true
  | .wrb _ ws _ => ws
  | _ => false

/-- The commands that can clear STARTED (R44). -/
def canStop : Instr → Bool
  | .stop | .rdcal | .rdt | .rdp _ => true
  | .wrb _ _ wp | .rdb _ _ wp => wp
  | _ => false

/-- The bits of a word that its opcode's format reserves (R91, R92, R93, R95); opcodes that are no
command's have none to look at. -/
def reservedBits (c : Half) : Half :=
  match (opcodeOf c).toNat with
  | 1 | 2 | 3 | 7 | 8 | 10 => 0x0FFF
  | 4 | 9 => 0x0FFC
  | 5 | 6 => 0x0CC0
  | _ => 0

/-- The bits of a host write that stay in the register at the address: the column "bits used" of
R61 where the host may write, none where it may not (R62, R64). CMD is not in this table. -/
def hostBits (addr : BitVec 8) : Word :=
  let a := addr.toNat
  if a = 0x03 ∨ a = 0x04 then 0xFFFFFFFF
  else if a = 0x05 then 0x3
  else if a = 0x06 then 0xFFFF
  else if a = 0x07 then 0x7FFFF
  else if 0x10 ≤ a ∧ a ≤ 0x1A then 0xFFFF
  else if 0x20 ≤ a ∧ a ≤ 0x3F then 0xFF
  else 0

/-- How the first clocked piece of a transport command opens: STARTED then, and the event that sets
the data line; none when the command reaches no `ClockUp()` first (R138, R139, R141, R142, R145). -/
def opening (i : Instr) (s : State) : Option (Bool × Event) :=
  let stop := some (s.started, Event.sdaLow)
  match i with
  | .start => some (true, .sdaRel)
  | .stop => stop
  | .wrb len ws wp =>
    if ws then some (true, .sdaRel)
    else if len ≠ 0 then
      some (s.started, if (Memory.read s.buf 0).getLsbD 7 then .sdaRel else .sdaLow)
    else if wp then stop else none
  | .rdb len _ wp =>
    if s.mode = .sensorVariant then none
    else if len ≠ 0 then some (s.started, .sdaRel)
    else if wp then stop else none
  | .init | .setmode _ | .rdcal | .rdt | .rdp _ | .comp => none

/-- The event of one more sample in a hang (R281). -/
def WaitLoop.sample : WaitLoop → Event
  | .sclHigh => .sclSample false
  | .sdaLow => .sdaSample true

/-- The state after `n` steps, if none of them stops. -/
def State.after (s : State) : Nat → Option State
  | 0 => some s
  | n + 1 =>
    match step s with
    | .next t => t.after n
    | .fault _ | .refused _ => none

/-! ### The compensation over the integers

Rules R233 to R252 written in the notation of R13 over unbounded integers, to compare the 32-bit
datapath with. -/

/-- `s32(v)` (R13). -/
def s32 (v : Int) : Int := v.bmod (2 ^ 32)

/-- `u32(v)` (R13). -/
def u32 (v : Int) : Int := v % 2 ^ 32

/-- `asr(v, n)` and, for `v` not negative, `lsr(v, n)`: `floor(v / 2^n)` (R13). -/
def floorShift (v : Int) (n : Nat) : Int := v / 2 ^ n

/-- The quotient of R234 with the rounding DIV_ROUND. -/
def refDiv (round : DivRound) (a b : Int) : Int :=
  match round with
  | .towardZero => a.tdiv b
  | .towardMinusInfinity => a.fdiv b

section
variable (s : State)

/-- x1 of R233, inputs as in R231. -/
def refX1 : Int := floorShift (s32 ((s.ut.toNat - s.cal[5].toNat) * s.cal[4].toNat)) 15

/-- The divisor of R234. -/
def refDen : Int := s32 (refX1 s + s.cal[10].toInt)

/-- b5 of R234 and R235. -/
def refB5 : Int := s32 (refX1 s + refDiv s.cfg.divRound (s.cal[9].toInt * 2048) (refDen s))

/-- t of R236. -/
def refT : Int := floorShift (s32 (refB5 s + 8)) 4

/-- b6 of R237. -/
def refB6 : Int := s32 (refB5 s - 4000)

/-- q of R238. -/
def refQ : Int := floorShift (s32 (refB6 s * refB6 s)) 12

/-- x3 of R239, R240 and R241. -/
def refX3 : Int :=
  s32 (floorShift (s32 (s.cal[7].toInt * refQ s)) 11 +
    floorShift (s32 (s.cal[1].toInt * refB6 s)) 11)

/-- b3 of R242. -/
def refB3 : Int :=
  floorShift (s32 (s32 (s32 (s.cal[0].toInt * 4 + refX3 s) * 2 ^ s.oss.toNat) + 2)) 2

/-- x3 of R243, R244 and R245. -/
def refX3' : Int :=
  floorShift (s32 (floorShift (s32 (s.cal[2].toInt * refB6 s)) 13 +
    floorShift (s32 (s.cal[6].toInt * refQ s)) 16 + 2)) 2

/-- b4 of R246. -/
def refB4 : Int := floorShift (u32 (s.cal[3].toNat * u32 (refX3' s + 32768))) 15

/-- b7 of R247. -/
def refB7 : Int := u32 (u32 (s.up.toNat - refB3 s) * (50000 / 2 ^ s.oss.toNat))

/-- p of R248. -/
def refP : Int :=
  s32 (if refB7 s < 2147483648 then refB7 s * 2 / refB4 s else u32 (refB7 s / refB4 s * 2))

/-- x1 of R249 and R250. -/
def refX1' : Int :=
  floorShift (s32 (s32 (floorShift (refP s) 8 * floorShift (refP s) 8) * 3038)) 16

/-- x2 of R251. -/
def refX2' : Int := floorShift (s32 (-7357 * refP s)) 16

/-- tp of R252. -/
def refTp : Int := s32 (refP s + floorShift (s32 (refX1' s + refX2' s + 3791)) 4 + s.poff.toInt)

end

/-! ### The invariant -/

/-- Why a wait loop never ends: unbounded waits, and a line that the block does not drive and that
never shows the wanted level again (R135, R281). -/
def State.hangReason (s : State) : WaitLoop → Bool
  | .sclHigh => s.wlim == 0 && !s.sclDrv && s.scl == ⟨[], false⟩
  | .sdaLow => s.wlim == 0 && !s.sdaDrv && s.sda == ⟨[], true⟩

/-- A machine that hangs does so for the reason R281 gives. -/
def State.hangJustified (s : State) : Bool :=
  match s.seq with
  | .idle => true
  | .waiting _ w => s.hangReason w

/-- STATUS holds one of the codes 0 to 8 (R101, U9). -/
def State.statusLegal (s : State) : Bool := decide (s.status.toNat ≤ 8)

/-- The invariant every step keeps: BUF in its canonical form within its 32 indexes, a legal status
code, and no hang without its reason. -/
def State.Inv (s : State) : Bool := Memory.wf s.buf && s.statusLegal && s.hangJustified

end Sys2Proof.Machine
end

