-- ==== Sys2Proof/Certificates/Slice0/Obligations.lean ====
section
/-! DEFINITION. The statements about the machine, each from the numbered rules of the spec. `tr` and
`new` are the events of a command, newest first; `quiet tr` is them oldest first without the samples
of SCL that showed 0. `s.clockAfter n = some l` says that the next `n` waits for a high clock end, and
`l` is what they leave of the SCL answers. `s.bus …` changes STARTED, the drive latches, the answers
left and the trace, `withBuf` BUF and its marks, and `endCommand` STATUS and the sequencer, so an
equation with them says that everything else stays. The model's own forms that statements speak in:
the environment's answers as data (log 2), a hang as a position of the sequencer (log 3), the
canonical form of BUF (log 5), the marks of written registers (log 6), a command as one transition
(log 1), events newest first (log 10). -/

open Sys2Proof Sys2Proof.Machine

/-! ### Encoding -/

/-- Every command with legal operands is read back from its word (R90 to R95). -/
def Obligations.DecodeEncode : Prop :=
  ∀ i : Instr, i.wellFormed = true → decode (encode i) = .ok i

/-- A word that decodes is the word of what it decodes to, and no other word is (R90, R97). -/
def Obligations.EncodeDecode : Prop :=
  ∀ (c : Half) (i : Instr), decode c = .ok i → encode i = c ∧ i.wellFormed = true

/-- The order of the decoder's tests (R96): the opcode, then the reserved bits, then the length;
what passes all three is the command whose word it is, and what fails one is an illegal command,
which only writes STATUS 8 (and CMD, which holds the word already). -/
def Obligations.DecodeOrder : Prop :=
  ∀ c : Half,
    let badOp := c.toNat < 0x1000 ∨ 0xB000 ≤ c.toNat
    let badBits := c &&& reservedBits c ≠ 0
    let badLen := (opcodeOf c = 5 ∨ opcodeOf c = 6) ∧ 32 < (c.extractLsb' 0 6).toNat
    (badOp → decode c = .error .opcode) ∧
    (¬badOp → badBits → decode c = .error .reserved) ∧
    (¬badOp → ¬badBits → badLen → decode c = .error .length) ∧
    (¬badOp → ¬badBits → ¬badLen → ∃ i, decode c = .ok i ∧ encode i = c) ∧
    (badOp ∨ badBits ∨ badLen → ∀ s : State,
      runWord c s = .next { s with status := 8, seq := .idle })

/-- Words written out from R91 to R95 and the vectors of V10. -/
def Obligations.DecodeWords : Prop :=
  decode 0b0001000000000000 = .ok .init ∧
  decode 0b0010000000000000 = .ok .start ∧
  decode 0b0011000000000000 = .ok .stop ∧
  decode 0b0100000000000010 = .ok (.setmode 2) ∧
  decode 0b0101001100000011 = .ok (.wrb 3 true true) ∧
  decode 0b0101000000100000 = .ok (.wrb 32 false false) ∧
  decode 0b0110000100000010 = .ok (.rdb 2 true false) ∧
  decode 0b0110001000000010 = .ok (.rdb 2 false true) ∧
  decode 0b0111000000000000 = .ok .rdcal ∧
  decode 0b1000000000000000 = .ok .rdt ∧
  decode 0b1001000000000011 = .ok (.rdp 3) ∧
  decode 0b1010000000000000 = .ok .comp ∧
  decode 0b0101000000100001 = .error .length ∧
  decode 0b0101010001000000 = .error .reserved ∧
  decode 0b1011000000000000 = .error .opcode

/-! ### The host port, the step and reset -/

/-- A write to CMD stores the low 16 bits and runs the command they decode to, the access leaving
the queue of host events; bits 31:16 play no part (R63, R90). -/
def Obligations.StepRunsDecoded : Prop :=
  ∀ (s : State) (data : Word) (rest : List HostEvent) (i : Instr),
    s.seq = .idle → s.host = .write 0 data :: rest → decode (data.setWidth 16) = .ok i →
    step s = exec i { s with host := rest, cmd := data.setWidth 16 }

/-- The same through the word placed for the next step (log 11). -/
def Obligations.StepRunsFetchWord : Prop :=
  ∀ (s : State) (w : Nat) (i : Instr), w < 2 ^ 16 → decodeTableWord 16 w = some i →
    step (s.withFetchWord 16 w) = exec i { s with seq := .idle, cmd := BitVec.ofNat 16 w }

/-- An illegal word only records itself in CMD and writes STATUS 8 (R97). -/
def Obligations.IllegalWord : Prop :=
  ∀ (s : State) (data : Word) (rest : List HostEvent) (r : Reject),
    s.seq = .idle → s.host = .write 0 data :: rest → decode (data.setWidth 16) = .error r →
    step s = .next { s with host := rest, cmd := data.setWidth 16, status := 8 }

/-- A host write to any other address keeps the bits the register has there and discards the rest;
a read-only or reserved address keeps none; no other register changes, and nothing but registers
and their marks does (R61, R62, R64). A register written is defined from then on, and every other
one as before (U1, whose marks are the model's own, log 6). -/
def Obligations.HostWrite : Prop :=
  ∀ (s : State) (addr : BitVec 8) (data : Word) (rest : List HostEvent),
    s.seq = .idle → s.host = .write addr data :: rest → addr ≠ 0 → Memory.wf s.buf = true →
    ∃ t, step s = .next t ∧
      (hostBits addr ≠ 0 →
        hostRead addr t = data &&& hostBits addr ∧ readDefined addr t = true) ∧
      (hostBits addr = 0 →
        hostRead addr t = hostRead addr s ∧ readDefined addr t = readDefined addr s) ∧
      (∀ a, a ≠ addr → hostRead a t = hostRead a s ∧ readDefined a t = readDefined a s) ∧
      t = { s with
        host := rest, cal := t.cal, ut := t.ut, up := t.up, oss := t.oss, poff := t.poff,
        wlim := t.wlim, buf := t.buf, written := t.written }

/-- A host read answers the register and has no side effect (R62); that `rdata` keeps the answer is
the model's choice (log 15). -/
def Obligations.HostRead : Prop :=
  ∀ (s : State) (addr : BitVec 8) (rest : List HostEvent),
    s.seq = .idle → s.host = .read addr :: rest →
    step s = .next { s with host := rest, rdata := hostRead addr s }

/-- What stands at each address (R61): whole 32-bit registers, and the others zero-extended (R62). -/
def Obligations.RegisterMap : Prop :=
  ∀ s : State,
    hostRead 0x00 s = s.cmd.setWidth 32 ∧ hostRead 0x01 s = s.status.setWidth 32 ∧
    (hostRead 0x02 s).toNat =
      s.started.toNat + 2 * s.mode.bit.toNat + 4 * s.sclDrv.toNat + 8 * s.sdaDrv.toNat ∧
    hostRead 0x03 s = s.poff ∧ hostRead 0x04 s = s.wlim ∧
    hostRead 0x05 s = s.oss.setWidth 32 ∧ hostRead 0x06 s = s.ut.setWidth 32 ∧
    hostRead 0x07 s = s.up.setWidth 32 ∧ hostRead 0x08 s = s.tt ∧ hostRead 0x09 s = s.tp ∧
    (∀ i : Fin 11, hostRead (BitVec.ofNat 8 (0x10 + i)) s = s.cal[i].setWidth 32) ∧
    (∀ i : Fin 32, hostRead (BitVec.ofNat 8 (0x20 + i)) s = (Memory.read s.buf i).setWidth 32)

/-- Reserved addresses (R64): a read answers 0, a write changes nothing, neither touches STATUS. -/
def Obligations.ReservedAddress : Prop :=
  ∀ (s : State) (addr : BitVec 8) (data : Word) (rest : List HostEvent), s.seq = .idle →
    (0x0A ≤ addr.toNat ∧ addr.toNat ≤ 0x0F ∨ 0x1B ≤ addr.toNat ∧ addr.toNat ≤ 0x1F ∨
      0x40 ≤ addr.toNat) →
    (s.host = .read addr :: rest → step s = .next { s with host := rest, rdata := 0 }) ∧
    (s.host = .write addr data :: rest → step s = .next { s with host := rest })

/-- The values the spec gives for reset (R43). -/
def Obligations.ResetValues : Prop :=
  State.reset.mode = .normal ∧ State.reset.started = false ∧ State.reset.sclDrv = false ∧
  State.reset.sdaDrv = false ∧ State.reset.status = 0 ∧ State.reset.cmd = 0 ∧
  State.reset.poff = 1600 ∧ State.reset.wlim = 0 ∧ State.reset.seq = .idle ∧
  State.reset.flags = 0

/-- The machine after reset meets the invariant. -/
def Obligations.ResetInv : Prop := State.reset.Inv = true

/-- `rst`, at an idle block and in a hang alike: every register the spec gives a reset value takes
it and the sequencer is idle (R300); which of the model's own fields stay is its choice (log 12). -/
def Obligations.ResetEvent : Prop :=
  ∀ (s : State) (rest : List HostEvent), s.host = .reset :: rest →
    ∃ t, step s = .next t ∧ t.mode = .normal ∧ t.started = false ∧ t.sclDrv = false ∧
      t.sdaDrv = false ∧ t.status = 0 ∧ t.cmd = 0 ∧ t.poff = 1600 ∧ t.wlim = 0 ∧ t.seq = .idle ∧
      t.host = rest ∧ t.trace = s.trace ∧ t.cfg = s.cfg

/-- `rst` during a command (R303): its first `k` micro-operations stand, the rest are not executed,
and every register the spec gives a reset value takes it: STATUS 0 and no failure code, both lines
released. A hang has sampled on until the reset came; a command that ended before has done all it
does. Such a reset as one host event is the model's choice (log 12). -/
def Obligations.ResetDuring : Prop :=
  ∀ (s : State) (data : Word) (k : Nat) (rest : List HostEvent) (i : Instr),
    s.seq = .idle → s.host = .resetDuring data k :: rest → decode (data.setWidth 16) = .ok i →
    ∃ u t new, exec i { s with host := rest, cmd := data.setWidth 16 } = .next u ∧
      u.trace = new ++ s.trace ∧ step s = .next t ∧
      (k ≤ new.length → t.trace = (new.reverse.take k).reverse ++ s.trace) ∧
      (u.seq = .idle → new.length ≤ k → t.trace = new ++ s.trace) ∧
      (∀ w, u.seq = .waiting i w → new.length ≤ k →
        t.trace = List.replicate (k - new.length) w.sample ++ new ++ s.trace) ∧
      t.mode = .normal ∧ t.started = false ∧ t.sclDrv = false ∧ t.sdaDrv = false ∧
      t.status = 0 ∧ t.cmd = 0 ∧ t.poff = 1600 ∧ t.wlim = 0 ∧ t.seq = .idle ∧ t.host = rest

/-- An idle block with no host event does nothing (R300). -/
def Obligations.IdleStays : Prop :=
  ∀ s : State, s.seq = .idle → s.host = [] → step s = .next s

/-- A hang goes on for ever: any number of steps only adds samples, STATUS is not written and the
host's accesses stay pending, until the next host event is a reset (R281, R63). -/
def Obligations.HangGoesOn : Prop :=
  ∀ (s : State) (i : Instr) (w : WaitLoop) (n : Nat), s.seq = .waiting i w →
    s.host.head? ≠ some .reset →
    s.after n = some { s with trace := List.replicate n w.sample ++ s.trace }

/-! ### INIT, START, STOP -/

/-- INIT (R140). -/
def Obligations.InitEffect : Prop :=
  encode .init = 0x1000 ∧
  ∀ s : State, exec .init s = .next { s with
    sclDrv := false, sdaDrv := false, status := 0, seq := .idle
    trace := .sdaRel :: .sclRel :: s.trace }

/-- START when every wait ends: the start sequence of the mode, STARTED set, the latches as it
leaves them (R141, R142, R144, R147). -/
def Obligations.StartCompletes : Prop :=
  ∀ (s : State) (l : Line), s.clockAfter (rises (evStart s.cfg s.mode)) = some l →
    ∃ tr, exec .start s =
        .next ((s.bus true (startExit s.cfg s.mode) l s.sda tr).endCommand .ok) ∧
      quiet tr = evStart s.cfg s.mode

/-- START with the clock never stretched, event by event, in either mode (V11, V12; R144). -/
def Obligations.StartUnstretched : Prop :=
  ∀ s : State, s.scl = ⟨[], true⟩ →
    (s.mode = .normal → ∃ t, exec .start s = .next t ∧ t.flags = 0b1101 ∧ t.status = 0 ∧
      t.trace.reverse = s.trace.reverse ++
        [.sdaRel, .dly 1, .sclRel, .sclSample true, .dly 4, .sdaLow, .dly 4, .sclLow, .dly 4]) ∧
    (s.mode = .sensorVariant → s.cfg.variantTail = variantTailDefault →
      ∃ t, exec .start s = .next t ∧ t.flags = 0b0111 ∧ t.status = 0 ∧
      t.trace.reverse = s.trace.reverse ++
        [.sdaRel, .dly 1, .sclRel, .sclSample true, .dly 4, .sdaLow, .dly 4, .sclLow, .dly 4,
         .sclRel, .sclSample true, .dly 4, .sdaRel, .dly 4, .sdaLow, .dly 4, .sclLow, .dly 4,
         .sdaRel])

/-- STOP when its wait ends (R145, R146), whatever the mode. -/
def Obligations.StopCompletes : Prop :=
  ∀ (s : State) (l : Line), s.clockAfter 1 = some l →
    ∃ tr, exec .stop s = .next ((s.bus false (false, false) l s.sda tr).endCommand .ok) ∧
      quiet tr = evStop

/-! ### SETMODE -/

/-- SETMODE (R174): every word, every mode, STARTED either way. -/
def Obligations.SetmodeEffect : Prop :=
  ∀ (m : BitVec 2) (s : State),
    encode (.setmode m) = 0x4000 + m.setWidth 16 ∧
    (s.started = true → exec (.setmode m) s = .next { s with status := 2, seq := .idle }) ∧
    (s.started = false → 2 ≤ m.toNat →
      exec (.setmode m) s = .next { s with status := 3, seq := .idle }) ∧
    (s.started = false → m = 0 →
      exec (.setmode m) s = .next { s with mode := .normal, status := 0, seq := .idle }) ∧
    (s.started = false → m = 1 →
      exec (.setmode m) s = .next { s with mode := .sensorVariant, status := 0, seq := .idle })

/-! ### WRB and RDB -/

/-- WRB when every wait ends, whatever the answers in the acknowledge slots (R170, R171): the events,
the status, STARTED, the latches, one SDA answer used per byte clocked out. -/
def Obligations.WrbCompletes : Prop :=
  ∀ (s : State) (len : BitVec 6) (S P : Bool) (l : Line), len.toNat ≤ 32 →
    let acks := s.sda.peek len.toNat
    let evs := evIf S (evStart s.cfg s.mode) ++
      evBytesOut (bufBytes s.buf len.toNat 0) acks ++ evIf P evStop
    s.clockAfter (rises evs) = some l →
    ∃ tr, exec (.wrb len S P) s =
        .next ((s.bus (!P && (S || s.started)) (writeExit s len.toNat S P) l
          (s.sda.drop (bytesSent acks)) tr).endCommand (writeStatus acks)) ∧
      quiet tr = evs

/-- A NACK at byte `k`, first, middle or last (E2, R273): bytes 0 to `k` are clocked out, no bit of a
later byte is, the stop is still sent when P = 1. -/
def Obligations.WrbNackAt : Prop :=
  ∀ (s : State) (len : BitVec 6) (S P : Bool) (k : Nat) (l : Line), len.toNat ≤ 32 →
    k < len.toNat → s.sda.peek (k + 1) = List.replicate k false ++ [true] →
    let evs := evIf S (evStart s.cfg s.mode) ++
      (bufBytes s.buf k 0).flatMap (fun b => evByteOut b false) ++
      evByteOut (Memory.read s.buf k) true ++ evIf P evStop
    s.clockAfter (rises evs) = some l →
    ∃ tr, exec (.wrb len S P) s =
        .next ((s.bus (!P && (S || s.started)) (if P then (false, false) else (true, false)) l
          (s.sda.drop (k + 1)) tr).endCommand .noAck) ∧
      quiet tr = evs

/-- A NACK at byte `k` whose stop times out is reported as TIMEOUT, and the stop has not been
completed (R283 4, R170): the clock serves the start and bytes 0 to `k`, and then not the one rise of
the stop, whose data line is never released. -/
def Obligations.NackThenTimeout : Prop :=
  ∀ (s : State) (len : BitVec 6) (S : Bool) (k : Nat) (l : Line), len.toNat ≤ 32 →
    k < len.toNat → s.sda.peek (k + 1) = List.replicate k false ++ [true] →
    let evs := evIf S (evStart s.cfg s.mode) ++
      (bufBytes s.buf k 0).flatMap (fun b => evByteOut b false) ++
      evByteOut (Memory.read s.buf k) true
    s.clockAfter (rises evs) = some l → (s.clockWait l).ending = .timeout →
    ∃ tr, exec (.wrb len S true) s =
        .next ((s.bus (S || s.started) (false, true) (s.clockWait l).line (s.sda.drop (k + 1))
          (List.replicate s.wlim.toNat (.sclSample false) ++ tr)).endCommand .timeout) ∧
      quiet tr = evs ++ [.sdaLow, .dly 1, .sclRel]

/-- RDB when every wait ends, in SENSOR_VARIANT mode the one opening wait for data low among them
(R172, R173): the events, the bytes in BUF and their marks, every other byte as before, STARTED, the
latches. -/
def Obligations.RdbCompletes : Prop :=
  ∀ (s : State) (len : BitVec 6) (A P : Bool) (l : Line), len.toNat ≤ 32 →
    s.dataReady = true → Memory.wf s.buf = true →
    let bytes := s.readLine.bytes len.toNat
    let evs := evReady s.sda s.mode ++ evBytesIn A bytes ++ evIf P evStop
    s.clockAfter (rises evs) = some l →
    ∃ b w tr, exec (.rdb len A P) s =
        .next (((s.withBuf b w).bus (!P && s.started) (readExit s len.toNat A P) l
          (s.readLine.drop (8 * len.toNat)) tr).endCommand .ok) ∧
      quiet tr = evs ∧
      (∀ j, Memory.read b j = if j < len.toNat then bytes.getD j 0 else Memory.read s.buf j) ∧
      Memory.wf b = true ∧ w = { s.written with buf := w.buf } ∧
      (∀ j : Fin 32, w.buf[j] = (decide (j.val < len.toNat) || s.written.buf[j]))

/-- A read in SENSOR_VARIANT mode whose data line does not go low (R172, R173 a, R280, R281): with no
limit it hangs, with a limit it takes that many samples and ends with TIMEOUT; nothing is clocked, no
stop sent, BUF as it was. -/
def Obligations.RdbNeverReady : Prop :=
  ∀ (s : State) (len : BitVec 6) (A P : Bool), len.toNat ≤ 32 → s.mode = .sensorVariant →
    (s.dataWait.ending = .timeout → exec (.rdb len A P) s = .next ((s.bus s.started
      (s.sclDrv, false) s.scl s.dataWait.line
      (List.replicate s.wlim.toNat (.sdaSample true) ++ [.sdaRel])).endCommand .timeout)) ∧
    (s.dataWait.ending = .never → exec (.rdb len A P) s = .next { s.bus s.started
      (s.sclDrv, false) s.scl s.dataWait.line
      (List.replicate s.dataWait.samples.length (.sdaSample true) ++ [.sdaRel]) with
        seq := .waiting (.rdb len A P) .sdaLow }) ∧
    (s.sda = ⟨[], true⟩ → s.dataWait.ending = if s.wlim = 0 then .never else .timeout)

/-- A read cut short by a clock that stops after `m` rises, in either mode (R173, R272, R280, R281):
what comes before the next rise has been carried out and no more, so no stop is completed; the bytes
whose eighth bit had been sampled are in BUF and marked, every other byte is as before; under a limit
it ends with TIMEOUT, else it hangs. -/
def Obligations.RdbCutShort : Prop :=
  ∀ (s : State) (len : BitVec 6) (A P : Bool) (m : Nat) (l : Line), len.toNat ≤ 32 →
    s.dataReady = true → Memory.wf s.buf = true →
    let bytes := s.readLine.bytes len.toNat
    let evs := evReady s.sda s.mode ++ evBytesIn A bytes ++ evIf P evStop
    let done := beforeRise m evs
    let r := s.clockWait l
    m < rises evs → s.clockAfter m = some l → r.ending ≠ .seen →
    ∃ b w tr, exec (.rdb len A P) s =
        .next (((s.withBuf b w).bus s.started (pinDrive done s.drv) r.line
          (s.sda.drop (sdaAnswers done).length)
          (List.replicate r.samples.length (.sclSample false) ++ tr)).waitFailed (.rdb len A P)
            .sclHigh r.ending .timeout) ∧
      quiet tr = done ∧
      (∀ j, Memory.read b j =
        if j < len.toNat ∧ j < (m + 1) / 9 then bytes.getD j 0 else Memory.read s.buf j) ∧
      Memory.wf b = true ∧ w = { s.written with buf := w.buf } ∧
      (∀ j : Fin 32, w.buf[j] =
        (decide (j.val < len.toNat ∧ j.val < (m + 1) / 9) || s.written.buf[j]))

/-- A length above 32, which no legal word encodes, ends a transfer at once with ILLEGAL_CMD: the
model's own choice (DEDUCED, log 13). -/
def Obligations.LengthIllegal : Prop :=
  ∀ (s : State) (len : BitVec 6) (f P : Bool), 32 < len.toNat →
    exec (.wrb len f P) s = .next (s.endCommand .illegalCmd) ∧
    exec (.rdb len f P) s = .next (s.endCommand .illegalCmd)

/-! ### RDCAL, RDT, RDP -/

/-- RDCAL when every wait ends and every byte is acknowledged (R202, R210): the eleven words of the
22 bytes received, MODE NORMAL, the bus closed. -/
def Obligations.RdcalCompletes : Prop :=
  ∀ (s : State) (l : Line), s.started = false → (s.sda.peek 3).any id = false →
    let rx := (s.sda.drop 3).bytes 22
    let evs := evAddress 0xAA [false, false, false] ++ evBytesIn false rx ++ evStop
    s.clockAfter (rises evs) = some l →
    ∃ tr, exec .rdcal s = .next
        (((({ s with mode := .normal }).bus false (false, false) l (s.sda.drop 179) tr).setAllCal
          (calWords rx)).endCommand .ok) ∧
      quiet tr = evs

/-- RDT when every wait ends and every byte is acknowledged (R204, R210). -/
def Obligations.RdtCompletes : Prop :=
  ∀ (s : State) (l : Line), s.started = false → (s.sda.peek 6).any id = false →
    let rx := (s.sda.drop 6).bytes 2
    let evs := evConversion 0x2E 5000 (List.replicate 6 false) ++ evBytesIn false rx ++ evStop
    s.clockAfter (rises evs) = some l →
    ∃ tr, exec .rdt s = .next
        (((({ s with mode := .normal }).bus false (false, false) l (s.sda.drop 22) tr).setUt
          (rxByte rx 0 ++ rxByte rx 1)).endCommand .ok) ∧
      quiet tr = evs

/-- RDP when every wait ends and every byte is acknowledged (R205, R210): UP and OSS together, the
same delay for every `oss`. -/
def Obligations.RdpCompletes : Prop :=
  ∀ (s : State) (oss : BitVec 2) (l : Line), s.started = false →
    (s.sda.peek 6).any id = false →
    let rx := (s.sda.drop 6).bytes 3
    let evs := evConversion (BitVec.ofNat 8 (0x34 + 64 * oss.toNat)) 26000
      (List.replicate 6 false) ++ evBytesIn false rx ++ evStop
    s.clockAfter (rises evs) = some l →
    ∃ tr, exec (.rdp oss) s = .next
        ((((({ s with mode := .normal }).bus false (false, false) l (s.sda.drop 30) tr).setUp
          (rawPressure rx oss)).setOss oss).endCommand .ok) ∧
      quiet tr = evs

/-- RDCAL with a byte not acknowledged: I2C_ERROR, nothing stored, the transmission left open (R201,
R208). -/
def Obligations.RdcalNack : Prop :=
  ∀ (s : State) (l : Line), s.started = false → (s.sda.peek 3).any id = true →
    let evs := evAddress 0xAA (s.sda.peek 3)
    s.clockAfter (rises evs) = some l →
    ∃ tr, exec .rdcal s = .next
        ((({ s with mode := .normal }).bus true (true, false) l
          (s.sda.drop (bytesSent (s.sda.peek 3))) tr).endCommand .i2cError) ∧
      quiet tr = evs

/-- RDT and RDP with a byte not acknowledged (R201, R204, R205, R208): I2C_ERROR, nothing stored. A
NACK in the control-register write, slots 0 to 2, comes after its stop has been sent; a later one
leaves the transmission open. No delay after a failed first write. -/
def Obligations.ConversionNack : Prop :=
  ∀ (s : State) (i : Instr) (control : Byte) (us : Nat) (l : Line), s.started = false →
    (s.sda.peek 6).any id = true →
    (i = .rdt ∧ control = 0x2E ∧ us = 5000 ∨
      ∃ oss : BitVec 2, i = .rdp oss ∧ control = BitVec.ofNat 8 (0x34 + 64 * oss.toNat) ∧
        us = 26000) →
    let evs := evConversion control us (s.sda.peek 6)
    s.clockAfter (rises evs) = some l →
    ∃ tr, exec i s = .next
        ((({ s with mode := .normal }).bus (!(s.sda.peek 3).any id)
          (!(s.sda.peek 3).any id, false) l (s.sda.drop (bytesSent (s.sda.peek 6)))
          tr).endCommand .i2cError) ∧
      quiet tr = evs

/-- The register commands in an open transmission (R277): MODE_CHANGE_ERROR and nothing on the
bus. -/
def Obligations.ModeChangeError : Prop :=
  ∀ (s : State) (i : Instr), s.started = true → (i = .rdcal ∨ i = .rdt ∨ ∃ oss, i = .rdp oss) →
    exec i s = .next { s with status := 5, seq := .idle }

/-- The register commands on a clock held low from the start (R201, R280, R281): with a limit,
I2C_ERROR after that many samples; with none, a hang. -/
def Obligations.RegisterStuckClock : Prop :=
  ∀ (s : State) (i : Instr), s.started = false → (i = .rdcal ∨ i = .rdt ∨ ∃ oss, i = .rdp oss) →
    s.scl = ⟨[], false⟩ →
    (s.wlim ≠ 0 → exec i s = .next ((({ s with mode := .normal }).bus true (false, false) s.scl
      s.sda (List.replicate s.wlim.toNat (Event.sclSample false) ++
        [Event.sclRel, .dly 1, .sdaRel])).endCommand .i2cError)) ∧
    (s.wlim = 0 → exec i s = .next { ({ s with mode := .normal }).bus true (false, false) s.scl
      s.sda [.sclRel, .dly 1, .sdaRel] with seq := .waiting i .sclHigh })

/-- START, STOP, WRB and RDB on a clock held low from the start (R135, R280, R281): with a limit,
TIMEOUT after that many samples, SCL released, SDA as last set, no stop sent; with none, a hang. -/
def Obligations.TransportStuckClock : Prop :=
  ∀ (s : State) (i : Instr) (st : Bool) (e : Event), i.wellFormed = true →
    opening i s = some (st, e) → s.scl = ⟨[], false⟩ →
    (s.wlim ≠ 0 → exec i s = .next ((s.bus st (false, e == .sdaLow) s.scl s.sda
      (List.replicate s.wlim.toNat (.sclSample false) ++
        [.sclRel, .dly 1, e])).endCommand .timeout)) ∧
    (s.wlim = 0 → exec i s = .next { s.bus st (false, e == .sdaLow) s.scl s.sda
      [.sclRel, .dly 1, e] with seq := .waiting i .sclHigh })

/-- The calibration words of 22 received bytes, first byte most significant (R70, R203). -/
def Obligations.CalibrationWords : Prop :=
  (∀ (rx : List Byte) (i : Fin 11), rx.length = 22 →
    (calWords rx)[i].toNat =
      (rx.getD (2 * i) 0).toNat * 256 + (rx.getD (2 * i + 1) 0).toNat) ∧
  rxWord [0x01, 0x98, 0xFF, 0xB8] 0 = 408 ∧ (rxWord [0x01, 0x98, 0xFF, 0xB8] 1).toInt = -72

/-- The raw pressure of three received bytes (R206), with the rule's examples. -/
def Obligations.RawPressure : Prop :=
  (∀ (a b c : Byte) (oss : BitVec 2),
    (rawPressure [a, b, c] oss).toNat =
      (a.toNat * 65536 + b.toNat * 256 + c.toNat) / 2 ^ (8 - oss.toNat) ∧
    (rawPressure [a, b, c] oss).toNat < 2 ^ (16 + oss.toNat)) ∧
  rawPressure [0xFF, 0xFF, 0xFF] 3 = 524287 ∧ rawPressure [0xFF, 0xFF, 0xFF] 0 = 65535 ∧
  rawPressure [0x5D, 0x23, 0xA0] 2 = 95374

/-- Least durations of the events of a command whose waits end and whose bytes are acknowledged, and
the one conversion delay of RDT and RDP (R331, E5). -/
def Obligations.Durations : Prop :=
  ∀ s : State,
    (s.mode = .normal → waitsEnd .start s = true →
      ∃ t new, exec .start s = .next t ∧ t.trace = new ++ s.trace ∧ durationUs new = 13) ∧
    (waitsEnd .stop s = true →
      ∃ t new, exec .stop s = .next t ∧ t.trace = new ++ s.trace ∧ durationUs new = 9) ∧
    (s.started = false → (s.sda.peek 3).any id = false → waitsEnd .rdcal s = true →
      ∃ t new, exec .rdcal s = .next t ∧ t.trace = new ++ s.trace ∧ durationUs new = 2060) ∧
    (s.started = false → (s.sda.peek 6).any id = false → waitsEnd .rdt s = true →
      ∃ t new, exec .rdt s = .next t ∧ t.trace = new ++ s.trace ∧ durationUs new = 5705 ∧
        new.count (.dly 5000) = 1) ∧
    (∀ oss, s.started = false → (s.sda.peek 6).any id = false → waitsEnd (.rdp oss) s = true →
      ∃ t new, exec (.rdp oss) s = .next t ∧ t.trace = new ++ s.trace ∧ durationUs new = 26786 ∧
        new.count (.dly 26000) = 1)

/-! ### COMP -/

/-- COMP is the rules R233 to R252 over the integers, narrowed to 32 bits: from every state it ends
with TT and TP written together, or with ARITH_FAULT, and changes nothing else. -/
def Obligations.CompIsTheRules : Prop :=
  ∀ s : State, exec .comp s = .next
    (if refDen s = 0 ∨ refB4 s = 0 then s.endCommand .arithFault
    else (s.setResults (BitVec.ofInt 32 (refT s)) (BitVec.ofInt 32 (refTp s))).endCommand .ok)

/-- ARITH_FAULT for a zero divisor and for nothing else; TT and TP stay (R254). -/
def Obligations.CompFault : Prop :=
  ∀ s : State,
    (refDen s = 0 ∨ refB4 s = 0 → exec .comp s = .next { s with status := 7, seq := .idle }) ∧
    (¬(refDen s = 0 ∨ refB4 s = 0) → ∃ t, exec .comp s = .next t ∧ t.status = 0) ∧
    (refB4 s = 0 ↔ u32 (s.cal[3].toNat * u32 (refX3' s + 32768)) < 32768) ∧
    (s.cal[3] = 0 → refB4 s = 0)

/-- The source's worked example E1 (conflict C3): TT = 150 and TP = 69964 + POFF, under either
rounding. -/
def Obligations.CompExample : Prop :=
  ∀ s : State, s.ut = 27898 → s.up = 23843 → s.oss = 0 →
    s.cal = #v[0x0198, 0xFFB8, 0xC7D1, 0x7FE5, 0x7FF5, 0x5A71, 0x182E, 0x0004, 0x8000, 0xDDF9,
      0x0B34] →
    exec .comp s = .next ((s.setResults 150 (69964 + s.poff)).endCommand .ok)

/-- COMP depends on UT, UP, OSS, POFF, the rounding and the coefficients other than MB alone (R230,
R256): bus, mode, buffer and history play no part. -/
def Obligations.CompPure : Prop :=
  ∀ s s' : State, s.ut = s'.ut → s.up = s'.up → s.oss = s'.oss → s.poff = s'.poff →
    s.cfg.divRound = s'.cfg.divRound → (∀ i : Fin 11, i ≠ 8 → s.cal[i] = s'.cal[i]) →
    ∃ t t', exec .comp s = .next t ∧ exec .comp s' = .next t' ∧ t.status = t'.status ∧
      (t.status = 0 → t.tt = t'.tt ∧ t.tp = t'.tp)

/-! ### The whole machine -/

/-- The wait loops (R135): how many samples one takes and how it ends, for every limit and every
answers of the environment; a level that the line shows, within the limit if there is one, is
seen (U3). -/
def Obligations.WaitLoopEnds : Prop :=
  ∀ (want : Bool) (limit : Nat) (l : Line),
    let r := waitOn want limit false l
    (r.ending = .seen → ∃ k, r.samples = List.replicate k (!want) ++ [want] ∧
      (limit ≠ 0 → k < limit)) ∧
    (r.ending = .timeout → limit ≠ 0 ∧ r.samples = List.replicate limit (!want)) ∧
    (r.ending = .never → limit = 0 ∧ ∀ n, l.peek n = List.replicate n (!want)) ∧
    (∀ n, limit = 0 ∨ n ≤ limit → want ∈ l.peek n → r.ending = .seen) ∧
    (l.next.1 = want → r.ending = .seen ∧ r.samples = [want])

/-- Who writes what (R44), for every command from every state, however it ends. -/
def Obligations.Writers : Prop :=
  ∀ (i : Instr) (s t : State), exec i s = .next t →
    (t.cal ≠ s.cal → i = .rdcal ∧ t.status = 0 ∧ t.seq = .idle) ∧
    (t.ut ≠ s.ut → i = .rdt ∧ t.status = 0 ∧ t.seq = .idle) ∧
    (t.up ≠ s.up ∨ t.oss ≠ s.oss → i = .rdp t.oss ∧ t.status = 0 ∧ t.seq = .idle) ∧
    (t.tt ≠ s.tt ∨ t.tp ≠ s.tp → i = .comp ∧ t.status = 0) ∧
    (t.mode ≠ s.mode → s.started = false ∧
      ((∃ m, i = .setmode m ∧ t.status = 0) ∨ i = .rdcal ∨ i = .rdt ∨ ∃ oss, i = .rdp oss)) ∧
    (t.started = true → s.started = false → canStart i = true) ∧
    (t.started = false → s.started = true → canStop i = true) ∧
    ((i = .comp ∨ ∃ m, i = .setmode m) → t.trace = s.trace ∧ t.drv = s.drv) ∧
    (t.seq ≠ .idle → t.status = s.status) ∧
    t.poff = s.poff ∧ t.wlim = s.wlim ∧ t.cmd = s.cmd ∧ t.cfg = s.cfg ∧ t.host = s.host ∧
    t.rdata = s.rdata

/-- Only RDB writes BUF, and only its first `len` bytes (R65, R173), however the command ends. -/
def Obligations.BufWrites : Prop :=
  ∀ (i : Instr) (s t : State), Memory.wf s.buf = true → exec i s = .next t →
    (∀ j, bufBound i ≤ j → Memory.read t.buf j = Memory.read s.buf j) ∧
    ((∀ len A P, i ≠ .rdb len A P) → t.buf = s.buf)

/-- The mode is locked while a transmission is open (R20, R310): no command and no host access
changes MODE while STARTED = 1; only reset does. -/
def Obligations.ModeLocked : Prop :=
  ∀ (s t : State), s.started = true → s.host.head? ≠ some .reset →
    (∀ data k, s.host.head? ≠ some (.resetDuring data k)) → step s = .next t → t.mode = s.mode

/-- The statuses a command ends with (R101, R271); TIMEOUT only when WLIM is not 0 (R280). -/
def Obligations.StatusCodes : Prop :=
  ∀ (i : Instr) (s t : State), exec i s = .next t → t.seq = .idle →
    t.status ∈ (statuses i s).map Status.code

/-- With WLIM not 0 every command ends, whatever the environment answers (R280, R320). -/
def Obligations.LimitEnds : Prop :=
  ∀ (i : Instr) (s : State), s.wlim ≠ 0 → ∃ t, exec i s = .next t ∧ t.seq = .idle

/-- When each of its waits ends a command ends, not with TIMEOUT, and its events are those its
procedures list; and with no limit every line that shows the wanted level again and again, as U3
asks, makes the waits end (U3, R281). -/
def Obligations.ServedEnds : Prop :=
  (∀ (i : Instr) (s : State), waitsEnd i s = true →
    ∃ t new, exec i s = .next t ∧ t.seq = .idle ∧ t.status ≠ 6 ∧ t.trace = new ++ s.trace ∧
      quiet new = busEvents i s) ∧
  (∀ (i : Instr) (s : State), s.wlim = 0 → s.scl.rest = true →
    (s.mode = .sensorVariant → ∃ n, false ∈ s.sda.peek n) → waitsEnd i s = true)

/-- A command hangs only with WLIM = 0 on a line it has released and that never shows the wanted
level again (R281). -/
def Obligations.HangsOnlyUnbounded : Prop :=
  ∀ (i running : Instr) (s t : State) (w : WaitLoop), exec i s = .next t →
    t.seq = .waiting running w →
    running = i ∧ s.wlim = 0 ∧
      (w = .sclHigh → t.sclDrv = false ∧ ∀ n, t.scl.peek n = List.replicate n false) ∧
      (w = .sdaLow → t.sdaDrv = false ∧ ∀ n, t.sda.peek n = List.replicate n true)

/-- Each sample is one answer of the environment, and no answer is lost or made up (R133). -/
def Obligations.SamplesAreAnswers : Prop :=
  ∀ (i : Instr) (s t : State), exec i s = .next t →
    ∃ new, t.trace = new ++ s.trace ∧
      sclAnswers new.reverse = s.scl.peek (sclAnswers new.reverse).length ∧
      t.scl = s.scl.drop (sclAnswers new.reverse).length ∧
      sdaAnswers new.reverse = s.sda.peek (sdaAnswers new.reverse).length ∧
      t.sda = s.sda.drop (sdaAnswers new.reverse).length

/-- The drive latches are what the pin micro-operations of the trace made them, nothing else writes
them (R22, R130). -/
def Obligations.LatchesFollowTrace : Prop :=
  ∀ (i : Instr) (s t : State), exec i s = .next t →
    ∃ new, t.trace = new ++ s.trace ∧ t.drv = pinDrive new.reverse s.drv

/-- Every rising edge of the clock is a `ClockUp()` (R137): but for INIT and a VARIANT_TAIL that
releases SCL by itself, a command waits for a high clock after each release before anything else. -/
def Obligations.ClockDiscipline : Prop :=
  ∀ (i : Instr) (s t : State), i ≠ .init → .releaseScl ∉ s.cfg.variantTail → exec i s = .next t →
    ∃ new, t.trace = new ++ s.trace ∧ clockDiscipline new.reverse = true

/-- The invariant: every step of every kind keeps BUF in its canonical form within 32 bytes, STATUS
a code of R101, and every hang justified (R35, R101, R281). -/
def Obligations.StepInv : Prop :=
  ∀ s t : State, s.Inv = true → step s = .next t → t.Inv = true

/-! ### Clocks that stop, and undefined registers -/

/-- Any other command whose clock stops after `m` of its rises (R135, R201, R272, R280, R281): what
comes before the next rise has been carried out and no more, so no stop after it is sent, and STARTED
is 1 once a start has begun; BUF and the result registers are as before. Under a limit the command
ends with TIMEOUT, RDCAL, RDT and RDP with I2C_ERROR; without one it hangs. -/
def Obligations.ClockStops : Prop :=
  ∀ (i : Instr) (s : State) (m : Nat) (l : Line), (∀ len A P, i ≠ .rdb len A P) →
    let done := beforeRise m (busEvents i s)
    let r := s.clockWait l
    m < rises (busEvents i s) → s.clockAfter m = some l → r.ending ≠ .seen →
    ∃ tr, exec i s =
        .next ((({ s with mode := if isRegisterCommand i then .normal else s.mode }).bus
          (s.started || canStart i) (pinDrive done s.drv) r.line
          (s.sda.drop (sdaAnswers done).length)
          (List.replicate r.samples.length (Event.sclSample false) ++ tr)).waitFailed i .sclHigh r.ending
            (if isRegisterCommand i then .i2cError else .timeout)) ∧
      quiet tr = done

/-- A step that uses no register which nothing has written since reset does the same whatever such
registers hold (U1, R43): two states that differ in them alone go to two states that differ in them
alone. What is marked as written is the model's own bookkeeping (log 6). -/
def Obligations.DefinedStep : Prop :=
  ∀ s s' : State, s.sameDefined s' → Memory.wf s.buf = true → Memory.wf s'.buf = true →
    s.stepDefined = true →
    ∃ t t', step s = .next t ∧ step s' = .next t' ∧ t.sameDefined t'
end

