-- ==== Sys2Proof/Laws/Memory.lean ====
section
/-! SUPPORT. BUF as memory: a read after a write, and that a write keeps the canonical form. -/

namespace Sys2Proof.Machine

/-- The canonical form of a list with a first cell. -/
theorem Memory.wf_cons (a : Nat) (v : Byte) (m : Memory) :
    Memory.wf ((a, v) :: m) = true ↔
      a < bufSize ∧ v ≠ unlistedByte ∧ (∀ c ∈ m, a < c.1) ∧ Memory.wf m = true := by
  simp only [Memory.wf, Bool.and_eq_true, decide_eq_true_eq, List.all_eq_true, and_assoc]

/-- An index below every cell is unlisted. -/
theorem Memory.read_below (m : Memory) (j : Nat) (h : ∀ c ∈ m, j < c.1) :
    Memory.read m j = unlistedByte := by
  induction m with
  | nil => rfl
  | cons d m ih =>
    have hd := h d List.mem_cons_self
    rw [Memory.read, if_neg (by omega), ih fun c hc => h c (List.mem_cons_of_mem _ hc)]

/-- A read after a write gives the value written at that index and the old value elsewhere. -/
theorem Memory.read_write (m : Memory) (a b : Nat) (v : Byte) (h : Memory.wf m = true) :
    Memory.read (Memory.write m a v) b = if b = a then v else Memory.read m b := by
  induction m with
  | nil =>
    by_cases hv : v = unlistedByte <;> by_cases hb : a = b
    all_goals simp only [Memory.write, Memory.read, hv, hb, if_true, if_false, ite_self, eq_comm]
  | cons c m ih =>
    obtain ⟨i, w⟩ := c
    obtain ⟨-, -, hall, hm⟩ := (Memory.wf_cons i w m).mp h
    have below : ∀ j, j ≤ i → Memory.read m j = unlistedByte := fun j hj =>
      Memory.read_below m j fun c hc => lt_of_le_of_lt hj (hall c hc)
    rw [Memory.write]
    by_cases hlt : a < i
    · rw [if_pos hlt]
      by_cases hv : v = unlistedByte
      · rw [if_pos hv]
        by_cases hb : b = a
        · rw [if_pos hb, Memory.read, if_neg (by omega), below b (by omega), hv]
        · rw [if_neg hb]
      · rw [if_neg hv, Memory.read]
        by_cases hb : b = a
        · rw [if_pos hb.symm, if_pos hb]
        · rw [if_neg (Ne.symm hb), if_neg hb]
    · rw [if_neg hlt]
      by_cases hai : a = i
      · rw [if_pos hai]
        by_cases hv : v = unlistedByte
        · rw [if_pos hv]
          by_cases hb : b = a
          · rw [if_pos hb, below b (by omega), hv]
          · rw [if_neg hb, Memory.read, if_neg (by omega)]
        · rw [if_neg hv, Memory.read]
          by_cases hb : b = a
          · rw [if_pos hb.symm, if_pos hb]
          · rw [if_neg (Ne.symm hb), if_neg hb, Memory.read, if_neg (by omega)]
      · rw [if_neg hai, Memory.read, Memory.read]
        by_cases hb : i = b
        · rw [if_pos hb, if_pos hb, if_neg (by omega)]
        · rw [if_neg hb, if_neg hb, ih hm]

/-- The cells after a write stand at the written index or stood before. -/
theorem Memory.mem_write (m : Memory) (a : Nat) (v : Byte) (c : Host.Cell)
    (h : c ∈ Memory.write m a v) : c.1 = a ∨ c ∈ m := by
  induction m with
  | nil =>
    rw [Memory.write] at h
    split at h
    · exact absurd h List.not_mem_nil
    · exact .inl (by rw [List.mem_singleton.mp h])
  | cons d m ih =>
    obtain ⟨i, w⟩ := d
    rw [Memory.write] at h
    split at h
    · split at h
      · exact .inr h
      · rcases List.mem_cons.mp h with rfl | h
        · exact .inl rfl
        · exact .inr h
    · split at h
      · split at h
        · exact .inr (List.mem_cons_of_mem _ h)
        · rcases List.mem_cons.mp h with rfl | h
          · exact .inl rfl
          · exact .inr (List.mem_cons_of_mem _ h)
      · rcases List.mem_cons.mp h with rfl | h
        · exact .inr List.mem_cons_self
        · exact (ih h).imp_right (List.mem_cons_of_mem _)

/-- A write within BUF keeps the canonical form. -/
theorem Memory.write_wf (m : Memory) (a : Nat) (v : Byte) (ha : a < bufSize)
    (h : Memory.wf m = true) : Memory.wf (Memory.write m a v) = true := by
  induction m with
  | nil =>
    rw [Memory.write]
    split
    · rfl
    · exact (Memory.wf_cons a v []).mpr ⟨ha, ‹_›, by simp, rfl⟩
  | cons c m ih =>
    obtain ⟨i, w⟩ := c
    obtain ⟨hi, hw, hall, hm⟩ := (Memory.wf_cons i w m).mp h
    rw [Memory.write]
    split
    · split
      · exact h
      · refine (Memory.wf_cons a v _).mpr ⟨ha, ‹_›, fun c hc => ?_, h⟩
        rcases List.mem_cons.mp hc with rfl | hc
        · assumption
        · exact lt_trans ‹a < i› (hall c hc)
    · split
      · subst_vars
        split
        · exact hm
        · exact (Memory.wf_cons _ v m).mpr ⟨ha, ‹_›, hall, hm⟩
      · refine (Memory.wf_cons i w _).mpr ⟨hi, hw, fun c hc => ?_, ih hm⟩
        rcases Memory.mem_write m a v c hc with h | h
        · omega
        · exact hall c h

/-- Writing BUF at an index keeps the canonical form. -/
theorem State.setBuf_wf (s : State) (i : Nat) (v : Byte) (hi : i < bufSize)
    (h : Memory.wf s.buf = true) : Memory.wf (s.setBuf i v).buf = true :=
  Memory.write_wf s.buf i v hi h

/-- BUF after reset is in canonical form. -/
theorem State.reset_buf_wf : Memory.wf State.reset.buf = true := rfl

end Sys2Proof.Machine
end

