-- ==== Sys2Proof/Laws/State.lean ====
section
/-! SUPPORT. For every update of the state and every field, what the field is afterwards (true by
rfl), so that no proof unfolds a record update. -/

namespace Sys2Proof.Machine

/-! ### setBuf -/

section
variable (s : State) (i : Nat) (v : Byte)

@[simp] theorem State.setBuf_mode : (s.setBuf i v).mode = s.mode := rfl
@[simp] theorem State.setBuf_started : (s.setBuf i v).started = s.started := rfl
@[simp] theorem State.setBuf_sclDrv : (s.setBuf i v).sclDrv = s.sclDrv := rfl
@[simp] theorem State.setBuf_sdaDrv : (s.setBuf i v).sdaDrv = s.sdaDrv := rfl
@[simp] theorem State.setBuf_cal : (s.setBuf i v).cal = s.cal := rfl
@[simp] theorem State.setBuf_ut : (s.setBuf i v).ut = s.ut := rfl
@[simp] theorem State.setBuf_up : (s.setBuf i v).up = s.up := rfl
@[simp] theorem State.setBuf_oss : (s.setBuf i v).oss = s.oss := rfl
@[simp] theorem State.setBuf_tt : (s.setBuf i v).tt = s.tt := rfl
@[simp] theorem State.setBuf_tp : (s.setBuf i v).tp = s.tp := rfl
@[simp] theorem State.setBuf_poff : (s.setBuf i v).poff = s.poff := rfl
@[simp] theorem State.setBuf_wlim : (s.setBuf i v).wlim = s.wlim := rfl
@[simp] theorem State.setBuf_status : (s.setBuf i v).status = s.status := rfl
@[simp] theorem State.setBuf_cmd : (s.setBuf i v).cmd = s.cmd := rfl
@[simp] theorem State.setBuf_buf : (s.setBuf i v).buf = Memory.write s.buf i v := rfl
@[simp] theorem State.setBuf_seq : (s.setBuf i v).seq = s.seq := rfl
@[simp] theorem State.setBuf_written : (s.setBuf i v).written = { s.written with buf := s.written.buf.setIfInBounds i true } := rfl
@[simp] theorem State.setBuf_cfg : (s.setBuf i v).cfg = s.cfg := rfl
@[simp] theorem State.setBuf_scl : (s.setBuf i v).scl = s.scl := rfl
@[simp] theorem State.setBuf_sda : (s.setBuf i v).sda = s.sda := rfl
@[simp] theorem State.setBuf_trace : (s.setBuf i v).trace = s.trace := rfl
@[simp] theorem State.setBuf_host : (s.setBuf i v).host = s.host := rfl
@[simp] theorem State.setBuf_rdata : (s.setBuf i v).rdata = s.rdata := rfl

end

/-! ### setCal -/

section
variable (s : State) (i : Nat) (v : Half)

@[simp] theorem State.setCal_mode : (s.setCal i v).mode = s.mode := rfl
@[simp] theorem State.setCal_started : (s.setCal i v).started = s.started := rfl
@[simp] theorem State.setCal_sclDrv : (s.setCal i v).sclDrv = s.sclDrv := rfl
@[simp] theorem State.setCal_sdaDrv : (s.setCal i v).sdaDrv = s.sdaDrv := rfl
@[simp] theorem State.setCal_cal : (s.setCal i v).cal = s.cal.setIfInBounds i v := rfl
@[simp] theorem State.setCal_ut : (s.setCal i v).ut = s.ut := rfl
@[simp] theorem State.setCal_up : (s.setCal i v).up = s.up := rfl
@[simp] theorem State.setCal_oss : (s.setCal i v).oss = s.oss := rfl
@[simp] theorem State.setCal_tt : (s.setCal i v).tt = s.tt := rfl
@[simp] theorem State.setCal_tp : (s.setCal i v).tp = s.tp := rfl
@[simp] theorem State.setCal_poff : (s.setCal i v).poff = s.poff := rfl
@[simp] theorem State.setCal_wlim : (s.setCal i v).wlim = s.wlim := rfl
@[simp] theorem State.setCal_status : (s.setCal i v).status = s.status := rfl
@[simp] theorem State.setCal_cmd : (s.setCal i v).cmd = s.cmd := rfl
@[simp] theorem State.setCal_buf : (s.setCal i v).buf = s.buf := rfl
@[simp] theorem State.setCal_seq : (s.setCal i v).seq = s.seq := rfl
@[simp] theorem State.setCal_written : (s.setCal i v).written = { s.written with cal := s.written.cal.setIfInBounds i true } := rfl
@[simp] theorem State.setCal_cfg : (s.setCal i v).cfg = s.cfg := rfl
@[simp] theorem State.setCal_scl : (s.setCal i v).scl = s.scl := rfl
@[simp] theorem State.setCal_sda : (s.setCal i v).sda = s.sda := rfl
@[simp] theorem State.setCal_trace : (s.setCal i v).trace = s.trace := rfl
@[simp] theorem State.setCal_host : (s.setCal i v).host = s.host := rfl
@[simp] theorem State.setCal_rdata : (s.setCal i v).rdata = s.rdata := rfl

end

/-! ### setAllCal -/

section
variable (s : State) (c : Vector Half 11)

@[simp] theorem State.setAllCal_mode : (s.setAllCal c).mode = s.mode := rfl
@[simp] theorem State.setAllCal_started : (s.setAllCal c).started = s.started := rfl
@[simp] theorem State.setAllCal_sclDrv : (s.setAllCal c).sclDrv = s.sclDrv := rfl
@[simp] theorem State.setAllCal_sdaDrv : (s.setAllCal c).sdaDrv = s.sdaDrv := rfl
@[simp] theorem State.setAllCal_cal : (s.setAllCal c).cal = c := rfl
@[simp] theorem State.setAllCal_ut : (s.setAllCal c).ut = s.ut := rfl
@[simp] theorem State.setAllCal_up : (s.setAllCal c).up = s.up := rfl
@[simp] theorem State.setAllCal_oss : (s.setAllCal c).oss = s.oss := rfl
@[simp] theorem State.setAllCal_tt : (s.setAllCal c).tt = s.tt := rfl
@[simp] theorem State.setAllCal_tp : (s.setAllCal c).tp = s.tp := rfl
@[simp] theorem State.setAllCal_poff : (s.setAllCal c).poff = s.poff := rfl
@[simp] theorem State.setAllCal_wlim : (s.setAllCal c).wlim = s.wlim := rfl
@[simp] theorem State.setAllCal_status : (s.setAllCal c).status = s.status := rfl
@[simp] theorem State.setAllCal_cmd : (s.setAllCal c).cmd = s.cmd := rfl
@[simp] theorem State.setAllCal_buf : (s.setAllCal c).buf = s.buf := rfl
@[simp] theorem State.setAllCal_seq : (s.setAllCal c).seq = s.seq := rfl
@[simp] theorem State.setAllCal_written : (s.setAllCal c).written = { s.written with cal := Vector.replicate 11 true } := rfl
@[simp] theorem State.setAllCal_cfg : (s.setAllCal c).cfg = s.cfg := rfl
@[simp] theorem State.setAllCal_scl : (s.setAllCal c).scl = s.scl := rfl
@[simp] theorem State.setAllCal_sda : (s.setAllCal c).sda = s.sda := rfl
@[simp] theorem State.setAllCal_trace : (s.setAllCal c).trace = s.trace := rfl
@[simp] theorem State.setAllCal_host : (s.setAllCal c).host = s.host := rfl
@[simp] theorem State.setAllCal_rdata : (s.setAllCal c).rdata = s.rdata := rfl

end

/-! ### setUt -/

section
variable (s : State) (v : BitVec 16)

@[simp] theorem State.setUt_mode : (s.setUt v).mode = s.mode := rfl
@[simp] theorem State.setUt_started : (s.setUt v).started = s.started := rfl
@[simp] theorem State.setUt_sclDrv : (s.setUt v).sclDrv = s.sclDrv := rfl
@[simp] theorem State.setUt_sdaDrv : (s.setUt v).sdaDrv = s.sdaDrv := rfl
@[simp] theorem State.setUt_cal : (s.setUt v).cal = s.cal := rfl
@[simp] theorem State.setUt_ut : (s.setUt v).ut = v := rfl
@[simp] theorem State.setUt_up : (s.setUt v).up = s.up := rfl
@[simp] theorem State.setUt_oss : (s.setUt v).oss = s.oss := rfl
@[simp] theorem State.setUt_tt : (s.setUt v).tt = s.tt := rfl
@[simp] theorem State.setUt_tp : (s.setUt v).tp = s.tp := rfl
@[simp] theorem State.setUt_poff : (s.setUt v).poff = s.poff := rfl
@[simp] theorem State.setUt_wlim : (s.setUt v).wlim = s.wlim := rfl
@[simp] theorem State.setUt_status : (s.setUt v).status = s.status := rfl
@[simp] theorem State.setUt_cmd : (s.setUt v).cmd = s.cmd := rfl
@[simp] theorem State.setUt_buf : (s.setUt v).buf = s.buf := rfl
@[simp] theorem State.setUt_seq : (s.setUt v).seq = s.seq := rfl
@[simp] theorem State.setUt_written : (s.setUt v).written = { s.written with ut := true } := rfl
@[simp] theorem State.setUt_cfg : (s.setUt v).cfg = s.cfg := rfl
@[simp] theorem State.setUt_scl : (s.setUt v).scl = s.scl := rfl
@[simp] theorem State.setUt_sda : (s.setUt v).sda = s.sda := rfl
@[simp] theorem State.setUt_trace : (s.setUt v).trace = s.trace := rfl
@[simp] theorem State.setUt_host : (s.setUt v).host = s.host := rfl
@[simp] theorem State.setUt_rdata : (s.setUt v).rdata = s.rdata := rfl

end

/-! ### setUp -/

section
variable (s : State) (v : BitVec 19)

@[simp] theorem State.setUp_mode : (s.setUp v).mode = s.mode := rfl
@[simp] theorem State.setUp_started : (s.setUp v).started = s.started := rfl
@[simp] theorem State.setUp_sclDrv : (s.setUp v).sclDrv = s.sclDrv := rfl
@[simp] theorem State.setUp_sdaDrv : (s.setUp v).sdaDrv = s.sdaDrv := rfl
@[simp] theorem State.setUp_cal : (s.setUp v).cal = s.cal := rfl
@[simp] theorem State.setUp_ut : (s.setUp v).ut = s.ut := rfl
@[simp] theorem State.setUp_up : (s.setUp v).up = v := rfl
@[simp] theorem State.setUp_oss : (s.setUp v).oss = s.oss := rfl
@[simp] theorem State.setUp_tt : (s.setUp v).tt = s.tt := rfl
@[simp] theorem State.setUp_tp : (s.setUp v).tp = s.tp := rfl
@[simp] theorem State.setUp_poff : (s.setUp v).poff = s.poff := rfl
@[simp] theorem State.setUp_wlim : (s.setUp v).wlim = s.wlim := rfl
@[simp] theorem State.setUp_status : (s.setUp v).status = s.status := rfl
@[simp] theorem State.setUp_cmd : (s.setUp v).cmd = s.cmd := rfl
@[simp] theorem State.setUp_buf : (s.setUp v).buf = s.buf := rfl
@[simp] theorem State.setUp_seq : (s.setUp v).seq = s.seq := rfl
@[simp] theorem State.setUp_written : (s.setUp v).written = { s.written with up := true } := rfl
@[simp] theorem State.setUp_cfg : (s.setUp v).cfg = s.cfg := rfl
@[simp] theorem State.setUp_scl : (s.setUp v).scl = s.scl := rfl
@[simp] theorem State.setUp_sda : (s.setUp v).sda = s.sda := rfl
@[simp] theorem State.setUp_trace : (s.setUp v).trace = s.trace := rfl
@[simp] theorem State.setUp_host : (s.setUp v).host = s.host := rfl
@[simp] theorem State.setUp_rdata : (s.setUp v).rdata = s.rdata := rfl

end

/-! ### setOss -/

section
variable (s : State) (v : BitVec 2)

@[simp] theorem State.setOss_mode : (s.setOss v).mode = s.mode := rfl
@[simp] theorem State.setOss_started : (s.setOss v).started = s.started := rfl
@[simp] theorem State.setOss_sclDrv : (s.setOss v).sclDrv = s.sclDrv := rfl
@[simp] theorem State.setOss_sdaDrv : (s.setOss v).sdaDrv = s.sdaDrv := rfl
@[simp] theorem State.setOss_cal : (s.setOss v).cal = s.cal := rfl
@[simp] theorem State.setOss_ut : (s.setOss v).ut = s.ut := rfl
@[simp] theorem State.setOss_up : (s.setOss v).up = s.up := rfl
@[simp] theorem State.setOss_oss : (s.setOss v).oss = v := rfl
@[simp] theorem State.setOss_tt : (s.setOss v).tt = s.tt := rfl
@[simp] theorem State.setOss_tp : (s.setOss v).tp = s.tp := rfl
@[simp] theorem State.setOss_poff : (s.setOss v).poff = s.poff := rfl
@[simp] theorem State.setOss_wlim : (s.setOss v).wlim = s.wlim := rfl
@[simp] theorem State.setOss_status : (s.setOss v).status = s.status := rfl
@[simp] theorem State.setOss_cmd : (s.setOss v).cmd = s.cmd := rfl
@[simp] theorem State.setOss_buf : (s.setOss v).buf = s.buf := rfl
@[simp] theorem State.setOss_seq : (s.setOss v).seq = s.seq := rfl
@[simp] theorem State.setOss_written : (s.setOss v).written = { s.written with oss := true } := rfl
@[simp] theorem State.setOss_cfg : (s.setOss v).cfg = s.cfg := rfl
@[simp] theorem State.setOss_scl : (s.setOss v).scl = s.scl := rfl
@[simp] theorem State.setOss_sda : (s.setOss v).sda = s.sda := rfl
@[simp] theorem State.setOss_trace : (s.setOss v).trace = s.trace := rfl
@[simp] theorem State.setOss_host : (s.setOss v).host = s.host := rfl
@[simp] theorem State.setOss_rdata : (s.setOss v).rdata = s.rdata := rfl

end

/-! ### setResults -/

section
variable (s : State) (t tp : Word)

@[simp] theorem State.setResults_mode : (s.setResults t tp).mode = s.mode := rfl
@[simp] theorem State.setResults_started : (s.setResults t tp).started = s.started := rfl
@[simp] theorem State.setResults_sclDrv : (s.setResults t tp).sclDrv = s.sclDrv := rfl
@[simp] theorem State.setResults_sdaDrv : (s.setResults t tp).sdaDrv = s.sdaDrv := rfl
@[simp] theorem State.setResults_cal : (s.setResults t tp).cal = s.cal := rfl
@[simp] theorem State.setResults_ut : (s.setResults t tp).ut = s.ut := rfl
@[simp] theorem State.setResults_up : (s.setResults t tp).up = s.up := rfl
@[simp] theorem State.setResults_oss : (s.setResults t tp).oss = s.oss := rfl
@[simp] theorem State.setResults_tt : (s.setResults t tp).tt = t := rfl
@[simp] theorem State.setResults_tp : (s.setResults t tp).tp = tp := rfl
@[simp] theorem State.setResults_poff : (s.setResults t tp).poff = s.poff := rfl
@[simp] theorem State.setResults_wlim : (s.setResults t tp).wlim = s.wlim := rfl
@[simp] theorem State.setResults_status : (s.setResults t tp).status = s.status := rfl
@[simp] theorem State.setResults_cmd : (s.setResults t tp).cmd = s.cmd := rfl
@[simp] theorem State.setResults_buf : (s.setResults t tp).buf = s.buf := rfl
@[simp] theorem State.setResults_seq : (s.setResults t tp).seq = s.seq := rfl
@[simp] theorem State.setResults_written : (s.setResults t tp).written = { s.written with tt := true, tp := true } := rfl
@[simp] theorem State.setResults_cfg : (s.setResults t tp).cfg = s.cfg := rfl
@[simp] theorem State.setResults_scl : (s.setResults t tp).scl = s.scl := rfl
@[simp] theorem State.setResults_sda : (s.setResults t tp).sda = s.sda := rfl
@[simp] theorem State.setResults_trace : (s.setResults t tp).trace = s.trace := rfl
@[simp] theorem State.setResults_host : (s.setResults t tp).host = s.host := rfl
@[simp] theorem State.setResults_rdata : (s.setResults t tp).rdata = s.rdata := rfl

end

/-! ### log -/

section
variable (s : State) (e : Event)

@[simp] theorem State.log_mode : (s.log e).mode = s.mode := rfl
@[simp] theorem State.log_started : (s.log e).started = s.started := rfl
@[simp] theorem State.log_sclDrv : (s.log e).sclDrv = s.sclDrv := rfl
@[simp] theorem State.log_sdaDrv : (s.log e).sdaDrv = s.sdaDrv := rfl
@[simp] theorem State.log_cal : (s.log e).cal = s.cal := rfl
@[simp] theorem State.log_ut : (s.log e).ut = s.ut := rfl
@[simp] theorem State.log_up : (s.log e).up = s.up := rfl
@[simp] theorem State.log_oss : (s.log e).oss = s.oss := rfl
@[simp] theorem State.log_tt : (s.log e).tt = s.tt := rfl
@[simp] theorem State.log_tp : (s.log e).tp = s.tp := rfl
@[simp] theorem State.log_poff : (s.log e).poff = s.poff := rfl
@[simp] theorem State.log_wlim : (s.log e).wlim = s.wlim := rfl
@[simp] theorem State.log_status : (s.log e).status = s.status := rfl
@[simp] theorem State.log_cmd : (s.log e).cmd = s.cmd := rfl
@[simp] theorem State.log_buf : (s.log e).buf = s.buf := rfl
@[simp] theorem State.log_seq : (s.log e).seq = s.seq := rfl
@[simp] theorem State.log_written : (s.log e).written = s.written := rfl
@[simp] theorem State.log_cfg : (s.log e).cfg = s.cfg := rfl
@[simp] theorem State.log_scl : (s.log e).scl = s.scl := rfl
@[simp] theorem State.log_sda : (s.log e).sda = s.sda := rfl
@[simp] theorem State.log_trace : (s.log e).trace = e :: s.trace := rfl
@[simp] theorem State.log_host : (s.log e).host = s.host := rfl
@[simp] theorem State.log_rdata : (s.log e).rdata = s.rdata := rfl

end

/-! ### assertScl -/

section
variable (s : State)

@[simp] theorem State.assertScl_mode : s.assertScl.mode = s.mode := rfl
@[simp] theorem State.assertScl_started : s.assertScl.started = s.started := rfl
@[simp] theorem State.assertScl_sclDrv : s.assertScl.sclDrv = true := rfl
@[simp] theorem State.assertScl_sdaDrv : s.assertScl.sdaDrv = s.sdaDrv := rfl
@[simp] theorem State.assertScl_cal : s.assertScl.cal = s.cal := rfl
@[simp] theorem State.assertScl_ut : s.assertScl.ut = s.ut := rfl
@[simp] theorem State.assertScl_up : s.assertScl.up = s.up := rfl
@[simp] theorem State.assertScl_oss : s.assertScl.oss = s.oss := rfl
@[simp] theorem State.assertScl_tt : s.assertScl.tt = s.tt := rfl
@[simp] theorem State.assertScl_tp : s.assertScl.tp = s.tp := rfl
@[simp] theorem State.assertScl_poff : s.assertScl.poff = s.poff := rfl
@[simp] theorem State.assertScl_wlim : s.assertScl.wlim = s.wlim := rfl
@[simp] theorem State.assertScl_status : s.assertScl.status = s.status := rfl
@[simp] theorem State.assertScl_cmd : s.assertScl.cmd = s.cmd := rfl
@[simp] theorem State.assertScl_buf : s.assertScl.buf = s.buf := rfl
@[simp] theorem State.assertScl_seq : s.assertScl.seq = s.seq := rfl
@[simp] theorem State.assertScl_written : s.assertScl.written = s.written := rfl
@[simp] theorem State.assertScl_cfg : s.assertScl.cfg = s.cfg := rfl
@[simp] theorem State.assertScl_scl : s.assertScl.scl = s.scl := rfl
@[simp] theorem State.assertScl_sda : s.assertScl.sda = s.sda := rfl
@[simp] theorem State.assertScl_trace : s.assertScl.trace = .sclLow :: s.trace := rfl
@[simp] theorem State.assertScl_host : s.assertScl.host = s.host := rfl
@[simp] theorem State.assertScl_rdata : s.assertScl.rdata = s.rdata := rfl

end

/-! ### releaseScl -/

section
variable (s : State)

@[simp] theorem State.releaseScl_mode : s.releaseScl.mode = s.mode := rfl
@[simp] theorem State.releaseScl_started : s.releaseScl.started = s.started := rfl
@[simp] theorem State.releaseScl_sclDrv : s.releaseScl.sclDrv = false := rfl
@[simp] theorem State.releaseScl_sdaDrv : s.releaseScl.sdaDrv = s.sdaDrv := rfl
@[simp] theorem State.releaseScl_cal : s.releaseScl.cal = s.cal := rfl
@[simp] theorem State.releaseScl_ut : s.releaseScl.ut = s.ut := rfl
@[simp] theorem State.releaseScl_up : s.releaseScl.up = s.up := rfl
@[simp] theorem State.releaseScl_oss : s.releaseScl.oss = s.oss := rfl
@[simp] theorem State.releaseScl_tt : s.releaseScl.tt = s.tt := rfl
@[simp] theorem State.releaseScl_tp : s.releaseScl.tp = s.tp := rfl
@[simp] theorem State.releaseScl_poff : s.releaseScl.poff = s.poff := rfl
@[simp] theorem State.releaseScl_wlim : s.releaseScl.wlim = s.wlim := rfl
@[simp] theorem State.releaseScl_status : s.releaseScl.status = s.status := rfl
@[simp] theorem State.releaseScl_cmd : s.releaseScl.cmd = s.cmd := rfl
@[simp] theorem State.releaseScl_buf : s.releaseScl.buf = s.buf := rfl
@[simp] theorem State.releaseScl_seq : s.releaseScl.seq = s.seq := rfl
@[simp] theorem State.releaseScl_written : s.releaseScl.written = s.written := rfl
@[simp] theorem State.releaseScl_cfg : s.releaseScl.cfg = s.cfg := rfl
@[simp] theorem State.releaseScl_scl : s.releaseScl.scl = s.scl := rfl
@[simp] theorem State.releaseScl_sda : s.releaseScl.sda = s.sda := rfl
@[simp] theorem State.releaseScl_trace : s.releaseScl.trace = .sclRel :: s.trace := rfl
@[simp] theorem State.releaseScl_host : s.releaseScl.host = s.host := rfl
@[simp] theorem State.releaseScl_rdata : s.releaseScl.rdata = s.rdata := rfl

end

/-! ### assertSda -/

section
variable (s : State)

@[simp] theorem State.assertSda_mode : s.assertSda.mode = s.mode := rfl
@[simp] theorem State.assertSda_started : s.assertSda.started = s.started := rfl
@[simp] theorem State.assertSda_sclDrv : s.assertSda.sclDrv = s.sclDrv := rfl
@[simp] theorem State.assertSda_sdaDrv : s.assertSda.sdaDrv = true := rfl
@[simp] theorem State.assertSda_cal : s.assertSda.cal = s.cal := rfl
@[simp] theorem State.assertSda_ut : s.assertSda.ut = s.ut := rfl
@[simp] theorem State.assertSda_up : s.assertSda.up = s.up := rfl
@[simp] theorem State.assertSda_oss : s.assertSda.oss = s.oss := rfl
@[simp] theorem State.assertSda_tt : s.assertSda.tt = s.tt := rfl
@[simp] theorem State.assertSda_tp : s.assertSda.tp = s.tp := rfl
@[simp] theorem State.assertSda_poff : s.assertSda.poff = s.poff := rfl
@[simp] theorem State.assertSda_wlim : s.assertSda.wlim = s.wlim := rfl
@[simp] theorem State.assertSda_status : s.assertSda.status = s.status := rfl
@[simp] theorem State.assertSda_cmd : s.assertSda.cmd = s.cmd := rfl
@[simp] theorem State.assertSda_buf : s.assertSda.buf = s.buf := rfl
@[simp] theorem State.assertSda_seq : s.assertSda.seq = s.seq := rfl
@[simp] theorem State.assertSda_written : s.assertSda.written = s.written := rfl
@[simp] theorem State.assertSda_cfg : s.assertSda.cfg = s.cfg := rfl
@[simp] theorem State.assertSda_scl : s.assertSda.scl = s.scl := rfl
@[simp] theorem State.assertSda_sda : s.assertSda.sda = s.sda := rfl
@[simp] theorem State.assertSda_trace : s.assertSda.trace = .sdaLow :: s.trace := rfl
@[simp] theorem State.assertSda_host : s.assertSda.host = s.host := rfl
@[simp] theorem State.assertSda_rdata : s.assertSda.rdata = s.rdata := rfl

end

/-! ### releaseSda -/

section
variable (s : State)

@[simp] theorem State.releaseSda_mode : s.releaseSda.mode = s.mode := rfl
@[simp] theorem State.releaseSda_started : s.releaseSda.started = s.started := rfl
@[simp] theorem State.releaseSda_sclDrv : s.releaseSda.sclDrv = s.sclDrv := rfl
@[simp] theorem State.releaseSda_sdaDrv : s.releaseSda.sdaDrv = false := rfl
@[simp] theorem State.releaseSda_cal : s.releaseSda.cal = s.cal := rfl
@[simp] theorem State.releaseSda_ut : s.releaseSda.ut = s.ut := rfl
@[simp] theorem State.releaseSda_up : s.releaseSda.up = s.up := rfl
@[simp] theorem State.releaseSda_oss : s.releaseSda.oss = s.oss := rfl
@[simp] theorem State.releaseSda_tt : s.releaseSda.tt = s.tt := rfl
@[simp] theorem State.releaseSda_tp : s.releaseSda.tp = s.tp := rfl
@[simp] theorem State.releaseSda_poff : s.releaseSda.poff = s.poff := rfl
@[simp] theorem State.releaseSda_wlim : s.releaseSda.wlim = s.wlim := rfl
@[simp] theorem State.releaseSda_status : s.releaseSda.status = s.status := rfl
@[simp] theorem State.releaseSda_cmd : s.releaseSda.cmd = s.cmd := rfl
@[simp] theorem State.releaseSda_buf : s.releaseSda.buf = s.buf := rfl
@[simp] theorem State.releaseSda_seq : s.releaseSda.seq = s.seq := rfl
@[simp] theorem State.releaseSda_written : s.releaseSda.written = s.written := rfl
@[simp] theorem State.releaseSda_cfg : s.releaseSda.cfg = s.cfg := rfl
@[simp] theorem State.releaseSda_scl : s.releaseSda.scl = s.scl := rfl
@[simp] theorem State.releaseSda_sda : s.releaseSda.sda = s.sda := rfl
@[simp] theorem State.releaseSda_trace : s.releaseSda.trace = .sdaRel :: s.trace := rfl
@[simp] theorem State.releaseSda_host : s.releaseSda.host = s.host := rfl
@[simp] theorem State.releaseSda_rdata : s.releaseSda.rdata = s.rdata := rfl

end

/-! ### delay -/

section
variable (s : State) (us : Nat)

@[simp] theorem State.delay_mode : (s.delay us).mode = s.mode := rfl
@[simp] theorem State.delay_started : (s.delay us).started = s.started := rfl
@[simp] theorem State.delay_sclDrv : (s.delay us).sclDrv = s.sclDrv := rfl
@[simp] theorem State.delay_sdaDrv : (s.delay us).sdaDrv = s.sdaDrv := rfl
@[simp] theorem State.delay_cal : (s.delay us).cal = s.cal := rfl
@[simp] theorem State.delay_ut : (s.delay us).ut = s.ut := rfl
@[simp] theorem State.delay_up : (s.delay us).up = s.up := rfl
@[simp] theorem State.delay_oss : (s.delay us).oss = s.oss := rfl
@[simp] theorem State.delay_tt : (s.delay us).tt = s.tt := rfl
@[simp] theorem State.delay_tp : (s.delay us).tp = s.tp := rfl
@[simp] theorem State.delay_poff : (s.delay us).poff = s.poff := rfl
@[simp] theorem State.delay_wlim : (s.delay us).wlim = s.wlim := rfl
@[simp] theorem State.delay_status : (s.delay us).status = s.status := rfl
@[simp] theorem State.delay_cmd : (s.delay us).cmd = s.cmd := rfl
@[simp] theorem State.delay_buf : (s.delay us).buf = s.buf := rfl
@[simp] theorem State.delay_seq : (s.delay us).seq = s.seq := rfl
@[simp] theorem State.delay_written : (s.delay us).written = s.written := rfl
@[simp] theorem State.delay_cfg : (s.delay us).cfg = s.cfg := rfl
@[simp] theorem State.delay_scl : (s.delay us).scl = s.scl := rfl
@[simp] theorem State.delay_sda : (s.delay us).sda = s.sda := rfl
@[simp] theorem State.delay_trace : (s.delay us).trace = .dly us :: s.trace := rfl
@[simp] theorem State.delay_host : (s.delay us).host = s.host := rfl
@[simp] theorem State.delay_rdata : (s.delay us).rdata = s.rdata := rfl

end

/-! ### endCommand -/

section
variable (s : State) (st : Status)

@[simp] theorem State.endCommand_mode : (s.endCommand st).mode = s.mode := rfl
@[simp] theorem State.endCommand_started : (s.endCommand st).started = s.started := rfl
@[simp] theorem State.endCommand_sclDrv : (s.endCommand st).sclDrv = s.sclDrv := rfl
@[simp] theorem State.endCommand_sdaDrv : (s.endCommand st).sdaDrv = s.sdaDrv := rfl
@[simp] theorem State.endCommand_cal : (s.endCommand st).cal = s.cal := rfl
@[simp] theorem State.endCommand_ut : (s.endCommand st).ut = s.ut := rfl
@[simp] theorem State.endCommand_up : (s.endCommand st).up = s.up := rfl
@[simp] theorem State.endCommand_oss : (s.endCommand st).oss = s.oss := rfl
@[simp] theorem State.endCommand_tt : (s.endCommand st).tt = s.tt := rfl
@[simp] theorem State.endCommand_tp : (s.endCommand st).tp = s.tp := rfl
@[simp] theorem State.endCommand_poff : (s.endCommand st).poff = s.poff := rfl
@[simp] theorem State.endCommand_wlim : (s.endCommand st).wlim = s.wlim := rfl
@[simp] theorem State.endCommand_status : (s.endCommand st).status = st.code := rfl
@[simp] theorem State.endCommand_cmd : (s.endCommand st).cmd = s.cmd := rfl
@[simp] theorem State.endCommand_buf : (s.endCommand st).buf = s.buf := rfl
@[simp] theorem State.endCommand_seq : (s.endCommand st).seq = .idle := rfl
@[simp] theorem State.endCommand_written : (s.endCommand st).written = s.written := rfl
@[simp] theorem State.endCommand_cfg : (s.endCommand st).cfg = s.cfg := rfl
@[simp] theorem State.endCommand_scl : (s.endCommand st).scl = s.scl := rfl
@[simp] theorem State.endCommand_sda : (s.endCommand st).sda = s.sda := rfl
@[simp] theorem State.endCommand_trace : (s.endCommand st).trace = s.trace := rfl
@[simp] theorem State.endCommand_host : (s.endCommand st).host = s.host := rfl
@[simp] theorem State.endCommand_rdata : (s.endCommand st).rdata = s.rdata := rfl

end

/-! ### applyReset -/

section
variable (s : State)

@[simp] theorem State.applyReset_mode : s.applyReset.mode = State.reset.mode := rfl
@[simp] theorem State.applyReset_started : s.applyReset.started = State.reset.started := rfl
@[simp] theorem State.applyReset_sclDrv : s.applyReset.sclDrv = State.reset.sclDrv := rfl
@[simp] theorem State.applyReset_sdaDrv : s.applyReset.sdaDrv = State.reset.sdaDrv := rfl
@[simp] theorem State.applyReset_cal : s.applyReset.cal = State.reset.cal := rfl
@[simp] theorem State.applyReset_ut : s.applyReset.ut = State.reset.ut := rfl
@[simp] theorem State.applyReset_up : s.applyReset.up = State.reset.up := rfl
@[simp] theorem State.applyReset_oss : s.applyReset.oss = State.reset.oss := rfl
@[simp] theorem State.applyReset_tt : s.applyReset.tt = State.reset.tt := rfl
@[simp] theorem State.applyReset_tp : s.applyReset.tp = State.reset.tp := rfl
@[simp] theorem State.applyReset_poff : s.applyReset.poff = State.reset.poff := rfl
@[simp] theorem State.applyReset_wlim : s.applyReset.wlim = State.reset.wlim := rfl
@[simp] theorem State.applyReset_status : s.applyReset.status = State.reset.status := rfl
@[simp] theorem State.applyReset_cmd : s.applyReset.cmd = State.reset.cmd := rfl
@[simp] theorem State.applyReset_buf : s.applyReset.buf = State.reset.buf := rfl
@[simp] theorem State.applyReset_seq : s.applyReset.seq = State.reset.seq := rfl
@[simp] theorem State.applyReset_written : s.applyReset.written = State.reset.written := rfl
@[simp] theorem State.applyReset_cfg : s.applyReset.cfg = s.cfg := rfl
@[simp] theorem State.applyReset_scl : s.applyReset.scl = s.scl := rfl
@[simp] theorem State.applyReset_sda : s.applyReset.sda = s.sda := rfl
@[simp] theorem State.applyReset_trace : s.applyReset.trace = s.trace := rfl
@[simp] theorem State.applyReset_host : s.applyReset.host = s.host := rfl
@[simp] theorem State.applyReset_rdata : s.applyReset.rdata = s.rdata := rfl

end

end Sys2Proof.Machine
end

