-- ==== Sys2Proof/Laws/Wait.lean ====
section
/-! SUPPORT. The wait loops: when they end and with what, and what `ClockUp()` does. -/

namespace Sys2Proof.Machine

/-! ### Flow -/

section
variable {α β : Type} (k : α → State → Flow β) (s : State)

@[simp] theorem Flow.bind_done (a : α) : (Flow.done a s).bind k = k a s := rfl
@[simp] theorem Flow.bind_raised (st : Status) : (Flow.raised st s).bind k = .raised st s := rfl
@[simp] theorem Flow.bind_hung (w : WaitLoop) : (Flow.hung w s).bind k = .hung w s := rfl
@[simp] theorem Flow.state_done (a : α) : (Flow.done a s).state = s := rfl
@[simp] theorem Flow.state_raised (st : Status) : (Flow.raised st s : Flow α).state = s := rfl
@[simp] theorem Flow.state_hung (w : WaitLoop) : (Flow.hung w s : Flow α).state = s := rfl

end

/-! ### The loop itself (R135) -/

/-- With a limit the loop ends; without, it never ends exactly if no answer is the wanted one. -/
theorem waitFrom_never (want : Bool) (limit : Nat) (rest : Bool) (n : Nat) (as : List Bool)
    (h : (waitFrom want limit rest n as).ending = .never) :
    limit = 0 ∧ rest ≠ want ∧ (∀ a ∈ as, a ≠ want) ∧
      waitFrom want limit rest n as = ⟨as, ⟨[], rest⟩, .never⟩ := by
  induction as generalizing n with
  | nil =>
    rw [waitFrom] at h ⊢
    split at h
    · cases h
    · split at h
      · simp_all
      · cases h
  | cons v vs ih =>
    rw [waitFrom] at h ⊢
    split at h
    · cases h
    · split at h
      · cases h
      · obtain ⟨h0, hr, hvs, e⟩ := ih (n + 1) h
        simp_all

/-- A loop times out only under a limit. -/
theorem waitFrom_timeout (want : Bool) (limit : Nat) (rest : Bool) (n : Nat) (as : List Bool)
    (h : (waitFrom want limit rest n as).ending = .timeout) : limit ≠ 0 := by
  induction as generalizing n with
  | nil => rw [waitFrom] at h; split at h <;> [cases h; (split at h <;> [cases h; assumption])]
  | cons v vs ih =>
    rw [waitFrom] at h
    split at h
    · cases h
    · split at h
      · exact ‹_ ∧ _›.1
      · exact ih (n + 1) h

/-- The samples of a loop: unwanted ones, and after them the wanted one if it was seen. -/
theorem waitFrom_samples (want : Bool) (limit : Nat) (rest : Bool) (n : Nat) (as : List Bool) :
    ∃ k, (waitFrom want limit rest n as).samples =
      List.replicate k (!want) ++
        (if (waitFrom want limit rest n as).ending = .seen then [want] else []) := by
  induction as generalizing n with
  | nil =>
    rw [waitFrom]
    split
    · exact ⟨0, by simp_all⟩
    · have : rest = !want := by cases rest <;> cases want <;> simp_all
      split
      · exact ⟨0, by simp⟩
      · exact ⟨limit - n, by simp [this]⟩
  | cons v vs ih =>
    rw [waitFrom]
    split
    · exact ⟨0, by simp_all⟩
    · have : v = !want := by cases v <;> cases want <;> simp_all
      split
      · exact ⟨1, by simp [this]⟩
      · obtain ⟨k, hk⟩ := ih (n + 1)
        exact ⟨k + 1, by simp [hk, this, List.replicate_succ]⟩

/-! ### Bus activity -/

section
variable (s : State) (st : Bool) (drv : Bool × Bool) (scl sda : Line) (new : List Event)

@[simp] theorem State.bus_mode : (s.bus st drv scl sda new).mode = s.mode := rfl
@[simp] theorem State.bus_started : (s.bus st drv scl sda new).started = st := rfl
@[simp] theorem State.bus_sclDrv : (s.bus st drv scl sda new).sclDrv = drv.1 := rfl
@[simp] theorem State.bus_sdaDrv : (s.bus st drv scl sda new).sdaDrv = drv.2 := rfl
@[simp] theorem State.bus_drv : (s.bus st drv scl sda new).drv = drv := rfl
@[simp] theorem State.bus_wlim : (s.bus st drv scl sda new).wlim = s.wlim := rfl
@[simp] theorem State.bus_buf : (s.bus st drv scl sda new).buf = s.buf := rfl
@[simp] theorem State.bus_written : (s.bus st drv scl sda new).written = s.written := rfl
@[simp] theorem State.bus_cfg : (s.bus st drv scl sda new).cfg = s.cfg := rfl
@[simp] theorem State.bus_seq : (s.bus st drv scl sda new).seq = s.seq := rfl
@[simp] theorem State.bus_status : (s.bus st drv scl sda new).status = s.status := rfl
@[simp] theorem State.bus_scl : (s.bus st drv scl sda new).scl = scl := rfl
@[simp] theorem State.bus_sda : (s.bus st drv scl sda new).sda = sda := rfl
@[simp] theorem State.bus_trace : (s.bus st drv scl sda new).trace = new ++ s.trace := rfl

/-- Bus activity after bus activity. -/
@[simp] theorem State.bus_bus (st' : Bool) (drv' : Bool × Bool) (scl' sda' : Line)
    (new' : List Event) : (s.bus st drv scl sda new).bus st' drv' scl' sda' new' =
      s.bus st' drv' scl' sda' (new' ++ new) := by
  simp [State.bus]

/-- No bus activity. -/
theorem State.bus_refl : s.bus s.started s.drv s.scl s.sda [] = s := rfl

end

/-! ### ClockUp and the wait for data low -/

/-- `ClockUp()` as bus activity, however it ends. -/
theorem clockUp_eq (s : State) :
    clockUp s = (waitFrom true s.wlim.toNat s.scl.rest 0 s.scl.answers).ending.flow .sclHigh
      (s.bus s.started (false, s.sdaDrv)
        (waitFrom true s.wlim.toNat s.scl.rest 0 s.scl.answers).line s.sda
        (((waitFrom true s.wlim.toNat s.scl.rest 0 s.scl.answers).samples.map .sclSample).reverse ++
          [.sclRel])) := by
  simp only [clockUp, State.waitSclHigh, waitOn, State.releaseScl_sclDrv, Bool.false_eq_true,
    if_false, State.releaseScl_wlim, State.releaseScl_scl, State.releaseScl_trace,
    State.bus, List.append_assoc, List.cons_append, List.nil_append]
  rfl

/-- The wait for data low after a release of the line, as bus activity, however it ends. -/
theorem waitSdaLow_eq (s : State) :
    State.waitSdaLow s.releaseSda =
      (waitFrom false s.wlim.toNat s.sda.rest 0 s.sda.answers).ending.flow .sdaLow
      (s.bus s.started (s.sclDrv, false) s.scl
        (waitFrom false s.wlim.toNat s.sda.rest 0 s.sda.answers).line
        (((waitFrom false s.wlim.toNat s.sda.rest 0 s.sda.answers).samples.map .sdaSample).reverse ++
          [.sdaRel])) := by
  simp only [State.waitSdaLow, waitOn, State.releaseSda_sdaDrv, Bool.false_eq_true,
    if_false, State.releaseSda_wlim, State.releaseSda_sda, State.releaseSda_trace,
    State.bus, List.append_assoc, List.cons_append, List.nil_append]
  rfl

end Sys2Proof.Machine
end

