-- ==== Sys2Proof/Laws/Defined.lean ====
section
/-! SUPPORT. Two states that differ at most in registers nothing has written since reset: every
procedure and every command that uses no such register does the same from both and leaves two such
states (93_implementation_defined U1). -/

namespace Sys2Proof.Machine

/-! ### Twins -/

/-- Two states that differ at most in undefined registers, with BUF in canonical form. -/
structure Twins (s s' : State) : Prop where
  same : s.sameDefined s'
  wf : Memory.wf s.buf = true
  wf' : Memory.wf s'.buf = true

namespace Twins

variable {s s' : State} (h : Twins s s')
include h

theorem mode : s'.mode = s.mode := (congrArg State.mode h.same.1 :)
theorem started : s'.started = s.started := (congrArg State.started h.same.1 :)
theorem drv : s'.drv = s.drv := (congrArg State.drv h.same.1 :)
theorem poff : s'.poff = s.poff := (congrArg State.poff h.same.1 :)
theorem wlim : s'.wlim = s.wlim := (congrArg State.wlim h.same.1 :)
theorem status : s'.status = s.status := (congrArg State.status h.same.1 :)
theorem cmd : s'.cmd = s.cmd := (congrArg State.cmd h.same.1 :)
theorem seq : s'.seq = s.seq := (congrArg State.seq h.same.1 :)
theorem written : s'.written = s.written := (congrArg State.written h.same.1 :)
theorem cfg : s'.cfg = s.cfg := (congrArg State.cfg h.same.1 :)
theorem scl : s'.scl = s.scl := (congrArg State.scl h.same.1 :)
theorem sda : s'.sda = s.sda := (congrArg State.sda h.same.1 :)
theorem trace : s'.trace = s.trace := (congrArg State.trace h.same.1 :)
theorem host : s'.host = s.host := (congrArg State.host h.same.1 :)
theorem flags : s'.flags = s.flags := (congrArg State.flags h.same.1 :)
theorem sclDrv : s'.sclDrv = s.sclDrv := (congrArg State.sclDrv h.same.1 :)
theorem sdaDrv : s'.sdaDrv = s.sdaDrv := (congrArg State.sdaDrv h.same.1 :)

theorem setMode (m : Mode) : Twins { s with mode := m } { s' with mode := m } :=
  ⟨⟨congrArg (fun u : State => { u with mode := m }) h.same.1, h.same.2⟩, h.wf, h.wf'⟩

theorem setStarted (b : Bool) : Twins { s with started := b } { s' with started := b } :=
  ⟨⟨congrArg (fun u : State => { u with started := b }) h.same.1, h.same.2⟩, h.wf, h.wf'⟩

theorem setPoff (v : Word) : Twins { s with poff := v } { s' with poff := v } :=
  ⟨⟨congrArg (fun u : State => { u with poff := v }) h.same.1, h.same.2⟩, h.wf, h.wf'⟩

theorem setWlim (v : Word) : Twins { s with wlim := v } { s' with wlim := v } :=
  ⟨⟨congrArg (fun u : State => { u with wlim := v }) h.same.1, h.same.2⟩, h.wf, h.wf'⟩

theorem setCmd (c : Half) : Twins { s with cmd := c } { s' with cmd := c } :=
  ⟨⟨congrArg (fun u : State => { u with cmd := c }) h.same.1, h.same.2⟩, h.wf, h.wf'⟩

theorem setSeq (q : Sequencer) : Twins { s with seq := q } { s' with seq := q } :=
  ⟨⟨congrArg (fun u : State => { u with seq := q }) h.same.1, h.same.2⟩, h.wf, h.wf'⟩

theorem setHost (es : List HostEvent) : Twins { s with host := es } { s' with host := es } :=
  ⟨⟨congrArg (fun u : State => { u with host := es }) h.same.1, h.same.2⟩, h.wf, h.wf'⟩

theorem setRdata (v : Word) : Twins { s with rdata := v } { s' with rdata := v } :=
  ⟨⟨congrArg (fun u : State => { u with rdata := v }) h.same.1, h.same.2⟩, h.wf, h.wf'⟩

theorem endCommand (st : Status) : Twins (s.endCommand st) (s'.endCommand st) :=
  ⟨⟨congrArg (fun u : State => u.endCommand st) h.same.1, h.same.2⟩, h.wf, h.wf'⟩

theorem bus (st : Bool) (drv : Bool × Bool) (scl sda : Line) (new : List Event) :
    Twins (s.bus st drv scl sda new) (s'.bus st drv scl sda new) :=
  ⟨⟨congrArg (fun u : State => u.bus st drv scl sda new) h.same.1, h.same.2⟩, h.wf, h.wf'⟩

/-- A pin micro-operation or a delay. -/
theorem micro (d : Bool × Bool → Bool × Bool) (e : Event) :
    Twins (s.bus s.started (d s.drv) s.scl s.sda [e]) (s'.bus s'.started (d s'.drv) s'.scl s'.sda [e]) := by
  rw [h.started, h.drv, h.scl, h.sda]
  exact h.bus _ _ _ _ _

theorem assertScl : Twins s.assertScl s'.assertScl := h.micro (fun d => (true, d.2)) .sclLow
theorem releaseScl : Twins s.releaseScl s'.releaseScl := h.micro (fun d => (false, d.2)) .sclRel
theorem assertSda : Twins s.assertSda s'.assertSda := h.micro (fun d => (d.1, true)) .sdaLow
theorem releaseSda : Twins s.releaseSda s'.releaseSda := h.micro (fun d => (d.1, false)) .sdaRel
theorem delay (us : Nat) : Twins (s.delay us) (s'.delay us) := h.micro id (.dly us)
theorem sampleAgain (w : WaitLoop) : Twins (s.sampleAgain w) (s'.sampleAgain w) := by
  cases w
  · exact h.micro id (.sclSample false)
  · exact h.micro id (.sdaSample true)

theorem driveSda (b : Bool) : Twins (s.driveSda b) (s'.driveSda b) := by
  cases b
  · exact h.assertSda
  · exact h.releaseSda

theorem sampleSda : s'.sampleSda.1 = s.sampleSda.1 ∧ Twins s.sampleSda.2 s'.sampleSda.2 := by
  cases hd : s.sdaDrv with
  | true =>
    rw [State.sampleSda, State.sampleSda, if_pos hd, if_pos (h.sdaDrv.trans hd)]
    exact ⟨rfl, h.micro id (.sdaSample false)⟩
  | false =>
    have hn : ∀ b, b = false → ¬b = true := fun b hb => by rw [hb]; nofun
    rw [State.sampleSda, State.sampleSda, if_neg (hn _ hd), if_neg (hn _ (h.sdaDrv.trans hd))]
    refine ⟨congrArg (fun l => l.next.1) h.sda, ?_⟩
    change Twins (s.bus s.started s.drv s.scl s.sda.next.2 [.sdaSample s.sda.next.1])
      (s'.bus s'.started s'.drv s'.scl s'.sda.next.2 [.sdaSample s'.sda.next.1])
    rw [h.started, h.drv, h.scl, h.sda]
    exact h.bus _ _ _ _ _

/-! ### Twins after a write of a register with no reset value -/

theorem setCal (i : Nat) (v : Half) : Twins (s.setCal i v) (s'.setCal i v) := by
  refine ⟨⟨?_, fun j => ?_, h.same.2.2⟩, h.wf, h.wf'⟩
  · have e := congrArg (fun u : State => { u with written := (s.setCal i v).written }) h.same.1
    rw [State.setCal, h.written]
    exact congrArg (fun u : State => { u with cal := s'.cal.setIfInBounds i v }) e
  · intro hj
    simp only [State.setCal_cal, State.setCal_written, Fin.getElem_fin,
      Vector.getElem_setIfInBounds] at hj ⊢
    split
    · rfl
    · rename_i hne
      rw [if_neg hne] at hj
      exact h.same.2.1 j hj

theorem setAllCal (c : Vector Half 11) : Twins (s.setAllCal c) (s'.setAllCal c) :=
  ⟨⟨(congrArg (fun u : State => u.setAllCal c) h.same.1 :), fun _ _ => rfl, h.same.2.2⟩, h.wf, h.wf'⟩

theorem setUt (v : BitVec 16) : Twins (s.setUt v) (s'.setUt v) :=
  ⟨⟨(congrArg (fun u : State => u.setUt v) h.same.1 :), h.same.2.1, fun _ => rfl, h.same.2.2.2⟩,
    h.wf, h.wf'⟩

theorem setUp (v : BitVec 19) : Twins (s.setUp v) (s'.setUp v) :=
  ⟨⟨(congrArg (fun u : State => u.setUp v) h.same.1 :), h.same.2.1, h.same.2.2.1, fun _ => rfl,
    h.same.2.2.2.2⟩, h.wf, h.wf'⟩

theorem setOss (v : BitVec 2) : Twins (s.setOss v) (s'.setOss v) :=
  ⟨⟨(congrArg (fun u : State => u.setOss v) h.same.1 :), h.same.2.1, h.same.2.2.1, h.same.2.2.2.1,
    fun _ => rfl, h.same.2.2.2.2.2⟩, h.wf, h.wf'⟩

theorem setResults (a b : Word) : Twins (s.setResults a b) (s'.setResults a b) :=
  ⟨⟨(congrArg (fun u : State => u.setResults a b) h.same.1 :), h.same.2.1, h.same.2.2.1,
    h.same.2.2.2.1, h.same.2.2.2.2.1, fun _ => rfl, fun _ => rfl, h.same.2.2.2.2.2.2.2⟩, h.wf, h.wf'⟩

theorem setBuf (i : Nat) (v : Byte) (hi : i < bufSize) : Twins (s.setBuf i v) (s'.setBuf i v) := by
  refine ⟨⟨?_, h.same.2.1, h.same.2.2.1, h.same.2.2.2.1, h.same.2.2.2.2.1, h.same.2.2.2.2.2.1,
    h.same.2.2.2.2.2.2.1, fun j => ?_⟩, State.setBuf_wf s i v hi h.wf, State.setBuf_wf s' i v hi h.wf'⟩
  · have e := congrArg (fun u : State => { u with written := (s.setBuf i v).written }) h.same.1
    rw [State.setBuf, h.written]
    exact congrArg (fun u : State => { u with buf := Memory.write s'.buf i v }) e
  · intro hj
    simp only [State.setBuf_buf, State.setBuf_written, Fin.getElem_fin,
      Vector.getElem_setIfInBounds] at hj ⊢
    rw [Memory.read_write _ _ _ _ h.wf, Memory.read_write _ _ _ _ h.wf']
    split
    · rfl
    · rename_i hne
      rw [if_neg (Ne.symm hne)] at hj
      exact h.same.2.2.2.2.2.2.2 j hj

/-! ### Inputs that are defined -/

theorem compInput (hc : s.written.cal.all id = true) (hut : s.written.ut = true)
    (hup : s.written.up = true) (hoss : s.written.oss = true) : s'.compInput = s.compInput := by
  have hcal : s'.cal = s.cal := Vector.ext fun i hi =>
    h.same.2.1 ⟨i, hi⟩ (by simpa using Vector.all_eq_true.mp hc i hi)
  rw [State.compInput, State.compInput, hcal, h.same.2.2.1 hut, h.same.2.2.2.1 hup,
    h.same.2.2.2.2.1 hoss, h.poff]

theorem bufBytes (n i : Nat) (hn : i + n ≤ bufSize)
    (hw : ∀ j (_ : i ≤ j ∧ j < i + n) (hj : j < 32), s.written.buf[j] = true) :
    Machine.bufBytes s'.buf n i = Machine.bufBytes s.buf n i := by
  induction n generalizing i with
  | zero => rfl
  | succ n ih =>
    have hlt : i < 32 := by rw [bufSize] at hn; omega
    rw [Machine.bufBytes, Machine.bufBytes,
      h.same.2.2.2.2.2.2.2 ⟨i, hlt⟩ (hw i ⟨Nat.le_refl i, by omega⟩ hlt),
      ih (i + 1) (by omega) fun j hj => hw j ⟨by omega, by omega⟩]

theorem hostRead (addr : BitVec 8) (hr : readDefined addr s = true) :
    Machine.hostRead addr s' = Machine.hostRead addr s := by
  unfold readDefined at hr
  unfold Machine.hostRead
  split at hr
  all_goals (rename_i e; simp only [e])
  · exact congrArg _ (h.same.2.2.1 hr)
  · exact congrArg _ (h.same.2.2.2.1 hr)
  · exact congrArg _ (h.same.2.2.2.2.1 hr)
  · exact h.same.2.2.2.2.2.1 hr
  · exact h.same.2.2.2.2.2.2.1 hr
  · exact congrArg _ (h.same.2.1 _ hr)
  · exact congrArg _ (h.same.2.2.2.2.2.2.2 _ hr)
  · exact congrArg _ h.cmd
  · exact congrArg _ h.status
  · exact h.flags
  · exact h.poff
  · exact h.wlim

end Twins

/-! ### Procedures -/

/-- Two procedures that ended alike, in twins. -/
inductive Flow.Agree {α : Type} : Flow α → Flow α → Prop
  | done (a : α) {s s' : State} (h : Twins s s') : Flow.Agree (.done a s) (.done a s')
  | raised (st : Status) {s s' : State} (h : Twins s s') : Flow.Agree (.raised st s) (.raised st s')
  | hung (w : WaitLoop) {s s' : State} (h : Twins s s') : Flow.Agree (.hung w s) (.hung w s')

variable {α β : Type} {s s' : State}

theorem Flow.Agree.bind {f f' : Flow α} {k k' : α → State → Flow β} (h : f.Agree f')
    (hk : ∀ a t t', Twins t t' → (k a t).Agree (k' a t')) : (f.bind k).Agree (f'.bind k') := by
  cases h with
  | done a h => exact hk a _ _ h
  | raised st h => exact .raised st h
  | hung w h => exact .hung w h

theorem Flow.Agree.timeoutAsI2c {f f' : Flow α} (h : f.Agree f') :
    f.timeoutAsI2c.Agree f'.timeoutAsI2c := by
  cases h with
  | done a h => exact .done a h
  | raised st h => cases st <;> exact .raised _ h
  | hung w h => exact .hung w h

theorem WaitEnd.flow_agree (e : WaitEnd) (w : WaitLoop) (h : Twins s s') :
    (e.flow w s).Agree (e.flow w s') := by
  cases e with
  | seen => exact .done () h
  | timeout => exact .raised .timeout h
  | never => exact .hung w h

theorem clockUp_agree (h : Twins s s') : (clockUp s).Agree (clockUp s') := by
  rw [clockUp_eq, clockUp_eq, h.wlim, h.scl, h.sda, h.started, h.sdaDrv]
  exact WaitEnd.flow_agree _ _ (h.bus _ _ _ _ _)

theorem wbit_agree (b : Bool) (h : Twins s s') : (wbit b s).Agree (wbit b s') :=
  (clockUp_agree ((h.driveSda b).delay _)).bind fun _ _ _ h =>
    .done () ((h.delay _).assertScl.delay _)

theorem rbit_agree (h : Twins s s') : (rbit s).Agree (rbit s') := by
  refine (clockUp_agree (h.releaseSda.delay _)).bind fun _ t t' h => ?_
  obtain ⟨hv, ht⟩ := (h.delay tHigh).sampleSda
  change (Flow.done (t.delay tHigh).sampleSda.1 _).Agree (Flow.done (t'.delay tHigh).sampleSda.1 _)
  rw [hv]
  exact .done _ (ht.assertScl.delay _)

theorem generalStart_agree (h : Twins s s') : (generalStart s).Agree (generalStart s') :=
  (clockUp_agree (h.releaseSda.delay _)).bind fun _ _ _ h =>
    .done () ((((h.delay _).assertSda).delay _).assertScl.delay _)

theorem runTail_agree (ops : List TailOp) (h : Twins s s') :
    (runTail ops s).Agree (runTail ops s') := by
  induction ops generalizing s s' with
  | nil => exact .done () h
  | cons op ops ih =>
    cases op with
    | assertScl => exact ih h.assertScl
    | releaseScl => exact ih h.releaseScl
    | assertSda => exact ih h.assertSda
    | releaseSda => exact ih h.releaseSda
    | delay us => exact ih (h.delay us)
    | clockUp => exact (clockUp_agree h).bind fun _ _ _ h => ih h

theorem startSeq_agree (h : Twins s s') : (startSeq s).Agree (startSeq s') := by
  refine (generalStart_agree (h.setStarted true)).bind fun _ t t' h => ?_
  rw [h.mode]
  cases t.mode with
  | normal => exact .done () h
  | sensorVariant =>
    change (runTail t.cfg.variantTail t).Agree (runTail t'.cfg.variantTail t')
    rw [h.cfg]
    exact runTail_agree _ h

theorem stopSeq_agree (h : Twins s s') : (stopSeq s).Agree (stopSeq s') :=
  (clockUp_agree (h.assertSda.delay _)).bind fun _ _ _ h =>
    .done () (((h.delay _).releaseSda.delay _).setStarted false)

theorem optionally_agree (c : Bool) {p : State → Flow Unit}
    (hp : ∀ t t', Twins t t' → (p t).Agree (p t')) (h : Twins s s') :
    (optionally c p s).Agree (optionally c p s') := by
  cases c with
  | false => exact .done () h
  | true => exact hp _ _ h

theorem writeBits_agree (bits : List Bool) (h : Twins s s') :
    (writeBits bits s).Agree (writeBits bits s') := by
  induction bits generalizing s s' with
  | nil => exact .done () h
  | cons b bits ih => exact (wbit_agree b h).bind fun _ _ _ h => ih h

theorem writeBytes_agree (bytes : List Byte) (h : Twins s s') :
    (writeBytes bytes s).Agree (writeBytes bytes s') := by
  induction bytes generalizing s s' with
  | nil => exact .done _ h
  | cons b bytes ih =>
    refine (writeBits_agree _ h).bind fun _ _ _ h => (rbit_agree h).bind fun nack _ _ h => ?_
    cases nack with
    | true => exact .done _ h
    | false => exact ih h

theorem writeSeq_agree (bytes : List Byte) (S P : Bool) (h : Twins s s') :
    (writeSeq bytes S P s).Agree (writeSeq bytes S P s') :=
  (optionally_agree S (fun _ _ => startSeq_agree) h).bind fun _ _ _ h =>
    (writeBytes_agree bytes h).bind fun st _ _ h =>
      (optionally_agree P (fun _ _ => stopSeq_agree) h).bind fun _ _ _ h => .done st h

theorem readBits_agree (n : Nat) (v : Byte) (h : Twins s s') :
    (readBits n v s).Agree (readBits n v s') := by
  induction n generalizing v s s' with
  | zero => exact .done v h
  | succ n ih => exact (rbit_agree h).bind fun b _ _ h => ih _ h

theorem readBytes_agree (toBuf ackLast : Bool) (n i : Nat) (hn : toBuf = true → i + n ≤ bufSize)
    (h : Twins s s') : (readBytes toBuf ackLast n i s).Agree (readBytes toBuf ackLast n i s') := by
  induction n generalizing i s s' with
  | zero => exact .done [] h
  | succ n ih =>
    refine (readBits_agree 8 0 h).bind fun v t t' h => ?_
    have hset : Twins (if toBuf then t.setBuf i v else t) (if toBuf then t'.setBuf i v else t') := by
      cases toBuf with
      | false => exact h
      | true => exact h.setBuf i v (by have := hn rfl; omega)
    exact (wbit_agree _ hset).bind fun _ _ _ h =>
      (ih (i + 1) (fun hb => by have := hn hb; omega) h).bind fun vs _ _ h => .done (v :: vs) h

theorem readReady_agree (h : Twins s s') : (readReady s).Agree (readReady s') := by
  rw [readReady, readReady, h.mode]
  cases s.mode with
  | normal => exact .done () h
  | sensorVariant =>
    dsimp only
    rw [waitSdaLow_eq, waitSdaLow_eq, h.wlim, h.scl, h.sda, h.started, h.sclDrv]
    exact WaitEnd.flow_agree _ _ (h.bus _ _ _ _ _)

theorem readSeq_agree (toBuf : Bool) (n : Nat) (ackLast P : Bool) (hn : toBuf = true → n ≤ bufSize)
    (h : Twins s s') : (readSeq toBuf n ackLast P s).Agree (readSeq toBuf n ackLast P s') :=
  (readReady_agree h).bind fun _ _ _ h =>
    (readBytes_agree toBuf ackLast n 0 (fun hb => by have := hn hb; omega) h).bind fun rx _ _ h =>
      (optionally_agree P (fun _ _ => stopSeq_agree) h).bind fun _ _ _ h => .done rx h

theorem writeStep_agree (bytes : List Byte) (S P : Bool) (h : Twins s s') :
    (writeStep bytes S P s).Agree (writeStep bytes S P s') := by
  refine (writeSeq_agree bytes S P h).bind fun st _ _ h => ?_
  by_cases hst : st = .ok
  · rw [if_pos hst, if_pos hst]
    exact .done () h
  · rw [if_neg hst, if_neg hst]
    exact .raised _ h

theorem readRegister_agree (reg : Byte) (n : Nat) (h : Twins s s') :
    (readRegister reg n s).Agree (readRegister reg n s') :=
  (writeStep_agree _ _ _ h).bind fun _ _ _ h => (writeStep_agree _ _ _ h).bind fun _ _ _ h =>
    readSeq_agree false n false true nofun h

theorem convert_agree (control : Byte) (us n : Nat) (h : Twins s s') :
    (convert control us n s).Agree (convert control us n s') :=
  (writeStep_agree _ _ _ h).bind fun _ _ _ h => readRegister_agree regMsb n (h.delay us)

/-! ### Commands -/

/-- Two commands, or steps, that both go to a next state, twins again. -/
def Outcomes (o o' : Host.Outcome State Fault Refusal) : Prop :=
  ∃ t t', o = .next t ∧ o' = .next t' ∧ Twins t t'

theorem Flow.Agree.close {f f' : Flow Status} (h : f.Agree f') (i : Instr) :
    Outcomes (f.close i) (f'.close i) := by
  cases h with
  | done st h => exact ⟨_, _, rfl, rfl, h.endCommand st⟩
  | raised st h => exact ⟨_, _, rfl, rfl, h.endCommand st⟩
  | hung w h => exact ⟨_, _, rfl, rfl, h.setSeq _⟩

theorem registerCommand_agree (i : Instr) {body : State → Flow Status}
    (hb : ∀ t t', Twins t t' → (body t).Agree (body t')) (h : Twins s s') :
    Outcomes (registerCommand i body s) (registerCommand i body s') := by
  have hs := h.started
  rw [registerCommand, registerCommand]
  split
  · rename_i ho
    rw [if_pos (hs.trans ho)]
    exact ⟨_, _, rfl, rfl, h.endCommand _⟩
  · rename_i hc
    rw [if_neg fun ho => hc (hs.symm.trans ho)]
    exact (hb _ _ (h.setMode .normal)).timeoutAsI2c.close i

/-- A command whose inputs are defined does the same from twins (U1). -/
theorem exec_agree (i : Instr) (hi : inputsDefined i s = true) (h : Twins s s') :
    Outcomes (exec i s) (exec i s') := by
  cases i with
  | init => exact ⟨_, _, rfl, rfl, h.releaseScl.releaseSda.endCommand .ok⟩
  | start => exact ((startSeq_agree h).bind fun _ _ _ h => Flow.Agree.done Status.ok h).close .start
  | stop => exact ((stopSeq_agree h).bind fun _ _ _ h => Flow.Agree.done Status.ok h).close .stop
  | setmode m =>
    have hs := h.started
    rw [exec, exec, execSetmode, execSetmode]
    split
    · rename_i ho
      rw [if_pos (hs.trans ho)]
      exact ⟨_, _, rfl, rfl, h.endCommand _⟩
    · rename_i hc
      rw [if_neg fun ho => hc (hs.symm.trans ho)]
      cases modeOfField m with
      | none => exact ⟨_, _, rfl, rfl, h.endCommand _⟩
      | some mode => exact ⟨_, _, rfl, rfl, (h.setMode mode).endCommand _⟩
  | wrb len S P =>
    rw [exec, exec, execWrb, execWrb]
    split
    · rename_i hl
      have hb : bufBytes s'.buf len.toNat 0 = bufBytes s.buf len.toNat 0 := by
        refine h.bufBytes len.toNat 0 (by simpa [lenLegal, bufSize] using hl) fun j hj h32 => ?_
        rw [inputsDefined, Written.bufBelow, List.all_eq_true] at hi
        simpa [Vector.getD, h32] using hi j (List.mem_range.mpr (by omega))
      rw [hb]
      exact (writeSeq_agree _ S P h).close _
    · exact ⟨_, _, rfl, rfl, h.endCommand _⟩
  | rdb len A P =>
    rw [exec, exec, execRdb, execRdb]
    split
    · rename_i hl
      exact ((readSeq_agree true len.toNat A P (fun _ => by simpa [lenLegal, bufSize] using hl) h).bind
        fun _ _ _ h => Flow.Agree.done Status.ok h).close _
    · exact ⟨_, _, rfl, rfl, h.endCommand _⟩
  | rdcal =>
    exact registerCommand_agree .rdcal (fun _ _ h => (readRegister_agree regCal calBytes h).bind
      fun rx _ _ h => Flow.Agree.done Status.ok (h.setAllCal (calWords rx))) h
  | rdt =>
    exact registerCommand_agree .rdt (fun _ _ h => (convert_agree cmdTemp tConvTemp 2 h).bind
      fun rx _ _ h => Flow.Agree.done Status.ok (h.setUt (rxWord rx 0))) h
  | rdp oss =>
    exact registerCommand_agree (.rdp oss)
      (fun _ _ h => (convert_agree (cmdPres oss) tConvPres 3 h).bind fun rx _ _ h =>
        Flow.Agree.done Status.ok ((h.setUp (rawPressure rx oss)).setOss oss)) h
  | comp =>
    rw [inputsDefined, Bool.and_eq_true, Bool.and_eq_true, Bool.and_eq_true] at hi
    rw [exec, exec, execComp, execComp, h.cfg, h.compInput hi.1.1.1 hi.1.1.2 hi.1.2 hi.2]
    cases compensate s.cfg.divRound s.compInput with
    | none => exact ⟨_, _, rfl, rfl, h.endCommand _⟩
    | some r => exact ⟨_, _, rfl, rfl, (h.setResults r.1 r.2).endCommand _⟩

end Sys2Proof.Machine
end

