-- ==== Sys2Proof/Laws/Events.lean ====
section
/-! SUPPORT. Lists of events: what they are without failed clock samples, how often the clock rises in
them and what comes before a rise, the latches and answers they stand for; and the answers of a
line. -/

namespace Sys2Proof.Machine

/-! ### Latches and answers of a list of events -/

theorem pinDrive_append (a b : List Event) (d : Bool × Bool) :
    pinDrive (a ++ b) d = pinDrive b (pinDrive a d) := by
  induction a generalizing d with
  | nil => rfl
  | cons e a ih => obtain ⟨x, y⟩ := d; cases e <;> exact ih _

theorem sclAnswers_append (a b : List Event) :
    sclAnswers (a ++ b) = sclAnswers a ++ sclAnswers b := by
  induction a with
  | nil => rfl
  | cons e a ih => cases e <;> simp [sclAnswers, ih]

theorem sdaAnswers_append (a b : List Event) :
    sdaAnswers (a ++ b) = sdaAnswers a ++ sdaAnswers b := by
  induction a with
  | nil => rfl
  | cons e a ih => cases e <;> simp [sdaAnswers, ih]

theorem sclAnswers_clock (vs : List Bool) : sclAnswers (vs.map .sclSample) = vs := by
  induction vs with
  | nil => rfl
  | cons v vs ih => simp [sclAnswers, ih]

theorem sdaAnswers_clock (vs : List Bool) : sdaAnswers (vs.map .sclSample) = [] := by
  induction vs with
  | nil => rfl
  | cons v vs ih => simp [sdaAnswers, ih]

theorem sclAnswers_data (vs : List Bool) : sclAnswers (vs.map .sdaSample) = [] := by
  induction vs with
  | nil => rfl
  | cons v vs ih => simp [sclAnswers, ih]

theorem sdaAnswers_data (vs : List Bool) : sdaAnswers (vs.map .sdaSample) = vs := by
  induction vs with
  | nil => rfl
  | cons v vs ih => simp [sdaAnswers, ih]

theorem pinDrive_clock (vs : List Bool) (d : Bool × Bool) :
    pinDrive (vs.map .sclSample) d = d := by
  induction vs with
  | nil => rfl
  | cons v vs ih => obtain ⟨x, y⟩ := d; exact ih

theorem pinDrive_data (vs : List Bool) (d : Bool × Bool) :
    pinDrive (vs.map .sdaSample) d = d := by
  induction vs with
  | nil => rfl
  | cons v vs ih => obtain ⟨x, y⟩ := d; exact ih

/-! ### Answers of a line -/

theorem Line.drop_zero (l : Line) : l.drop 0 = l := rfl

theorem Line.next_snd (l : Line) : l.next.2 = l.drop 1 := by
  obtain ⟨_ | ⟨v, vs⟩, r⟩ := l <;> rfl

theorem Line.drop_drop (l : Line) (m n : Nat) : (l.drop m).drop n = l.drop (m + n) := by
  simp [Line.drop, List.drop_drop]

theorem Line.peek_succ (l : Line) (n : Nat) : l.peek (n + 1) = l.next.1 :: (l.drop 1).peek n := by
  rw [Line.peek, Line.next_snd]

theorem Line.peek_length (l : Line) (n : Nat) : (l.peek n).length = n := by
  induction n generalizing l with
  | zero => rfl
  | succ n ih => simp [Line.peek, ih]

theorem Line.peek_add (l : Line) (m n : Nat) : l.peek (m + n) = l.peek m ++ (l.drop m).peek n := by
  induction m generalizing l with
  | zero => rw [Nat.zero_add, Line.drop_zero]; rfl
  | succ m ih =>
    rw [show m + 1 + n = m + n + 1 by omega, Line.peek_succ, Line.peek_succ, ih, Line.drop_drop,
      Nat.add_comm 1 m, List.cons_append]

theorem Line.bytes_length (l : Line) (n : Nat) : (l.bytes n).length = n := by
  induction n generalizing l with
  | zero => rfl
  | succ n ih => simp [Line.bytes, ih]

/-! ### Unstretched traces -/

theorem quiet_append (a b : List Event) : quiet (a ++ b) = quiet b ++ quiet a := by
  simp [quiet]

/-- Failed samples of the clock are not in an unstretched trace. -/
theorem quiet_failed (n : Nat) : quiet (List.replicate n (.sclSample false)) = [] := by
  simp [quiet]

theorem quiet_dataSamples (vs : List Bool) :
    quiet (vs.map .sdaSample).reverse = vs.map .sdaSample := by
  induction vs with
  | nil => rfl
  | cons v vs ih => rw [List.map_cons, List.reverse_cons, quiet_append, ih]; rfl

@[simp] theorem rises_nil : rises [] = 0 := rfl

@[simp] theorem rises_append (a b : List Event) : rises (a ++ b) = rises a + rises b :=
  List.count_append

theorem rises_cons (e : Event) (es : List Event) :
    rises (e :: es) = (if e = .sclSample true then 1 else 0) + rises es := by
  simp only [rises, List.count_cons, beq_iff_eq]
  exact Nat.add_comm _ _

theorem beforeRise_nil (n : Nat) : beforeRise n [] = [] := by cases n <;> rfl

/-- What comes before a rise is in the first part of a list, or all of it and some of the second. -/
theorem beforeRise_append (n : Nat) (a b : List Event) :
    beforeRise n (a ++ b) =
      if n < rises a then beforeRise n a else a ++ beforeRise (n - rises a) b := by
  induction a generalizing n with
  | nil => simp
  | cons e a ih =>
    rw [rises_cons, List.cons_append]
    by_cases he : e = .sclSample true
    · cases n with
      | zero => simp [beforeRise, he]
      | succ n =>
        simp only [beforeRise, he, if_true, ih]
        split
        · rw [if_pos (by omega)]
        · rw [if_neg (by omega), show n + 1 - (1 + rises a) = n - rises a by omega]; rfl
    · cases n with
      | zero =>
        simp only [beforeRise, he, if_false, ih, Nat.zero_add, Nat.zero_sub]
        split <;> rfl
      | succ n =>
        simp only [beforeRise, he, if_false, ih, Nat.zero_add]
        split <;> rfl

theorem Line.afterRises_add (limit m n : Nat) (l : Line) :
    l.afterRises limit (m + n) = (l.afterRises limit m).bind (Line.afterRises limit n) := by
  induction m generalizing l with
  | zero => rw [Nat.zero_add]; rfl
  | succ m ih =>
    rw [show m + 1 + n = m + n + 1 by omega, Line.afterRises, Line.afterRises]
    split
    · exact ih _
    · rfl

end Sys2Proof.Machine
end

