-- ==== Sys2Proof/Laws/Frame.lean ====
section
/-! SUPPORT. What every procedure of the transport can do, however it ends: bus activity and, for a
read into BUF, writes of BUF; the statuses it can raise; why it can hang; that its events give the
latches and use up the answers; and that every rising clock edge is a `ClockUp()` (R137). -/

namespace Sys2Proof.Machine

/-! ### Clock discipline of a list of events -/

/-- An event after which only an SCL sample may follow (R137). -/
def Event.opens : Event → Bool
  | .sclRel | .sclSample false => true
  | _ => false

/-- A list of events, newest first, that anything may follow. -/
def endsClosed : List Event → Bool
  | [] => true
  | e :: _ => !e.opens

theorem clockDiscipline_cons (e f : Event) (es : List Event) :
    clockDiscipline (e :: f :: es) = ((!e.opens || f.isSclSample) && clockDiscipline (f :: es)) := by
  cases e with
  | sclSample v => cases v <;> simp [clockDiscipline, Event.opens]
  | _ => simp [clockDiscipline, Event.opens]

/-- A disciplined list after a disciplined list that ended closed. -/
theorem clockDiscipline_append (b a : List Event) (hb : clockDiscipline b.reverse = true)
    (hc : endsClosed b = true) (ha : clockDiscipline a.reverse = true) :
    clockDiscipline (a ++ b).reverse = true := by
  rw [List.reverse_append]
  have hlast : ∀ e ∈ b.reverse.getLast?, e.opens = false := by
    intro e he
    rw [List.getLast?_reverse] at he
    cases b with
    | nil => cases he
    | cons f b =>
      cases he
      simpa [endsClosed] using hc
  generalize b.reverse = l at hb hlast
  generalize a.reverse = m at ha
  induction l with
  | nil => exact ha
  | cons e l ih =>
    cases l with
    | nil =>
      cases m with
      | nil => rfl
      | cons f m =>
        have := hlast e rfl
        rw [List.singleton_append, clockDiscipline_cons, this, ha]
        rfl
    | cons f l =>
      rw [clockDiscipline_cons, Bool.and_eq_true] at hb
      have := ih hb.2 fun e he => hlast e (by simpa using he)
      rw [List.cons_append, List.cons_append, clockDiscipline_cons, hb.1]
      exact this

/-- Samples of a wait for a high clock are disciplined. -/
theorem clockDiscipline_samples (k : Nat) (seen : Bool) :
    clockDiscipline (.sclRel ::
      (List.replicate k false ++ (if seen then [true] else [])).map .sclSample) = true := by
  have key : ∀ k, clockDiscipline
      ((List.replicate k false ++ (if seen then [true] else [])).map .sclSample) = true := by
    intro k
    induction k with
    | zero => cases seen <;> rfl
    | succ k ih =>
      rw [List.replicate_succ, List.cons_append, List.map_cons]
      cases hl : (List.replicate k false ++ (if seen then [true] else [])).map Event.sclSample with
      | nil => rfl
      | cons f es =>
        have : f.isSclSample = true := by
          have hf : f ∈ (List.replicate k false ++ (if seen then [true] else [])).map
            Event.sclSample := by rw [hl]; exact List.mem_cons_self
          obtain ⟨v, -, rfl⟩ := List.mem_map.mp hf
          rfl
        rw [clockDiscipline_cons, this, Bool.or_true, Bool.true_and, ← hl]
        exact ih
  cases k with
  | zero => cases seen <;> rfl
  | succ k =>
    have := key (k + 1)
    rw [List.replicate_succ, List.cons_append, List.map_cons] at this ⊢
    rw [clockDiscipline_cons, this]
    rfl

/-- `l'` is what is left of a line once `vs` are the answers it gave (R133). -/
def Line.Gave (l : Line) (vs : List Bool) (l' : Line) : Prop :=
  vs = l.peek vs.length ∧ l' = l.drop vs.length

theorem Line.Gave.none (l : Line) : l.Gave [] l := ⟨rfl, rfl⟩

theorem Line.Gave.trans {l l' l'' : Line} {vs ws : List Bool} (h : l.Gave vs l')
    (h' : l'.Gave ws l'') : l.Gave (vs ++ ws) l'' := by
  obtain ⟨hv, rfl⟩ := h
  obtain ⟨hw, rfl⟩ := h'
  refine ⟨?_, ?_⟩
  · rw [List.length_append, Line.peek_add, ← hv, ← hw]
  · rw [List.length_append, Line.drop_drop]

theorem Line.Gave.cons {l l' : Line} {v : Bool} {vs : List Bool} (hv : v = l.next.1)
    (h : (l.drop 1).Gave vs l') : l.Gave (v :: vs) l' :=
  Line.Gave.trans (vs := [v]) ⟨by rw [hv]; rfl, rfl⟩ h

/-- The samples of a loop are the line's next answers. -/
theorem waitFrom_gave (want : Bool) (limit : Nat) (rest : Bool) (n : Nat) (as : List Bool) :
    (⟨as, rest⟩ : Line).Gave (waitFrom want limit rest n as).samples
      (waitFrom want limit rest n as).line := by
  have hrest : ∀ k, (⟨[], rest⟩ : Line).Gave (List.replicate k rest) ⟨[], rest⟩ := by
    intro k
    induction k with
    | zero => exact Line.Gave.none _
    | succ k ih => exact Line.Gave.cons rfl ih
  induction as generalizing n with
  | nil =>
    rw [waitFrom]
    split
    · exact hrest 1
    · split
      · exact hrest 0
      · exact hrest _
  | cons v vs ih =>
    rw [waitFrom]
    split
    · exact Line.Gave.cons rfl (Line.Gave.none _)
    · split
      · exact Line.Gave.cons rfl (Line.Gave.none _)
      · exact Line.Gave.cons rfl (ih _)

/-! ### The relation -/

/-- Bus activity that started in `s`, with the writes of BUF below `bound`: BUF becomes `b`, the
marks `w`, the latches `drv`, the answers left `scl` and `sda`, and `new` are the events, newest
first. -/
structure Activity (bound : Nat) (s : State) (b : Memory) (w : Written) (drv : Bool × Bool)
    (scl sda : Line) (new : List Event) : Prop where
  kept : bound = 0 → b = s.buf ∧ w = s.written
  marks : w = { s.written with buf := w.buf } ∧
    ∀ j, bound ≤ j → w.buf[j]? = s.written.buf[j]?
  memory : Memory.wf s.buf = true → Memory.wf b = true ∧
    ∀ j, bound ≤ j → Memory.read b j = Memory.read s.buf j
  latches : drv = pinDrive new.reverse s.drv
  clock : s.scl.Gave (sclAnswers new.reverse) scl
  data : s.sda.Gave (sdaAnswers new.reverse) sda

/-- `f` is how a procedure that started in `s` ended. It did bus activity, wrote BUF below `bound`
only, raised one of `codes` if it raised, TIMEOUT only under a limit, hung only for the reason of
R281, set STARTED only with `rise` and cleared it only with `fall`; and its events keep the clock discipline when VARIANT_TAIL raises the clock only by
`ClockUp()`. -/
structure Frames {α : Type} (bound : Nat) (rise fall : Prop) (codes : List Status) (s : State) (f : Flow α) :
    Prop where
  touch : ∃ b w st drv scl sda new, f.state = (s.withBuf b w).bus st drv scl sda new ∧
    Activity bound s b w drv scl sda new ∧
    (st = s.started ∨ (rise ∧ st = true) ∨ (fall ∧ st = false)) ∧
    (.releaseScl ∉ s.cfg.variantTail → clockDiscipline new.reverse = true ∧
      ∀ a t, f = .done a t → endsClosed new = true)
  raised : ∀ st t, f = .raised st t → st ∈ codes ∧ (st = .timeout → s.wlim ≠ 0)
  hung : ∀ w t, f = .hung w t → t.hangReason w = true

variable {α β : Type} {bound : Nat} {rise fall : Prop} {codes : List Status}

theorem State.withBuf_refl (s : State) : s.withBuf s.buf s.written = s := by
  unfold State.withBuf; rfl

/-- Activity that leaves BUF alone. -/
theorem Activity.straight {s : State} {drv : Bool × Bool} {scl sda : Line} {new : List Event}
    (hl : drv = pinDrive new.reverse s.drv) (hc : s.scl.Gave (sclAnswers new.reverse) scl)
    (hd : s.sda.Gave (sdaAnswers new.reverse) sda) :
    Activity bound s s.buf s.written drv scl sda new where
  kept := fun _ => ⟨rfl, rfl⟩
  marks := ⟨rfl, fun _ _ => rfl⟩
  memory := fun h => ⟨h, fun _ _ => rfl⟩
  latches := hl
  clock := hc
  data := hd

/-- Activity after activity. -/
theorem Activity.trans {s t : State} {b b' : Memory} {w w' : Written} {st : Bool}
    {drv drv' : Bool × Bool} {scl sda scl' sda' : Line} {new new' : List Event}
    (h : Activity bound s b w drv scl sda new)
    (ht : t = (s.withBuf b w).bus st drv scl sda new)
    (h' : Activity bound t b' w' drv' scl' sda' new') :
    Activity bound s b' w' drv' scl' sda' (new' ++ new) := by
  subst ht
  refine ⟨?_, ⟨?_, ?_⟩, ?_, ?_, ?_, ?_⟩
  · intro h0
    obtain ⟨rfl, rfl⟩ := h.kept h0
    exact h'.kept h0
  · have h₁ := h'.marks.1
    have h₂ := h.marks.1
    rw [h₁]
    simp only [State.bus_written, State.withBuf]
    rw [h₂]
  · intro j hj
    rw [h'.marks.2 j hj]
    exact h.marks.2 j hj
  · intro h0
    have h₁ := h.memory h0
    have h₂ := h'.memory h₁.1
    exact ⟨h₂.1, fun j hj => (h₂.2 j hj).trans (h₁.2 j hj)⟩
  · rw [List.reverse_append, pinDrive_append, ← h.latches]
    exact h'.latches
  · rw [List.reverse_append, sclAnswers_append]
    exact h.clock.trans h'.clock
  · rw [List.reverse_append, sdaAnswers_append]
    exact h.data.trans h'.data

theorem Frames.mono {codes' : List Status} {s : State} {f : Flow α} (h : Frames bound rise fall codes s f)
    (hc : ∀ c ∈ codes, c ∈ codes') : Frames bound rise fall codes' s f :=
  ⟨h.touch, fun st t e => ⟨hc _ (h.raised st t e).1, (h.raised st t e).2⟩, h.hung⟩

/-- Parameters and limit stay. -/
theorem Frames.cfg_wlim {s : State} {f : Flow α} (h : Frames bound rise fall codes s f) :
    f.state.cfg = s.cfg ∧ f.state.wlim = s.wlim := by
  obtain ⟨b, w, st, drv, scl, sda, new, e, -⟩ := h.touch
  rw [e]
  exact ⟨rfl, rfl⟩

/-- One procedure after another. -/
theorem Frames.bind {s : State} {f : Flow α} {k : α → State → Flow β}
    (h : Frames bound rise fall codes s f) (hk : ∀ a t, f = .done a t → Frames bound rise fall codes t (k a t)) :
    Frames bound rise fall codes s (f.bind k) := by
  cases hf : f with
  | raised st t =>
    subst hf
    obtain ⟨b, w, st', drv, scl, sda, new, e, ha, hst, hd⟩ := h.touch
    exact ⟨⟨b, w, st', drv, scl, sda, new, e, ha, hst,
      fun ht => ⟨(hd ht).1, fun _ _ e => by cases e⟩⟩,
      fun st₁ t₁ e₁ => h.raised st₁ t₁ (by cases e₁; rfl), fun _ _ e => by cases e⟩
  | hung w t =>
    subst hf
    obtain ⟨b, w', st', drv, scl, sda, new, e, ha, hst, hd⟩ := h.touch
    exact ⟨⟨b, w', st', drv, scl, sda, new, e, ha, hst,
      fun ht => ⟨(hd ht).1, fun _ _ e => by cases e⟩⟩, fun _ _ e => (by cases e),
      fun w₁ t₁ e₁ => h.hung w₁ t₁ (by cases e₁; rfl)⟩
  | done a t =>
    replace hk := hk a t hf
    have hcw := h.cfg_wlim
    subst hf
    obtain ⟨b, w, st, drv, scl, sda, new, e, ha, hst, hd⟩ := h.touch
    obtain ⟨b', w', st', drv', scl', sda', new', e', ha', hst', hd'⟩ := hk.touch
    simp only [Flow.state_done] at e hcw
    rw [hcw.1] at hd'
    refine ⟨⟨b', w', st', drv', scl', sda', new' ++ new, ?_, ha.trans e ha', ?_, ?_⟩, ?_,
      hk.hung⟩
    · rw [Flow.bind_done, e', e]
      simp [State.bus, State.withBuf]
    · rw [e, State.bus_started] at hst'
      rcases hst' with rfl | h' | h'
      · exact hst
      · exact .inr (.inl h')
      · exact .inr (.inr h')
    · intro ht
      refine ⟨clockDiscipline_append new new' (hd ht).1 ((hd ht).2 _ _ rfl) (hd' ht).1, ?_⟩
      intro a₁ t₁ e₁
      have := (hd' ht).2 a₁ t₁ e₁
      cases new' with
      | nil => exact (hd ht).2 _ _ rfl
      | cons e new' => exact this
    · intro st₁ t₁ e₁
      rw [← hcw.2]
      exact hk.raised st₁ t₁ e₁

/-- A piece of straight-line bus activity. -/
theorem Frames.straight {s : State} (a : α) (st : Bool) (drv : Bool × Bool) (scl sda : Line)
    (new : List Event) (ha : Activity bound s s.buf s.written drv scl sda new)
    (hst : st = s.started ∨ (rise ∧ st = true) ∨ (fall ∧ st = false))
    (hd : clockDiscipline new.reverse = true) (hc : endsClosed new = true) :
    Frames bound rise fall codes s (.done a (s.bus st drv scl sda new)) :=
  { touch := ⟨s.buf, s.written, st, drv, scl, sda, new, by rw [State.withBuf_refl]; rfl, ha, hst,
      fun _ => ⟨hd, fun _ _ _ => hc⟩⟩
    raised := fun _ _ e => by cases e
    hung := fun _ _ e => by cases e }

/-- Nothing done. -/
theorem Frames.nothing {s : State} (a : α) : Frames bound rise fall codes s (.done a s) :=
  Frames.straight a s.started s.drv s.scl s.sda []
    (.straight rfl (Line.Gave.none _) (Line.Gave.none _)) (.inl rfl) rfl rfl

/-! ### The wait loops and ClockUp -/

theorem WaitEnd.flow_state (e : WaitEnd) (w : WaitLoop) (s : State) : (e.flow w s).state = s := by
  cases e <;> rfl

/-- How a wait loop raises or hangs. -/
theorem waitFrom_flow_raised (want : Bool) (limit : Word) (rest : Bool) (as : List Bool)
    (w : WaitLoop) (s : State) (st : Status) (t : State)
    (e : (waitFrom want limit.toNat rest 0 as).ending.flow w s = .raised st t) :
    st ∈ [Status.timeout] ∧ (st = .timeout → limit ≠ 0) := by
  cases he : (waitFrom want limit.toNat rest 0 as).ending with
  | seen => rw [he] at e; cases e
  | never => rw [he] at e; cases e
  | timeout =>
    rw [he] at e
    cases e
    refine ⟨List.mem_singleton.mpr rfl, fun _ h0 => waitFrom_timeout _ _ _ _ _ he ?_⟩
    rw [h0]
    rfl

theorem clockUp_frames (s : State) : Frames bound rise fall [.timeout] s (clockUp s) := by
  rw [clockUp_eq]
  obtain ⟨k, hk⟩ := waitFrom_samples true s.wlim.toNat s.scl.rest 0 s.scl.answers
  have hgave := waitFrom_gave true s.wlim.toNat s.scl.rest 0 s.scl.answers
  have hraised := waitFrom_flow_raised true s.wlim s.scl.rest s.scl.answers
  have hnever := waitFrom_never true s.wlim.toNat s.scl.rest 0 s.scl.answers
  generalize waitFrom true s.wlim.toNat s.scl.rest 0 s.scl.answers = r at *
  rw [Bool.not_true] at hk
  have hrev : ((r.samples.map Event.sclSample).reverse ++ [Event.sclRel]).reverse =
      .sclRel :: r.samples.map .sclSample := by simp
  refine ⟨⟨s.buf, s.written, s.started, (false, s.sdaDrv), r.line, s.sda, _,
    by rw [WaitEnd.flow_state, State.withBuf_refl], .straight ?_ ?_ ?_, .inl rfl,
    fun _ => ⟨?_, ?_⟩⟩,
    fun st t e => hraised _ _ st t e, ?_⟩
  · rw [hrev, State.drv, pinDrive, pinDrive_clock]
  · rw [hrev, sclAnswers, sclAnswers_clock]
    · exact hgave
    · simp
  · rw [hrev, sdaAnswers, sdaAnswers_clock]
    · exact Line.Gave.none _
    · simp
  · rw [hrev, hk]
    have := clockDiscipline_samples k (decide (r.ending = .seen))
    simpa using this
  · intro a t e
    have hseen : r.ending = .seen := by
      cases he : r.ending <;> rw [he] at e <;> cases e
    rw [hk, if_pos hseen]
    simp [endsClosed, Event.opens]
  · intro w t e
    cases he : r.ending with
    | seen => rw [he] at e; cases e
    | timeout => rw [he] at e; cases e
    | never =>
      rw [he] at e
      cases e
      obtain ⟨h0, hrest, -, hres⟩ := hnever he
      have hw : s.wlim = 0 := BitVec.eq_of_toNat_eq (by simpa using h0)
      simp [State.hangReason, hw, hres, hrest]

/-- `ClockUp()` leaves the data latch. -/
theorem clockUp_sdaDrv (s : State) (a : Unit) (t : State) (h : clockUp s = .done a t) :
    t.sdaDrv = s.sdaDrv := by
  rw [clockUp_eq] at h
  generalize waitFrom true s.wlim.toNat s.scl.rest 0 s.scl.answers = r at h
  cases he : r.ending with
  | seen => rw [he] at h; cases h; rfl
  | timeout => rw [he] at h; cases h
  | never => rw [he] at h; cases h

theorem waitSdaLow_frames (s : State) :
    Frames bound rise fall [.timeout] s (State.waitSdaLow s.releaseSda) := by
  rw [waitSdaLow_eq]
  have hgave := waitFrom_gave false s.wlim.toNat s.sda.rest 0 s.sda.answers
  have hraised := waitFrom_flow_raised false s.wlim s.sda.rest s.sda.answers
  have hnever := waitFrom_never false s.wlim.toNat s.sda.rest 0 s.sda.answers
  generalize waitFrom false s.wlim.toNat s.sda.rest 0 s.sda.answers = r at *
  have hrev : ((r.samples.map Event.sdaSample).reverse ++ [Event.sdaRel]).reverse =
      .sdaRel :: r.samples.map .sdaSample := by simp
  have hopen : ∀ e ∈ (r.samples.map Event.sdaSample).reverse ++ [Event.sdaRel],
      e.opens = false := by
    intro e he
    simp only [List.mem_append, List.mem_reverse, List.mem_map, List.mem_singleton] at he
    rcases he with ⟨v, -, rfl⟩ | rfl <;> rfl
  have hclosed : ∀ es : List Event, (∀ e ∈ es, e.opens = false) →
      clockDiscipline es = true := by
    intro es
    induction es with
    | nil => intro _; rfl
    | cons e es ih =>
      intro h
      cases es with
      | nil => rfl
      | cons f es =>
        rw [clockDiscipline_cons, h e List.mem_cons_self,
          ih fun g hg => h g (List.mem_cons_of_mem _ hg)]
        rfl
  refine ⟨⟨s.buf, s.written, s.started, (s.sclDrv, false), s.scl, r.line, _,
    by rw [WaitEnd.flow_state, State.withBuf_refl], .straight ?_ ?_ ?_, .inl rfl,
    fun _ => ⟨?_, ?_⟩⟩,
    fun st t e => hraised _ _ st t e, ?_⟩
  · rw [hrev, State.drv, pinDrive, pinDrive_data]
  · rw [hrev, sclAnswers, sclAnswers_data]
    · exact Line.Gave.none _
    · simp
  · rw [hrev, sdaAnswers, sdaAnswers_data]
    · exact hgave
    · simp
  · exact hclosed _ fun e he => hopen e (List.mem_reverse.mp he)
  · intro a t e
    cases hl : (r.samples.map Event.sdaSample).reverse ++ [Event.sdaRel] with
    | nil => rfl
    | cons e es => simp [endsClosed, hopen e (by rw [hl]; exact List.mem_cons_self)]
  · intro w t e
    cases he : r.ending with
    | seen => rw [he] at e; cases e
    | timeout => rw [he] at e; cases e
    | never =>
      rw [he] at e
      cases e
      obtain ⟨h0, hrest, -, hres⟩ := hnever he
      have hw : s.wlim = 0 := BitVec.eq_of_toNat_eq (by simpa using h0)
      simp [State.hangReason, hw, hres, hrest]

/-! ### The procedures -/

/-- Straight-line bus activity before a procedure. -/
theorem Frames.after {s t : State} {f : Flow α} (st : Bool) (drv : Bool × Bool) (scl sda : Line)
    (new : List Event) (ht : t = s.bus st drv scl sda new)
    (ha : Activity bound s s.buf s.written drv scl sda new)
    (hst : st = s.started ∨ (rise ∧ st = true) ∨ (fall ∧ st = false))
    (hd : clockDiscipline new.reverse = true) (hc : endsClosed new = true)
    (h : Frames bound rise fall codes t f) : Frames bound rise fall codes s f := by
  subst ht
  exact (Frames.straight (bound := bound) (codes := codes) () st drv scl sda new ha hst hd hc).bind
    (k := fun _ _ => f) fun a t e => by cases e; exact h

/-- Activity without samples: only latches and delays. -/
theorem Activity.silent {s : State} {drv : Bool × Bool} {new : List Event}
    (hl : drv = pinDrive new.reverse s.drv) (hc : sclAnswers new.reverse = [])
    (hd : sdaAnswers new.reverse = []) :
    Activity bound s s.buf s.written drv s.scl s.sda new :=
  .straight hl (by rw [hc]; exact Line.Gave.none _) (by rw [hd]; exact Line.Gave.none _)

theorem wbit_frames (b : Bool) (s : State) : Frames bound rise fall [.timeout] s (wbit b s) := by
  have hd : (s.driveSda b).delay tSetup =
      s.bus s.started (s.sclDrv, !b) s.scl s.sda [.dly 1, if b then .sdaRel else .sdaLow] := by
    cases b <;> rfl
  refine ((clockUp_frames _).bind fun _ t _ => ?_).after _ _ _ _ _ hd
    (by cases b <;> exact .silent rfl rfl rfl) (.inl rfl) (by cases b <;> rfl) (by cases b <;> rfl)
  exact Frames.straight () t.started (true, t.sdaDrv) t.scl t.sda [.dly 4, .sclLow, .dly 4]
    (.silent rfl rfl rfl) (.inl rfl) rfl rfl

theorem rbit_frames (s : State) : Frames bound rise fall [.timeout] s (rbit s) := by
  refine ((clockUp_frames _).bind fun a t hup => ?_).after s.started (s.sclDrv, false) s.scl s.sda
    [.dly 1, .sdaRel] rfl (.silent rfl rfl rfl) (.inl rfl) rfl rfl
  have hdrv : t.sdaDrv = false := clockUp_sdaDrv _ a t hup
  have heq : (t.delay tHigh).sampleSda.2.assertScl.delay tLow = t.bus t.started (true, t.sdaDrv)
      t.scl t.sda.next.2 [.dly 4, .sclLow, .sdaSample t.sda.next.1, .dly 4] ∧
      (t.delay tHigh).sampleSda.1 = t.sda.next.1 := by
    have hne : ¬(t.delay tHigh).sdaDrv = true := by rw [State.delay_sdaDrv, hdrv]; nofun
    constructor <;> rw [State.sampleSda, if_neg hne] <;> rfl
  dsimp only
  rw [heq.1, heq.2]
  exact Frames.straight t.sda.next.1 t.started (true, t.sdaDrv) t.scl t.sda.next.2
    [.dly 4, .sclLow, .sdaSample t.sda.next.1, .dly 4]
    (.straight rfl (Line.Gave.none _) (Line.Gave.cons rfl (by rw [Line.next_snd]; exact Line.Gave.none _)))
    (.inl rfl) rfl rfl

theorem generalStart_frames (s : State) : Frames bound rise fall [.timeout] s (generalStart s) := by
  refine ((clockUp_frames _).bind fun _ t _ => ?_).after s.started (s.sclDrv, false) s.scl s.sda
    [.dly 1, .sdaRel] rfl (.silent rfl rfl rfl) (.inl rfl) rfl rfl
  exact Frames.straight () t.started (true, true) t.scl t.sda
    [.dly 4, .sclLow, .dly 4, .sdaLow, .dly 4] (.silent rfl rfl rfl) (.inl rfl) rfl rfl

theorem stopSeq_frames (s : State) (hfall : fall) : Frames bound rise fall [.timeout] s (stopSeq s) := by
  refine ((clockUp_frames _).bind fun _ t _ => ?_).after s.started (s.sclDrv, true) s.scl s.sda
    [.dly 1, .sdaLow] rfl (.silent rfl rfl rfl) (.inl rfl) rfl rfl
  exact Frames.straight () false (t.sclDrv, false) t.scl t.sda
    [.dly 4, .sdaRel, .dly 4] (.silent rfl rfl rfl) (.inr (.inr ⟨hfall, rfl⟩)) rfl rfl

/-- A raw release of SCL in VARIANT_TAIL breaks the discipline; the rest of the frame stands. -/
theorem Frames.undisciplined {s t : State} {f : Flow α} (st : Bool) (drv : Bool × Bool)
    (new : List Event) (ht : t = s.bus st drv s.scl s.sda new)
    (ha : Activity bound s s.buf s.written drv s.scl s.sda new) (hst : st = s.started)
    (hbad : .releaseScl ∈ s.cfg.variantTail) (h : Frames bound rise fall codes t f) :
    Frames bound rise fall codes s f := by
  obtain ⟨b, w, st', drv', scl', sda', new', e, ha', hst', -⟩ := h.touch
  refine ⟨⟨b, w, st', drv', scl', sda', new' ++ new, ?_,
    ha.trans (by rw [State.withBuf_refl]; exact ht) ha', ?_,
    fun hn => absurd hbad hn⟩, ?_, h.hung⟩
  · rw [e, ht]
    simp [State.bus, State.withBuf]
  · rwa [ht, State.bus_started, hst] at hst'
  · intro c u e
    have := h.raised c u e
    rwa [ht, State.bus_wlim] at this

theorem runTail_frames (ops : List TailOp) (s : State) (hsub : ∀ op ∈ ops, op ∈ s.cfg.variantTail) :
    Frames bound rise fall [.timeout] s (runTail ops s) := by
  induction ops generalizing s with
  | nil => exact Frames.nothing ()
  | cons op ops ih =>
    have hrest : ∀ t : State, t.cfg = s.cfg → Frames bound rise fall [.timeout] t (runTail ops t) :=
      fun t ht => ih t fun o ho => by rw [ht]; exact hsub o (List.mem_cons_of_mem _ ho)
    cases op with
    | assertScl =>
      exact (hrest s.assertScl rfl).after s.started (true, s.sdaDrv) s.scl s.sda [.sclLow]
        rfl (.silent rfl rfl rfl) (.inl rfl) rfl rfl
    | releaseScl =>
      exact (hrest s.releaseScl rfl).undisciplined s.started (false, s.sdaDrv) [.sclRel]
        rfl (.silent rfl rfl rfl) rfl (hsub _ List.mem_cons_self)
    | assertSda =>
      exact (hrest s.assertSda rfl).after s.started (s.sclDrv, true) s.scl s.sda [.sdaLow]
        rfl (.silent rfl rfl rfl) (.inl rfl) rfl rfl
    | releaseSda =>
      exact (hrest s.releaseSda rfl).after s.started (s.sclDrv, false) s.scl s.sda [.sdaRel]
        rfl (.silent rfl rfl rfl) (.inl rfl) rfl rfl
    | delay us =>
      exact (hrest (s.delay us) rfl).after s.started s.drv s.scl s.sda [.dly us] rfl
        (.silent rfl rfl rfl) (.inl rfl) rfl rfl
    | clockUp =>
      refine (clockUp_frames s).bind fun _ t ht => hrest t ?_
      have := (clockUp_frames (bound := 0) (rise := False) (fall := False) s).cfg_wlim.1
      rwa [ht] at this

theorem startSeq_frames (s : State) (hrise : rise) : Frames bound rise fall [.timeout] s (startSeq s) := by
  refine Frames.after true s.drv s.scl s.sda [] (t := { s with started := true }) rfl
    (.silent rfl rfl rfl) (.inr (.inl ⟨hrise, rfl⟩)) rfl rfl ?_
  refine (generalStart_frames _).bind fun _ t _ => ?_
  cases t.mode with
  | normal => exact Frames.nothing ()
  | sensorVariant => exact runTail_frames _ t fun _ h => h

theorem optionally_frames (c : Bool) (p : State → Flow Unit) (s : State)
    (h : c = true → ∀ t, Frames bound rise fall codes t (p t)) :
    Frames bound rise fall codes s (optionally c p s) := by
  cases c with
  | false => exact Frames.nothing ()
  | true => exact h rfl s

theorem writeBits_frames (bits : List Bool) (s : State) :
    Frames bound rise fall [.timeout] s (writeBits bits s) := by
  induction bits generalizing s with
  | nil => exact Frames.nothing ()
  | cons b bits ih => exact (wbit_frames b s).bind fun _ t _ => ih t

theorem writeBytes_frames (bytes : List Byte) (s : State) :
    Frames bound rise fall [.timeout] s (writeBytes bytes s) := by
  induction bytes generalizing s with
  | nil => exact Frames.nothing _
  | cons b bytes ih =>
    refine (writeBits_frames _ s).bind fun _ t _ => (rbit_frames t).bind fun nack u _ => ?_
    cases nack with
    | true => exact Frames.nothing _
    | false => exact ih u

/-- WriteSeq, however it ends (R170). -/
theorem writeSeq_frames (bytes : List Byte) (S P : Bool) (s : State) (hS : S = true → rise)
    (hP : P = true → fall) :
    Frames bound rise fall [.timeout] s (writeSeq bytes S P s) :=
  (optionally_frames S _ s fun h t => startSeq_frames t (hS h)).bind fun _ t _ =>
    (writeBytes_frames bytes t).bind fun _ u _ =>
      (optionally_frames P _ u fun h v => stopSeq_frames v (hP h)).bind fun _ _ _ => Frames.nothing _

theorem readBits_frames (n : Nat) (v : Byte) (s : State) :
    Frames bound rise fall [.timeout] s (readBits n v s) := by
  induction n generalizing v s with
  | zero => exact Frames.nothing _
  | succ n ih => exact (rbit_frames s).bind fun _ t _ => ih _ t

/-- Storing one received byte. -/
theorem Frames.storing {s : State} {f : Flow α} (i : Nat) (v : Byte) (hi : i < bound)
    (hb : bound ≤ bufSize) (h : Frames bound rise fall codes (s.setBuf i v) f) : Frames bound rise fall codes s f := by
  obtain ⟨b, w, st, drv, scl, sda, new, e, ha, hst, hd⟩ := h.touch
  have hs : (s.setBuf i v).withBuf b w = s.withBuf b w := by
    simp only [State.setBuf, State.withBuf]
  rw [hs] at e
  simp only [State.setBuf_cfg] at hd
  obtain ⟨hkept, ⟨hm₁, hm₂⟩, hmem, hl, hc, hda⟩ := ha
  refine ⟨⟨b, w, st, drv, scl, sda, new, e, ⟨fun h0 => absurd h0 (by omega), ⟨?_, ?_⟩, ?_, hl, hc,
    hda⟩, hst, hd⟩, fun c t ht => by simpa using h.raised c t ht, h.hung⟩
  · rw [hm₁]
    simp
  · intro j hj
    rw [hm₂ j hj, State.setBuf_written]
    exact Vector.getElem?_setIfInBounds_ne (by omega)
  · intro h0
    have := hmem (State.setBuf_wf s i v (by omega) h0)
    refine ⟨this.1, fun j hj => ?_⟩
    rw [this.2 j hj, State.setBuf_buf, Memory.read_write _ _ _ _ h0, if_neg (by omega)]

theorem readBytes_frames (toBuf ackLast : Bool) (n i : Nat) (s : State)
    (hi : toBuf = true → i + n ≤ bound ∧ bound ≤ bufSize) :
    Frames bound rise fall [.timeout] s (readBytes toBuf ackLast n i s) := by
  induction n generalizing i s with
  | zero => exact Frames.nothing _
  | succ n ih =>
    refine (readBits_frames 8 0 s).bind fun v t _ => ?_
    have hrest : ∀ u, Frames bound rise fall [.timeout] u
        ((wbit (n == 0 && !ackLast) u).bind fun _ s =>
          (readBytes toBuf ackLast n (i + 1) s).bind fun vs s => .done (v :: vs) s) := fun u =>
      (wbit_frames _ u).bind fun _ x _ =>
        (ih (i + 1) x fun h => by have := hi h; omega).bind fun _ _ _ => Frames.nothing _
    cases toBuf with
    | false => exact hrest t
    | true =>
      have := hi rfl
      exact Frames.storing i v (by omega) this.2 (hrest _)

theorem readReady_frames (s : State) : Frames bound rise fall [.timeout] s (readReady s) := by
  rw [readReady]
  cases s.mode with
  | normal => exact Frames.nothing ()
  | sensorVariant => exact waitSdaLow_frames s

/-- ReadSeq, however it ends (R172, R173). -/
theorem readSeq_frames (toBuf : Bool) (len : Nat) (ackLast P : Bool) (s : State)
    (hlen : toBuf = true → len ≤ bound ∧ bound ≤ bufSize) (hP : P = true → fall) :
    Frames bound rise fall [.timeout] s (readSeq toBuf len ackLast P s) :=
  (readReady_frames s).bind fun _ t _ =>
    (readBytes_frames toBuf ackLast len 0 t fun h => by have := hlen h; omega).bind fun _ u _ =>
      (optionally_frames P _ u fun h v => stopSeq_frames v (hP h)).bind fun _ _ _ => Frames.nothing _

/-- A failure with nothing done. -/
theorem Frames.raising {s : State} (st : Status) (hst : st ∈ codes) (hne : st ≠ .timeout) :
    Frames (α := α) bound rise fall codes s (.raised st s) where
  touch := ⟨s.buf, s.written, s.started, s.drv, s.scl, s.sda, [],
    by rw [State.withBuf_refl]; rfl, .silent rfl rfl rfl, .inl rfl,
    fun _ => ⟨rfl, fun _ _ e => by cases e⟩⟩
  raised := fun st' t e => by cases e; exact ⟨hst, fun h => absurd h hne⟩
  hung := fun _ _ e => by cases e

theorem writeStep_frames (bytes : List Byte) (S P : Bool) (s : State) (hS : S = true → rise)
    (hP : P = true → fall) :
    Frames bound rise fall [.timeout, .i2cError] s (writeStep bytes S P s) := by
  refine ((writeSeq_frames bytes S P s hS hP).mono (by simp)).bind fun st t _ => ?_
  split
  · exact Frames.nothing ()
  · exact Frames.raising _ (by simp) (by simp)

theorem readRegister_frames (reg : Byte) (n : Nat) (s : State) (hrise : rise) (hfall : fall) :
    Frames bound rise fall [.timeout, .i2cError] s (readRegister reg n s) :=
  (writeStep_frames _ _ _ s (fun _ => hrise) fun _ => hfall).bind fun _ t _ =>
    (writeStep_frames _ _ _ t (fun _ => hrise) fun _ => hfall).bind fun _ u _ =>
    (readSeq_frames false n false true u (fun h => by cases h) fun _ => hfall).mono
      (codes := [.timeout]) (by simp)

theorem convert_frames (control : Byte) (us n : Nat) (s : State) (hrise : rise) (hfall : fall) :
    Frames bound rise fall [.timeout, .i2cError] s (convert control us n s) :=
  (writeStep_frames _ _ _ s (fun _ => hrise) fun _ => hfall).bind fun _ t _ =>
    (readRegister_frames regMsb n (t.delay us) hrise hfall).after t.started t.drv t.scl t.sda [.dly us]
      rfl (.silent rfl rfl rfl) (.inl rfl) rfl rfl

end Sys2Proof.Machine
end

