-- ==== Sys2Proof/Laws/Exec.lean ====
section
/-! SUPPORT. What every command can do, however it ends, over `Frames`: the provers cite `exec_ran`
and never unfold a command. -/

namespace Sys2Proof.Machine

/-- How command `i` ended from the state `v` its bus activity left: with a status, in a hang, or with
the results it writes on success (R44, R272, R281). -/
inductive Ended (i : Instr) (codes : List Status) (v t : State) : Prop where
  | status (st : Status) (hst : st ∈ codes) (ht : t = v.endCommand st)
  | hung (w : WaitLoop) (hw : v.hangReason w = true) (ht : t = { v with seq := .waiting i w })
  | cal (c : Vector Half 11) (hi : i = .rdcal) (ht : t = (v.setAllCal c).endCommand .ok)
  | ut (x : BitVec 16) (hi : i = .rdt) (ht : t = (v.setUt x).endCommand .ok)
  | up (x : BitVec 19) (oss : BitVec 2) (hi : i = .rdp oss)
      (ht : t = ((v.setUp x).setOss oss).endCommand .ok)
  | results (a b : Word) (hi : i = .comp) (ht : t = (v.setResults a b).endCommand .ok)

/-- Everything command `i` can do from `s`, however it ends: MODE as its rule allows, bus activity
with BUF, latches, answers and trace accounted for, and an end. -/
structure Ran (i : Instr) (s t : State) : Prop where
  run : ∃ m b w st drv scl sda new,
    Ended i (statuses i s) ((({ s with mode := m } : State).withBuf b w).bus st drv scl sda new) t ∧
    Activity (bufBound i) s b w drv scl sda new ∧
    (st = s.started ∨ (canStart i = true ∧ st = true) ∨ (canStop i = true ∧ st = false)) ∧
    (m = s.mode ∨ s.started = false ∧
      ((∃ k, i = .setmode k ∧ t.status = 0) ∨ isRegisterCommand i = true)) ∧
    ((i = .comp ∨ ∃ k, i = .setmode k) → new = [] ∧ drv = s.drv) ∧
    (i ≠ .init → .releaseScl ∉ s.cfg.variantTail → clockDiscipline new.reverse = true)

/-- The statuses a WriteSeq returns (R170). -/
theorem writeBytes_status (bytes : List Byte) (s : State) (st : Status) (t : State)
    (h : writeBytes bytes s = .done st t) : st = .ok ∨ st = .noAck := by
  induction bytes generalizing s with
  | nil => cases h; exact .inl rfl
  | cons b bytes ih =>
    rw [writeBytes] at h
    cases h₁ : writeBits (wireBits b) s with
    | done a u =>
      rw [h₁, Flow.bind_done] at h
      cases h₂ : rbit u with
      | done nack v =>
        rw [h₂, Flow.bind_done] at h
        cases nack with
        | true => cases h; exact .inr rfl
        | false => exact ih v h
      | raised _ _ => rw [h₂] at h; cases h
      | hung _ _ => rw [h₂] at h; cases h
    | raised _ _ => rw [h₁] at h; cases h
    | hung _ _ => rw [h₁] at h; cases h

theorem Flow.bind_eq_done {α β : Type} {f : Flow α} {k : α → State → Flow β} {b : β} {t : State}
    (h : f.bind k = .done b t) : ∃ a u, f = .done a u ∧ k a u = .done b t := by
  cases f with
  | done a u => exact ⟨a, u, rfl, h⟩
  | raised _ _ => cases h
  | hung _ _ => cases h

theorem writeSeq_status (bytes : List Byte) (S P : Bool) (s : State) (st : Status) (t : State)
    (h : writeSeq bytes S P s = .done st t) : st = .ok ∨ st = .noAck := by
  obtain ⟨_, u, -, h⟩ := Flow.bind_eq_done h
  obtain ⟨st', v, hw, h⟩ := Flow.bind_eq_done h
  obtain ⟨_, w, -, h⟩ := Flow.bind_eq_done h
  cases h
  exact writeBytes_status _ _ _ _ hw

/-- A register command in a closed transmission runs its body in NORMAL mode (R200). -/
theorem registerCommand_closed (i : Instr) (body : State → Flow Status) (s : State)
    (h : s.started = false) : registerCommand i body s =
      (body { s with mode := .normal }).timeoutAsI2c.close i := by
  rw [registerCommand, if_neg (by rw [h]; exact Bool.false_ne_true)]

/-- A register command in an open transmission (R200). -/
theorem registerCommand_open (i : Instr) (body : State → Flow Status) (s : State)
    (h : s.started = true) :
    registerCommand i body s = .next (s.endCommand .modeChangeError) := by
  rw [registerCommand, if_pos h]

/-- A command that ends with a status and does nothing else. -/
theorem Ran.only_status (i : Instr) (s : State) (st : Status) (hst : st ∈ statuses i s) :
    Ran i s (s.endCommand st) where
  run := ⟨s.mode, s.buf, s.written, s.started, s.drv, s.scl, s.sda, [],
    .status st hst (by rw [State.withBuf_refl]; rfl), .silent rfl rfl rfl, .inl rfl, .inl rfl,
    fun _ => ⟨rfl, rfl⟩, fun _ _ => rfl⟩

/-- A transport command that runs the procedure outcome `f`. -/
theorem Ran.of_frames {codes : List Status} (i : Instr) (s : State) (f : Flow Status)
    (h : Frames (bufBound i) (canStart i = true) (canStop i = true) codes s f)
    (hi : ¬(i = .comp ∨ ∃ k, i = .setmode k))
    (hc : ∀ c ∈ codes, (c = .timeout → s.wlim ≠ 0) → c ∈ statuses i s)
    (hdone : ∀ st t, f = .done st t → st ∈ statuses i s) :
    ∃ t, f.close i = .next t ∧ Ran i s t := by
  obtain ⟨b, w, st, drv, scl, sda, new, e, ha, hst, hd⟩ := h.touch
  have ran : ∀ t, Ended i (statuses i s) f.state t → Ran i s t := fun t ht =>
    ⟨⟨s.mode, b, w, st, drv, scl, sda, new, by rw [e] at ht; exact ht, ha, hst, .inl rfl,
      fun hn => absurd hn hi, fun _ ht => (hd ht).1⟩⟩
  cases hf : f with
  | done c u => exact ⟨_, rfl, ran _ (.status c (hdone c u hf) (by rw [hf]; rfl))⟩
  | raised c u =>
    exact ⟨_, rfl, ran _ (.status c (hc _ (h.raised c u hf).1 (h.raised c u hf).2)
      (by rw [hf]; rfl))⟩
  | hung w u => exact ⟨_, rfl, ran _ (.hung w (by rw [hf]; exact h.hung w u hf) (by rw [hf]; rfl))⟩

/-- A register command: its body `g`, then `k` with what it received. -/
theorem Ran.of_register {α : Type} (i : Instr) (s : State) (g : State → Flow α)
    (k : α → State → Flow Status) (hreg : isRegisterCommand i = true)
    (h : ∀ t, Frames 0 True True [.timeout, .i2cError] t (g t))
    (hk : ∀ a v, ∃ u, k a v = .done .ok u ∧ Ended i (statuses i s) v (u.endCommand .ok)) :
    ∃ t, registerCommand i (fun s => (g s).bind k) s = .next t ∧ Ran i s t := by
  have hcodes : statuses i s = [.ok, .i2cError, .modeChangeError] := by
    cases i <;> first | rfl | cases hreg
  have hbound : bufBound i = 0 := by cases i <;> first | rfl | cases hreg
  have hstart : canStart i = true := by cases i <;> first | rfl | cases hreg
  have hstop : canStop i = true := by cases i <;> first | rfl | cases hreg
  have hi : ¬(i = .comp ∨ ∃ k, i = .setmode k) := by
    rintro (rfl | ⟨k, rfl⟩) <;> cases hreg
  cases hs : s.started with
  | true =>
    exact ⟨_, registerCommand_open i _ s hs, Ran.only_status i s _ (by rw [hcodes]; simp)⟩
  | false =>
    rw [registerCommand_closed i _ s hs]
    have hg := h { s with mode := .normal }
    obtain ⟨b, w, st, drv, scl, sda, new, e, ha, hst, hd⟩ := hg.touch
    have ran : ∀ t, Ended i (statuses i s) (g { s with mode := .normal }).state t → Ran i s t :=
      fun t ht => ⟨⟨.normal, b, w, st, drv, scl, sda, new, by rw [e] at ht; exact ht,
        by rw [hbound]; exact ⟨ha.kept, ha.marks, ha.memory, ha.latches, ha.clock, ha.data⟩,
        hst.imp_right (Or.imp (fun h => ⟨hstart, h.2⟩) fun h => ⟨hstop, h.2⟩),
        .inr ⟨hs, .inr hreg⟩, fun hn => absurd hn hi, fun _ ht => (hd ht).1⟩⟩
    cases hf : g { s with mode := .normal } with
    | done a v =>
      rw [hf] at ran
      obtain ⟨u, hu, hend⟩ := hk a v
      rw [Flow.bind_done, hu]
      exact ⟨_, rfl, ran _ hend⟩
    | raised c v =>
      have hc := (hg.raised c v hf).1
      rw [hf] at ran
      refine ⟨v.endCommand .i2cError, ?_, ran _ (.status .i2cError (by rw [hcodes]; simp) rfl)⟩
      simp only [List.mem_cons, List.not_mem_nil, or_false] at hc
      rcases hc with rfl | rfl <;> rfl
    | hung c v =>
      rw [hf] at ran
      refine ⟨_, rfl, ran _ (.hung c (hg.hung c v hf) rfl)⟩

/-- **What a command can do.** Every command answers a next state, and every next state is a
`Ran`. -/
theorem exec_ran (i : Instr) (s : State) : ∃ t, exec i s = .next t ∧ Ran i s t := by
  have waits : ∀ c, c = Status.timeout → (c = .timeout → s.wlim ≠ 0) →
      c ∈ (if s.wlim = 0 then [] else [Status.timeout]) := by
    rintro c rfl h
    rw [if_neg (h rfl)]
    exact List.mem_singleton.mpr rfl
  cases i with
  | init =>
    exact ⟨_, rfl, ⟨⟨s.mode, s.buf, s.written, s.started, (false, false), s.scl, s.sda,
      [.sdaRel, .sclRel], .status .ok (List.mem_singleton.mpr rfl) (by rw [State.withBuf_refl]; rfl),
      .silent rfl rfl rfl, .inl rfl, .inl rfl, (by rintro (h | ⟨_, h⟩) <;> cases h),
      fun h => absurd rfl h⟩⟩⟩
  | start =>
    refine Ran.of_frames (codes := [.timeout]) .start s _
      ((startSeq_frames s rfl).bind fun _ _ _ => Frames.nothing _)
      (by rintro (h | ⟨_, h⟩) <;> cases h) ?_ ?_
    · intro c hc h
      exact List.mem_cons_of_mem _ (waits c (List.mem_singleton.mp hc) h)
    · intro st t h
      obtain ⟨_, u, -, h⟩ := Flow.bind_eq_done h
      cases h
      exact List.mem_cons_self
  | stop =>
    refine Ran.of_frames (codes := [.timeout]) .stop s _
      ((stopSeq_frames s rfl).bind fun _ _ _ => Frames.nothing _)
      (by rintro (h | ⟨_, h⟩) <;> cases h) ?_ ?_
    · intro c hc h
      exact List.mem_cons_of_mem _ (waits c (List.mem_singleton.mp hc) h)
    · intro st t h
      obtain ⟨_, u, -, h⟩ := Flow.bind_eq_done h
      cases h
      exact List.mem_cons_self
  | setmode m =>
    rw [exec, execSetmode]
    split
    · exact ⟨_, rfl, Ran.only_status _ s _ (by simp [statuses])⟩
    · rename_i hs
      cases modeOfField m with
      | none => exact ⟨_, rfl, Ran.only_status _ s _ (by simp [statuses])⟩
      | some mode =>
        exact ⟨_, rfl, ⟨⟨mode, s.buf, s.written, s.started, s.drv, s.scl, s.sda, [],
          .status .ok (by simp [statuses]) rfl, .silent rfl rfl rfl, .inl rfl,
          .inr ⟨by simpa using hs, .inl ⟨m, rfl, rfl⟩⟩, fun _ => ⟨rfl, rfl⟩, fun _ _ => rfl⟩⟩⟩
  | wrb len ws wp =>
    rw [exec, execWrb]
    cases hl : lenLegal len with
    | false =>
      exact ⟨_, rfl, Ran.only_status _ s _ (by simp [statuses, hl])⟩
    | true =>
      have hcodes : statuses (.wrb len ws wp) s =
          .ok :: .noAck :: if s.wlim = 0 then [] else [Status.timeout] := by
        simp [statuses, hl]
      refine Ran.of_frames (codes := [.timeout]) (.wrb len ws wp) s _
        (writeSeq_frames _ ws wp s (fun h => h) fun h => h)
        (by rintro (h | ⟨_, h⟩) <;> cases h) ?_ ?_
      · intro c hc h
        rw [hcodes]
        exact List.mem_cons_of_mem _ (List.mem_cons_of_mem _
          (waits c (List.mem_singleton.mp hc) h))
      · intro st t h
        rw [hcodes]
        rcases writeSeq_status _ _ _ _ _ _ h with rfl | rfl <;> simp
  | rdb len al wp =>
    rw [exec, execRdb]
    cases hl : lenLegal len with
    | false =>
      exact ⟨_, rfl, Ran.only_status _ s _ (by simp [statuses, hl])⟩
    | true =>
      have hcodes : statuses (.rdb len al wp) s =
          .ok :: if s.wlim = 0 then [] else [Status.timeout] := by
        simp [statuses, hl]
      have hb : bufBound (.rdb len al wp) = len.toNat := by rw [bufBound, hl]; rfl
      refine Ran.of_frames (codes := [.timeout]) (.rdb len al wp) s _
        ((readSeq_frames true len.toNat al wp s
          (fun _ => ⟨hb.symm.le, by rw [hb]; simpa [lenLegal, bufSize] using hl⟩) fun h => h).bind
            fun _ _ _ => Frames.nothing _)
        (by rintro (h | ⟨_, h⟩) <;> cases h) ?_ ?_
      · intro c hc h
        rw [hcodes]
        exact List.mem_cons_of_mem _ (waits c (List.mem_singleton.mp hc) h)
      · intro st t h
        rw [hcodes]
        obtain ⟨_, u, -, h⟩ := Flow.bind_eq_done h
        cases h
        exact List.mem_cons_self
  | rdcal =>
    exact Ran.of_register .rdcal s (readRegister regCal calBytes) _ rfl
      (fun t => readRegister_frames _ _ t trivial trivial) fun rx v => ⟨_, rfl, .cal _ rfl rfl⟩
  | rdt =>
    exact Ran.of_register .rdt s (convert cmdTemp tConvTemp 2) _ rfl
      (fun t => convert_frames _ _ _ t trivial trivial) fun rx v => ⟨_, rfl, .ut _ rfl rfl⟩
  | rdp oss =>
    exact Ran.of_register (.rdp oss) s (convert (cmdPres oss) tConvPres 3) _ rfl
      (fun t => convert_frames _ _ _ t trivial trivial) fun rx v => ⟨_, rfl, .up _ oss rfl rfl⟩
  | comp =>
    rw [exec, execComp]
    cases compensate s.cfg.divRound s.compInput with
    | none => exact ⟨_, rfl, Ran.only_status _ s _ (by simp [statuses])⟩
    | some r =>
      exact ⟨_, rfl, ⟨⟨s.mode, s.buf, s.written, s.started, s.drv, s.scl, s.sda, [],
        .results r.1 r.2 rfl (by rw [State.withBuf_refl]; rfl), .silent rfl rfl rfl, .inl rfl,
        .inl rfl, fun _ => ⟨rfl, rfl⟩, fun _ _ => rfl⟩⟩⟩

end Sys2Proof.Machine
end

