-- ==== Sys2Proof/Laws/PerInstr.lean ====
section
/-! SUPPORT. One lemma per command about its word: the opcode of its row of 30_encoding R94, no
reserved bit set (R91, R92, R93, R95). -/

namespace Sys2Proof.Laws.WordForm

open Sys2Proof Sys2Proof.Machine

/-- The opcode of a command (R94). -/
def opcode : Instr → BitVec 4
  | .init => 0x1
  | .start => 0x2
  | .stop => 0x3
  | .setmode _ => 0x4
  | .wrb _ _ _ => 0x5
  | .rdb _ _ _ => 0x6
  | .rdcal => 0x7
  | .rdt => 0x8
  | .rdp _ => 0x9
  | .comp => 0xA

/-- The word of a command carries its opcode and no reserved bit. -/
abbrev Statement (i : Instr) : Prop :=
  opcodeOf (encode i) = opcode i ∧ encode i &&& reservedBits (encode i) = 0

theorem init : Statement .init := by decide

theorem start : Statement .start := by decide

theorem stop : Statement .stop := by decide

theorem setmode (m : BitVec 2) : Statement (.setmode m) := by decide +revert

theorem wrb (len : BitVec 6) (withStart withStop : Bool) :
    Statement (.wrb len withStart withStop) := by decide +revert

theorem rdb (len : BitVec 6) (ackLast withStop : Bool) : Statement (.rdb len ackLast withStop) := by decide +revert

theorem rdcal : Statement .rdcal := by decide

theorem rdt : Statement .rdt := by decide

theorem rdp (oss : BitVec 2) : Statement (.rdp oss) := by decide +revert

theorem comp : Statement .comp := by decide

end Sys2Proof.Laws.WordForm
end

