-- ==== Sys2Proof/Laws/Script.lean ====
section
/-! SUPPORT. What each procedure of the transport does on any clock, as a list of events: `Follows`
says that the procedure carries the list out whole when each rise of the clock comes, and up to the
first rise that does not come otherwise. Provers cite the `_follows` lemma of a procedure and
never unfold it. -/

namespace Sys2Proof.Machine

/-! ### The relation -/

/-- The registers a procedure of the transport writes beside the pins: STARTED, BUF and its marks. -/
abbrev TransportRegs := Bool × Memory × Written

/-- STARTED as given, BUF as it is. -/
def State.regs (s : State) (started : Bool) : TransportRegs := (started, s.buf, s.written)

/-- `s` after the events `evs`, with the registers `r`; `scl` are the answers of SCL left and `tr` the
events with their failed clock samples, newest first. -/
def State.played (s : State) (r : TransportRegs) (evs : List Event) (scl : Line)
    (tr : List Event) : State :=
  (s.withBuf r.2.1 r.2.2).bus r.1 (pinDrive evs s.drv) scl (s.sda.drop (sdaAnswers evs).length) tr

/-- A procedure in a wait that failed: a raise or a hang (R135). -/
def WaitEnd.broken {α : Type} (e : WaitEnd) (w : WaitLoop) (s : State) : Flow α :=
  match e with
  | .never => .hung w s
  | .seen | .timeout => .raised .timeout s

/-- `f` is how a procedure that started in `s` ended, and `evs` are its events on an unstretched
clock. If the clock rises as often as they ask, it carried them all out and ended with `fin`, in the
registers `done`; if the rise after the first `m` does not come, it carried out what stands before
that rise, in the registers `cut m`, and the wait's failed samples came last. -/
structure Follows {α : Type} (f : Flow α) (s : State) (evs : List Event) (fin : State → Flow α)
    (done : TransportRegs) (cut : Nat → TransportRegs) : Prop where
  complete : ∀ l, s.clockAfter (rises evs) = some l →
    ∃ tr, quiet tr = evs ∧ f = fin (s.played done evs l tr)
  broken : ∀ m l, m < rises evs → s.clockAfter m = some l → (s.clockWait l).ending ≠ .seen →
    ∃ tr, quiet tr = beforeRise m evs ∧
      f = (s.clockWait l).ending.broken .sclHigh (s.played (cut m) (beforeRise m evs)
        (s.clockWait l).line
        (List.replicate (s.clockWait l).samples.length (.sclSample false) ++ tr))

variable {α β : Type} {s : State} {f : Flow α} {evs evs₁ evs₂ : List Event}
  {done done₁ done₂ : TransportRegs} {cut cut₁ cut₂ : Nat → TransportRegs}

theorem State.played_played (l₁ l₂ : Line) (tr₁ tr₂ : List Event) :
    (s.played done₁ evs₁ l₁ tr₁).played done₂ evs₂ l₂ tr₂ =
      s.played done₂ (evs₁ ++ evs₂) l₂ (tr₂ ++ tr₁) := by
  simp [State.played, State.bus, State.withBuf, State.drv, pinDrive_append, sdaAnswers_append,
    Line.drop_drop]

theorem Flow.bind_broken (e : WaitEnd) (w : WaitLoop) (k : α → State → Flow β) :
    (e.broken w s : Flow α).bind k = e.broken w s := by
  cases e <;> rfl

/-- A procedure that ended in a failure ends the command's body with it. -/
theorem Follows.bind_raised {st : Status} (k : α → State → Flow β)
    (h : Follows f s evs (.raised st) done cut) :
    Follows (f.bind k) s evs (.raised st) done cut where
  complete := fun l hl => by
    obtain ⟨tr, hq, e⟩ := h.complete l hl
    exact ⟨tr, hq, by rw [e]; rfl⟩
  broken := fun m l hm hl hw => by
    obtain ⟨tr, hq, e⟩ := h.broken m l hm hl hw
    exact ⟨tr, hq, by rw [e, Flow.bind_broken]⟩

/-- One procedure after another. -/
theorem Follows.bind_cut {a : α} {k : α → State → Flow β} {fin : State → Flow β}
    (h : Follows f s evs₁ (.done a) done₁ cut₁)
    (hk : ∀ l tr, Follows (k a (s.played done₁ evs₁ l tr)) (s.played done₁ evs₁ l tr) evs₂ fin
      done₂ cut₂) :
    Follows (f.bind k) s (evs₁ ++ evs₂) fin done₂
      (fun m => if m < rises evs₁ then cut₁ m else cut₂ (m - rises evs₁)) where
  complete := fun l hl => by
    rw [rises_append, State.clockAfter, Line.afterRises_add, Option.bind_eq_some_iff] at hl
    obtain ⟨l₁, hl₁, hl⟩ := hl
    obtain ⟨tr₁, hq₁, e₁⟩ := h.complete l₁ hl₁
    obtain ⟨tr₂, hq₂, e₂⟩ := (hk l₁ tr₁).complete l hl
    exact ⟨tr₂ ++ tr₁, by rw [quiet_append, hq₁, hq₂],
      by rw [e₁, Flow.bind_done, e₂, State.played_played]⟩
  broken := fun m l hm hl hw => by
    rw [beforeRise_append]
    split
    · rename_i hlt
      obtain ⟨tr, hq, e⟩ := h.broken m l hlt hl hw
      exact ⟨tr, hq, by rw [e, Flow.bind_broken]⟩
    · rename_i hge
      obtain ⟨n, rfl⟩ : ∃ n, m = rises evs₁ + n := ⟨m - rises evs₁, by omega⟩
      rw [rises_append] at hm
      rw [State.clockAfter, Line.afterRises_add, Option.bind_eq_some_iff] at hl
      obtain ⟨l₁, hl₁, hl⟩ := hl
      obtain ⟨tr₁, hq₁, e₁⟩ := h.complete l₁ hl₁
      obtain ⟨tr₂, hq₂, e₂⟩ := (hk l₁ tr₁).broken n l (by omega) hl hw
      rw [Nat.add_sub_cancel_left]
      exact ⟨tr₂ ++ tr₁, by rw [quiet_append, hq₁, hq₂],
        by rw [e₁, Flow.bind_done, e₂, State.played_played, List.append_assoc]; rfl⟩

/-- One procedure after another, when nothing is written between the first rise and the last. -/
theorem Follows.bind {a : α} {k : α → State → Flow β} {fin : State → Flow β} {r : TransportRegs}
    (h : Follows f s evs₁ (.done a) done₁ (fun _ => r))
    (hk : ∀ l tr, Follows (k a (s.played done₁ evs₁ l tr)) (s.played done₁ evs₁ l tr) evs₂ fin
      done₂ (fun _ => r)) :
    Follows (f.bind k) s (evs₁ ++ evs₂) fin done₂ (fun _ => r) := by
  simpa using h.bind_cut hk

/-- Micro-operations without a rise, before a procedure. -/
theorem Follows.after {t : State} {fin : State → Flow α} (tr : List Event)
    (ht : t = s.played done₁ evs₁ s.scl tr) (hq : quiet tr = evs₁) (h0 : rises evs₁ = 0)
    (h : Follows f t evs₂ fin done₂ cut) : Follows f s (evs₁ ++ evs₂) fin done₂ cut where
  complete := fun l hl => by
    subst ht
    rw [rises_append, h0, Nat.zero_add] at hl
    obtain ⟨tr₂, hq₂, e₂⟩ := h.complete l hl
    exact ⟨tr₂ ++ tr, by rw [quiet_append, hq, hq₂], by rw [e₂, State.played_played]⟩
  broken := fun m l hm hl hw => by
    subst ht
    rw [rises_append, h0, Nat.zero_add] at hm
    rw [beforeRise_append, h0, if_neg (Nat.not_lt_zero m), Nat.sub_zero]
    obtain ⟨tr₂, hq₂, e₂⟩ := h.broken m l hm hl hw
    exact ⟨tr₂ ++ tr, by rw [quiet_append, hq, hq₂],
      by rw [e₂, State.played_played, List.append_assoc]; rfl⟩

/-- Micro-operations without a rise, and an end. -/
theorem Follows.micro {fin : State → Flow α} (tr : List Event)
    (hf : f = fin (s.played done evs s.scl tr)) (hq : quiet tr = evs) (h0 : rises evs = 0) :
    Follows f s evs fin done cut where
  complete := fun l hl => by
    rw [h0] at hl
    cases hl
    exact ⟨tr, hq, hf⟩
  broken := fun m l hm => absurd hm (by omega)

/-- Nothing, and an end. -/
theorem Follows.nothing (fin : State → Flow α) : Follows (fin s) s [] fin (s.regs s.started) cut :=
  .micro [] rfl rfl rfl

/-- The same events under another spelling. -/
theorem Follows.cast {fin : State → Flow α} {evs' : List Event} {done' : TransportRegs}
    (h : Follows f s evs fin done cut) (he : evs = evs') (hd : done = done') :
    Follows f s evs' fin done' cut := he ▸ hd ▸ h

/-- The same registers at a cut, in another spelling. -/
theorem Follows.cast_cut {fin : State → Flow α} {cut' : Nat → TransportRegs}
    (h : Follows f s evs fin done cut) (hc : ∀ m, m < rises evs → cut m = cut' m) :
    Follows f s evs fin done cut' where
  complete := h.complete
  broken := fun m l hm hl hw => hc m hm ▸ h.broken m l hm hl hw

/-- Only the end changes. -/
theorem Follows.finish {a : α} {k : α → State → Flow β} {fin : State → Flow β}
    (h : Follows f s evs (.done a) done cut) (hk : ∀ t, k a t = fin t) :
    Follows (f.bind k) s evs fin done cut where
  complete := fun l hl => by
    obtain ⟨tr, hq, e⟩ := h.complete l hl
    exact ⟨tr, hq, by rw [e, Flow.bind_done, hk]⟩
  broken := fun m l hm hl hw => by
    obtain ⟨tr, hq, e⟩ := h.broken m l hm hl hw
    exact ⟨tr, hq, by rw [e, Flow.bind_broken]⟩

/-! ### ClockUp and the bits -/

theorem clockUp_follows (s : State) :
    Follows (clockUp s) s [.sclRel, .sclSample true] (.done ()) (s.regs s.started)
      (fun _ => s.regs s.started) := by
  have hup := clockUp_eq s
  have hw : waitFrom true s.wlim.toNat s.scl.rest 0 s.scl.answers = s.clockWait s.scl := rfl
  obtain ⟨k, hk⟩ := waitFrom_samples true s.wlim.toNat s.scl.rest 0 s.scl.answers
  rw [hw] at hup hk
  rw [Bool.not_true] at hk
  refine ⟨fun l hl => ?_, fun m l hm hl hne => ?_⟩
  · have hl : (if (s.clockWait s.scl).ending = .seen then some (s.clockWait s.scl).line else none) =
      some l := hl
    split at hl
    · rename_i hs
      cases hl
      rw [hup, hs]
      refine ⟨_, ?_, rfl⟩
      rw [quiet_append, hk, hs, if_pos rfl, List.map_append, List.reverse_append, quiet_append,
        List.map_replicate, List.reverse_replicate, quiet_failed]
      rfl
    · cases hl
  · obtain rfl : m = 0 := Nat.lt_one_iff.mp hm
    cases hl
    refine ⟨[.sclRel], rfl, ?_⟩
    rw [if_neg hne, List.append_nil] at hk
    rw [hup, hk, List.length_replicate, List.map_replicate, List.reverse_replicate]
    cases he : (s.clockWait s.scl).ending with
    | seen => exact absurd he hne
    | timeout => rfl
    | never => rfl

theorem wbit_follows (b : Bool) (s : State) :
    Follows (wbit b s) s (evBitOut b) (.done ()) (s.regs s.started) (fun _ => s.regs s.started) := by
  have key : ∀ t e, t = s.played (s.regs s.started) [e, .dly 1] s.scl [.dly 1, e] →
      quiet [.dly 1, e] = [e, .dly 1] → rises [e, .dly 1] = 0 →
      Follows ((clockUp t).bind fun _ s => .done () ((s.delay tHigh).assertScl.delay tLow)) s
        ([e, .dly 1] ++ ([.sclRel, .sclSample true] ++ [.dly 4, .sclLow, .dly 4])) (.done ())
        (s.regs s.started) (fun _ => s.regs s.started) := by
    intro t e ht hq h0
    refine Follows.after _ ht hq h0 ?_
    subst ht
    exact (clockUp_follows _).bind fun l tr => .micro [.dly 4, .sclLow, .dly 4] rfl rfl rfl
  cases b
  · exact key _ .sdaLow rfl rfl rfl
  · exact key _ .sdaRel rfl rfl rfl

theorem rbit_follows (s : State) :
    Follows (rbit s) s (evBitIn s.sda.next.1) (.done s.sda.next.1) (s.regs s.started)
      (fun _ => s.regs s.started) := by
  refine Follows.after (t := s.releaseSda.delay tSetup) (done₁ := s.regs s.started)
    (evs₁ := [.sdaRel, .dly 1]) [.dly 1, .sdaRel] rfl rfl rfl ?_
  refine Follows.bind (evs₂ := [.dly 4, .sdaSample s.sda.next.1, .sclLow, .dly 4])
    (clockUp_follows _) fun l tr => .micro [.dly 4, .sclLow, .sdaSample s.sda.next.1, .dly 4] ?_ rfl rfl
  have hs : ∀ t : State, t.sdaDrv = false →
      t.sampleSda = (t.sda.next.1, t.bus t.started t.drv t.scl (t.sda.drop 1)
        [.sdaSample t.sda.next.1]) := fun t ht => by
    rw [State.sampleSda, if_neg (by rw [ht]; nofun), ← Line.next_snd]; rfl
  rw [hs _ rfl]
  rfl

/-! ### Start and stop -/

theorem generalStart_follows (s : State) :
    Follows (generalStart s) s evGeneralStart (.done ()) (s.regs s.started)
      (fun _ => s.regs s.started) := by
  refine Follows.after (t := s.releaseSda.delay tSetup) (done₁ := s.regs s.started)
    (evs₁ := [.sdaRel, .dly 1]) [.dly 1, .sdaRel] rfl rfl rfl ?_
  exact Follows.bind (evs₂ := [.dly 4, .sdaLow, .dly 4, .sclLow, .dly 4]) (clockUp_follows _)
    fun l tr => .micro [.dly 4, .sclLow, .dly 4, .sdaLow, .dly 4] rfl rfl rfl

theorem stopSeq_follows (s : State) :
    Follows (stopSeq s) s evStop (.done ()) (s.regs false) (fun _ => s.regs s.started) := by
  refine Follows.after (t := s.assertSda.delay tSetup) (done₁ := s.regs s.started)
    (evs₁ := [.sdaLow, .dly 1]) [.dly 1, .sdaLow] rfl rfl rfl ?_
  exact Follows.bind (evs₂ := [.dly 4, .sdaRel, .dly 4]) (clockUp_follows _)
    fun l tr => .micro [.dly 4, .sdaRel, .dly 4] rfl rfl rfl

theorem runTail_follows (ops : List TailOp) (s : State) :
    Follows (runTail ops s) s (ops.flatMap evTailOp) (.done ()) (s.regs s.started)
      (fun _ => s.regs s.started) := by
  induction ops generalizing s with
  | nil => exact .nothing _
  | cons op ops ih =>
    have micro : ∀ (t : State) (e : Event), t = s.played (s.regs s.started) [e] s.scl [e] →
        quiet [e] = [e] → rises [e] = 0 →
        Follows (runTail ops t) s ([e] ++ ops.flatMap evTailOp) (.done ()) (s.regs s.started)
          (fun _ => s.regs s.started) := by
      intro t e ht hq h0
      refine Follows.after [e] ht hq h0 ?_
      have := ih t
      subst ht
      exact this
    cases op with
    | assertScl => exact micro s.assertScl _ rfl rfl rfl
    | releaseScl => exact micro s.releaseScl _ rfl rfl rfl
    | assertSda => exact micro s.assertSda _ rfl rfl rfl
    | releaseSda => exact micro s.releaseSda _ rfl rfl rfl
    | delay us => exact micro (s.delay us) (.dly us) rfl rfl (by simp [rises])
    | clockUp => exact (clockUp_follows s).bind fun l tr => ih _

theorem startSeq_follows (s : State) :
    Follows (startSeq s) s (evStart s.cfg s.mode) (.done ()) (s.regs true)
      (fun _ => s.regs true) := by
  have h : Follows (generalStart { s with started := true }) s evGeneralStart (.done ())
      (s.regs true) (fun _ => s.regs true) :=
    Follows.after (evs₁ := []) (done₁ := s.regs true) [] rfl rfl rfl (generalStart_follows _)
  have key : ∀ mode, s.mode = mode →
      Follows (startSeq s) s (evStart s.cfg mode) (.done ()) (s.regs true) (fun _ => s.regs true) := by
    intro mode hm
    cases mode with
    | normal =>
      refine (h.bind (evs₂ := []) fun l tr => ?_).cast (List.append_nil _) rfl
      have : (s.played (s.regs true) evGeneralStart l tr).mode = .normal := hm
      rw [this]
      exact .nothing _
    | sensorVariant =>
      refine h.bind fun l tr => ?_
      have : (s.played (s.regs true) evGeneralStart l tr).mode = .sensorVariant := hm
      rw [this]
      exact runTail_follows _ _
  exact key _ rfl

theorem optionally_start_follows (c : Bool) (s : State) :
    Follows (optionally c startSeq s) s (evIf c (evStart s.cfg s.mode)) (.done ())
      (s.regs (c || s.started)) (fun _ => s.regs (c || s.started)) := by
  cases c with
  | false => exact .nothing _
  | true => exact startSeq_follows s

theorem optionally_stop_follows (c : Bool) (s : State) :
    Follows (optionally c stopSeq s) s (evIf c evStop) (.done ()) (s.regs (!c && s.started))
      (fun _ => s.regs s.started) := by
  cases c with
  | false => exact .nothing _
  | true => exact stopSeq_follows s

/-! ### Writing -/

theorem sdaAnswers_bitsOut (bits : List Bool) : sdaAnswers (bits.flatMap evBitOut) = [] := by
  induction bits with
  | nil => rfl
  | cons b bits ih =>
    rw [List.flatMap_cons, sdaAnswers_append, ih]
    cases b <;> rfl

theorem sdaAnswers_tail (ops : List TailOp) :
    sdaAnswers (ops.flatMap evTailOp) = [] := by
  induction ops with
  | nil => rfl
  | cons op ops ih =>
    rw [List.flatMap_cons, sdaAnswers_append, ih]
    cases op <;> rfl

theorem sdaAnswers_start (cfg : Config) (mode : Mode) : sdaAnswers (evStart cfg mode) = [] := by
  cases mode with
  | normal => rfl
  | sensorVariant => exact sdaAnswers_tail cfg.variantTail

theorem writeBits_follows (bits : List Bool) (s : State) :
    Follows (writeBits bits s) s (bits.flatMap evBitOut) (.done ()) (s.regs s.started)
      (fun _ => s.regs s.started) := by
  induction bits generalizing s with
  | nil => exact .nothing _
  | cons b bits ih => exact (wbit_follows b s).bind fun l tr => ih _

/-- One written byte: the result is the answer in its acknowledge slot (R170). -/
theorem byteOut_follows (b : Byte) (s : State) :
    Follows ((writeBits (wireBits b) s).bind fun _ s => rbit s) s (evByteOut b s.sda.next.1)
      (.done s.sda.next.1) (s.regs s.started) (fun _ => s.regs s.started) := by
  refine (writeBits_follows (wireBits b) s).bind fun l tr => ?_
  have : (s.played (s.regs s.started) ((wireBits b).flatMap evBitOut) l tr).sda = s.sda := by
    rw [State.played, State.bus_sda, sdaAnswers_bitsOut]; rfl
  have h := rbit_follows (s.played (s.regs s.started) ((wireBits b).flatMap evBitOut) l tr)
  rw [this] at h
  exact h

theorem sdaAnswers_byteOut (b : Byte) (v : Bool) : sdaAnswers (evByteOut b v) = [v] := by
  rw [evByteOut, sdaAnswers_append, sdaAnswers_bitsOut]; rfl

theorem writeBytes_follows (bytes : List Byte) (s : State) :
    Follows (writeBytes bytes s) s (evBytesOut bytes (s.sda.peek bytes.length))
      (.done (writeStatus (s.sda.peek bytes.length))) (s.regs s.started)
      (fun _ => s.regs s.started) := by
  induction bytes generalizing s with
  | nil => exact .nothing _
  | cons b bytes ih =>
    have hbind : writeBytes (b :: bytes) s =
        ((writeBits (wireBits b) s).bind fun _ s => rbit s).bind fun nack s =>
          if nack then .done .noAck s else writeBytes bytes s := by
      rw [writeBytes]
      cases writeBits (wireBits b) s <;> rfl
    rw [hbind, List.length_cons, Line.peek_succ]
    refine (byteOut_follows b s).bind fun l tr => ?_
    cases hn : s.sda.next.1 with
    | true => exact .micro [] (by simp [writeStatus, State.played]; rfl) rfl rfl
    | false =>
      have := ih (s.played (s.regs s.started) (evByteOut b false) l tr)
      have hsda : (s.played (s.regs s.started) (evByteOut b false) l tr).sda = s.sda.drop 1 := by
        rw [State.played, State.bus_sda, sdaAnswers_byteOut]; rfl
      rw [hsda] at this
      rw [show writeStatus (false :: (s.sda.drop 1).peek bytes.length) =
        writeStatus ((s.sda.drop 1).peek bytes.length) by simp [writeStatus]]
      exact this

/-- WriteSeq (R170). -/
theorem writeSeq_follows (bytes : List Byte) (S P : Bool) (s : State) :
    Follows (writeSeq bytes S P s) s (evIf S (evStart s.cfg s.mode) ++
      evBytesOut bytes (s.sda.peek bytes.length) ++ evIf P evStop)
      (.done (writeStatus (s.sda.peek bytes.length)))
      (s.regs (!P && (S || s.started))) (fun _ => s.regs (S || s.started)) := by
  have h₂ : ∀ l tr, Follows _ (s.played (s.regs (S || s.started)) (evIf S (evStart s.cfg s.mode)) l tr)
      (evBytesOut bytes (s.sda.peek bytes.length)) _ _ _ := fun l tr => by
    have h := writeBytes_follows bytes
      (s.played (s.regs (S || s.started)) (evIf S (evStart s.cfg s.mode)) l tr)
    have hsda : (s.played (s.regs (S || s.started)) (evIf S (evStart s.cfg s.mode)) l tr).sda =
        s.sda := by
      rw [State.played, State.bus_sda]
      cases S with
      | false => rfl
      | true => rw [evIf, if_pos rfl, sdaAnswers_start]; rfl
    rw [hsda] at h
    exact h
  rw [List.append_assoc]
  exact (optionally_start_follows S s).bind fun l tr => (h₂ l tr).bind fun l' tr' =>
    (optionally_stop_follows P _).finish fun _ => rfl

/-! ### Reading -/

/-- The shift register after bits have been shifted in, most significant first (R68, R172). -/
def shiftAll : List Bool → Byte → Byte
  | [], v => v
  | b :: bs, v => shiftAll bs (shiftIn v b)

/-- Eight bits shifted into a byte are the number they spell. -/
theorem shiftAll_eight (l : Line) :
    shiftAll (l.peek 8) 0 = BitVec.ofNat 8 (bitsValue (l.peek 8)) := by
  have key : ∀ a b c d e f g h : Bool, shiftAll [a, b, c, d, e, f, g, h] 0 =
      BitVec.ofNat 8 (bitsValue [a, b, c, d, e, f, g, h]) := by decide
  exact key _ _ _ _ _ _ _ _

/-- The bits of the number eight bits spell are those bits (R68). -/
theorem wireBits_value (l : Line) :
    wireBits (BitVec.ofNat 8 (bitsValue (l.peek 8))) = l.peek 8 := by
  have key : ∀ a b c d e f g h : Bool,
      wireBits (BitVec.ofNat 8 (bitsValue [a, b, c, d, e, f, g, h])) = [a, b, c, d, e, f, g, h] := by
    decide
  exact key _ _ _ _ _ _ _ _

theorem sdaAnswers_bitsIn (bits : List Bool) : sdaAnswers (bits.flatMap evBitIn) = bits := by
  induction bits with
  | nil => rfl
  | cons b bits ih => rw [List.flatMap_cons, sdaAnswers_append, ih]; rfl

theorem rises_bitsIn (bits : List Bool) : rises (bits.flatMap evBitIn) = bits.length := by
  induction bits with
  | nil => rfl
  | cons b bits ih =>
    rw [List.flatMap_cons, rises_append, ih, List.length_cons, Nat.add_comm]
    cases b <;> rfl

theorem rises_bitOut (b : Bool) : rises (evBitOut b) = 1 := by cases b <;> rfl

theorem rises_bytesIn (ackLast : Bool) (bytes : List Byte) :
    rises (evBytesIn ackLast bytes) = 9 * bytes.length := by
  have one : ∀ b a, rises (evByteIn b a) = 9 := fun b a => by
    rw [evByteIn, rises_append, rises_bitsIn, rises_bitOut]; rfl
  induction bytes with
  | nil => rfl
  | cons b bytes ih =>
    cases bytes with
    | nil => rw [evBytesIn, one]; rfl
    | cons c bytes => rw [evBytesIn, rises_append, one, ih]; simp only [List.length_cons]; omega; simp

theorem sdaAnswers_bytesIn (ackLast : Bool) (bytes : List Byte) :
    (sdaAnswers (evBytesIn ackLast bytes)).length = 8 * bytes.length := by
  have one : ∀ b a, (sdaAnswers (evByteIn b a)).length = 8 := fun b a => by
    rw [evByteIn, sdaAnswers_append, sdaAnswers_bitsIn]
    cases a <;> rfl
  induction bytes with
  | nil => rfl
  | cons b bytes ih =>
    cases bytes with
    | nil => rw [evBytesIn, one]; rfl
    | cons c bytes =>
      rw [evBytesIn, sdaAnswers_append, List.length_append, one, ih]
      · simp only [List.length_cons]; omega
      · simp

theorem readBits_follows (n : Nat) (v : Byte) (s : State) :
    Follows (readBits n v s) s ((s.sda.peek n).flatMap evBitIn)
      (.done (shiftAll (s.sda.peek n) v)) (s.regs s.started) (fun _ => s.regs s.started) := by
  induction n generalizing v s with
  | zero => exact .nothing _
  | succ n ih =>
    rw [Line.peek_succ, ← Line.next_snd]
    exact (rbit_follows s).bind fun l tr => by
      have h := ih (shiftIn v s.sda.next.1)
        (s.played (s.regs s.started) (evBitIn s.sda.next.1) l tr)
      have hsda : (s.played (s.regs s.started) (evBitIn s.sda.next.1) l tr).sda = s.sda.next.2 :=
        (Line.next_snd _).symm
      rw [hsda] at h
      exact h

/-- Received bytes stored in BUF from an index on (R173). -/
def storeBytes : Memory × Written → Nat → List Byte → Memory × Written
  | m, _, [] => m
  | (b, w), i, v :: vs =>
    storeBytes (Memory.write b i v, { w with buf := w.buf.setIfInBounds i true }) (i + 1) vs

/-- BUF and its marks after a read has stored `bytes` from index `i` on, if it goes to BUF. -/
def State.stored (s : State) (toBuf : Bool) (i : Nat) (bytes : List Byte) : Memory × Written :=
  if toBuf then storeBytes (s.buf, s.written) i bytes else (s.buf, s.written)

/-- The byte loop of ReadSeq; a read cut short after `m` rises has stored the bytes whose eighth bit
had been sampled (R172, R173). -/
theorem readBytes_follows (toBuf ackLast : Bool) (n i : Nat) (s : State) :
    Follows (readBytes toBuf ackLast n i s) s (evBytesIn ackLast (s.sda.bytes n))
      (.done (s.sda.bytes n)) (s.started, s.stored toBuf i (s.sda.bytes n))
      (fun m => (s.started, s.stored toBuf i ((s.sda.bytes n).take ((m + 1) / 9)))) := by
  induction n generalizing i s with
  | zero =>
    refine (Follows.nothing (cut := _) (Flow.done [])).cast rfl ?_
    cases toBuf <;> rfl
  | succ n ih =>
    have h₁ := readBits_follows 8 0 s
    rw [shiftAll_eight] at h₁
    have hbytes : s.sda.bytes (n + 1) =
      BitVec.ofNat 8 (bitsValue (s.sda.peek 8)) :: (s.sda.drop 8).bytes n := rfl
    have hbits := wireBits_value s.sda
    generalize BitVec.ofNat 8 (bitsValue (s.sda.peek 8)) = v at h₁ hbytes hbits
    have hlen : (s.sda.peek 8).length = 8 := s.sda.peek_length 8
    have hev : evBytesIn ackLast (s.sda.bytes (n + 1)) = (s.sda.peek 8).flatMap evBitIn ++
        (evBitOut (n == 0 && !ackLast) ++ evBytesIn ackLast ((s.sda.drop 8).bytes n)) := by
      rw [hbytes, ← hbits]
      cases n with
      | zero => cases ackLast <;> simp [Line.bytes, evBytesIn, evByteIn]
      | succ n => simp [Line.bytes, evBytesIn, evByteIn]
    -- the acknowledge pulse and the rest, from a state in which the byte has been read
    have h₂ : ∀ u : State, u.started = s.started → u.sda = s.sda.drop 8 →
        (u.buf, u.written) = (s.buf, s.written) →
        Follows ((wbit (n == 0 && !ackLast) (if toBuf then u.setBuf i v else u)).bind fun _ s =>
            (readBytes toBuf ackLast n (i + 1) s).bind fun vs s => .done (v :: vs) s) u
          (evBitOut (n == 0 && !ackLast) ++ evBytesIn ackLast ((s.sda.drop 8).bytes n))
          (.done (v :: (s.sda.drop 8).bytes n))
          (s.started, s.stored toBuf i (v :: (s.sda.drop 8).bytes n))
          (fun m => (s.started, s.stored toBuf i (v :: ((s.sda.drop 8).bytes n).take (m / 9)))) := by
      intro u hst hsda hmem
      have hu : ∀ bs, u.stored toBuf i bs = s.stored toBuf i bs := fun bs => by
        rw [State.stored, State.stored, hmem]
      have hset : (if toBuf then u.setBuf i v else u) =
          u.played (s.started, s.stored toBuf i [v]) [] u.scl [] := by
        rw [← hu, ← hst]
        cases toBuf <;> rfl
      have h : Follows (wbit (n == 0 && !ackLast) (if toBuf then u.setBuf i v else u)) u
          (evBitOut (n == 0 && !ackLast)) (.done ()) (s.started, s.stored toBuf i [v])
          (fun _ => (s.started, s.stored toBuf i [v])) := by
        rw [hset]
        exact Follows.after (evs₁ := []) [] rfl rfl rfl (wbit_follows (n == 0 && !ackLast) _)
      refine (h.bind_cut (evs₂ := evBytesIn ackLast ((s.sda.drop 8).bytes n))
        (done₂ := (s.started, s.stored toBuf i (v :: (s.sda.drop 8).bytes n)))
        (cut₂ := fun m => (s.started,
          s.stored toBuf i (v :: ((s.sda.drop 8).bytes n).take ((m + 1) / 9))))
        fun l tr => ?_).cast_cut ?_
      · have h := ih (i + 1) (u.played
          (s.started, s.stored toBuf i [v]) (evBitOut (n == 0 && !ackLast)) l tr)
        have hsda' : (u.played
            (s.started, s.stored toBuf i [v]) (evBitOut (n == 0 && !ackLast)) l tr).sda =
            s.sda.drop 8 := by
          rw [← hsda]
          cases (n == 0 && !ackLast) <;> rfl
        have hst' : ∀ bs, (u.played
            (s.started, s.stored toBuf i [v]) (evBitOut (n == 0 && !ackLast)) l tr).stored toBuf
            (i + 1) bs = s.stored toBuf i (v :: bs) := by
          intro bs
          cases toBuf <;> rfl
        rw [hsda'] at h
        simp only [hst'] at h
        exact h.finish fun _ => rfl
      · intro m _
        rw [rises_bitOut]
        split
        · rename_i hm
          obtain rfl : m = 0 := Nat.lt_one_iff.mp hm
          simp
        · rename_i hm
          have : m - 1 + 1 = m := by omega
          rw [this]
    rw [hev, hbytes]
    refine ((h₁.bind_cut fun l tr => h₂ (s.played (s.regs s.started) _ l tr) rfl ?_ rfl).cast_cut ?_)
    · rw [State.played, State.bus_sda, sdaAnswers_bitsIn, hlen]
    · intro m _
      rw [rises_bitsIn, hlen]
      split
      · rw [show (m + 1) / 9 = 0 by omega]
        cases toBuf <;> rfl
      · rw [show (m + 1) / 9 = (m - 8) / 9 + 1 by omega, List.take_succ_cons]

/-- A wait that ends saw the unwanted answers at the head of the line and the first wanted one. -/
theorem waitOn_seen (want : Bool) (limit : Nat) (l : Line)
    (h : (waitOn want limit false l).ending = .seen) :
    waitOn want limit false l = ⟨l.unwanted want ++ [want], l.afterWait want, .seen⟩ := by
  have key : ∀ (rest : Bool) (as : List Bool) n, (waitFrom want limit rest n as).ending = .seen →
      waitFrom want limit rest n as = ⟨as.takeWhile (· != want) ++ [want],
        ⟨as.drop ((as.takeWhile (· != want)).length + 1), rest⟩, .seen⟩ := by
    intro rest as
    induction as with
    | nil =>
      intro n hn
      rw [waitFrom] at hn ⊢
      split at hn
      · rename_i hr
        simp [hr]
      · split at hn <;> cases hn
    | cons v vs ih =>
      intro n hn
      rw [waitFrom] at hn ⊢
      split at hn
      · rename_i hv
        simp [hv]
      · rename_i hv
        split at hn
        · cases hn
        · rename_i hl
          rw [if_neg hv, if_neg hl, ih (n + 1) hn]
          simp [hv]
  exact key l.rest l.answers 0 h

/-- The opening of a read whose wait for data low, if it has one, ends (R172). -/
theorem readReady_follows (s : State) (hd : s.dataReady = true) :
    Follows (readReady s) s (evReady s.sda s.mode) (.done ()) (s.regs s.started) cut := by
  cases hm : s.mode with
  | normal =>
    rw [readReady, hm]
    exact .nothing _
  | sensorVariant =>
    have hw : waitFrom false s.wlim.toNat s.sda.rest 0 s.sda.answers =
        ⟨s.sda.unwanted false ++ [false], s.sda.afterWait false, .seen⟩ :=
      waitOn_seen false s.wlim.toNat s.sda (by simpa [State.dataReady, hm, State.dataWait] using hd)
    have hev : evReady s.sda .sensorVariant =
        [.sdaRel] ++ (s.sda.unwanted false ++ [false]).map .sdaSample := rfl
    rw [readReady, hm]
    refine .micro (((s.sda.unwanted false ++ [false]).map .sdaSample).reverse ++ [.sdaRel]) ?_ ?_ ?_
    · refine (waitSdaLow_eq s).trans ?_
      rw [hw, hev]
      simp only [WaitEnd.flow, State.played, pinDrive_append, pinDrive_data, sdaAnswers_append,
        sdaAnswers_data]
      simp [sdaAnswers, pinDrive, State.drv, State.regs, State.bus, State.withBuf, Line.afterWait]
    · rw [quiet_append, quiet_dataSamples]
      rfl
    · rw [hev, rises_append]
      simp [rises, List.count_eq_zero]

/-- Where the data phase of a read starts. -/
theorem played_ready_sda (s : State) (r : TransportRegs) (l : Line) (tr : List Event) :
    (s.played r (evReady s.sda s.mode) l tr).sda = s.readLine := by
  rw [State.played, State.bus_sda, State.readLine]
  cases s.mode with
  | normal => rfl
  | sensorVariant =>
    have : sdaAnswers (evReady s.sda .sensorVariant) = s.sda.unwanted false ++ [false] :=
      sdaAnswers_data _
    simp [this, Line.afterWait]

theorem rises_ready (l : Line) (mode : Mode) : rises (evReady l mode) = 0 := by
  cases mode with
  | normal => rfl
  | sensorVariant => simp [evReady, rises, List.count_eq_zero]

/-- ReadSeq (R172, R173), once its opening wait has ended. -/
theorem readSeq_follows (toBuf : Bool) (n : Nat) (ackLast P : Bool) (s : State)
    (hd : s.dataReady = true) :
    Follows (readSeq toBuf n ackLast P s) s
      (evReady s.sda s.mode ++ evBytesIn ackLast (s.readLine.bytes n) ++ evIf P evStop)
      (.done (s.readLine.bytes n)) (!P && s.started, s.stored toBuf 0 (s.readLine.bytes n))
      (fun m => (s.started, s.stored toBuf 0 ((s.readLine.bytes n).take ((m + 1) / 9)))) := by
  have h₂ : ∀ l tr, Follows
      (readBytes toBuf ackLast n 0 (s.played (s.regs s.started) (evReady s.sda s.mode) l tr))
      (s.played (s.regs s.started) (evReady s.sda s.mode) l tr)
      (evBytesIn ackLast (s.readLine.bytes n)) (.done (s.readLine.bytes n))
      (s.started, s.stored toBuf 0 (s.readLine.bytes n))
      (fun m => (s.started, s.stored toBuf 0 ((s.readLine.bytes n).take ((m + 1) / 9)))) := by
    intro l tr
    have h := readBytes_follows toBuf ackLast n 0
      (s.played (s.regs s.started) (evReady s.sda s.mode) l tr)
    rw [played_ready_sda] at h
    exact h
  rw [List.append_assoc]
  refine (((readReady_follows (cut := fun _ => (s.started, s.stored toBuf 0 [])) s hd).bind_cut
    fun l tr => (h₂ l tr).bind_cut
      (cut₂ := fun _ => (s.started, s.stored toBuf 0 (s.readLine.bytes n))) fun l' tr' =>
      (optionally_stop_follows P _).finish fun _ => rfl)).cast_cut ?_
  intro m hm
  have hall : 9 * n ≤ m → (s.readLine.bytes n).take ((m + 1) / 9) = s.readLine.bytes n := fun h =>
    List.take_of_length_le (by rw [Line.bytes_length]; omega)
  simp only [rises_ready, Nat.not_lt_zero, if_false, Nat.sub_zero, rises_bytesIn, Line.bytes_length]
  split
  · rfl
  · rw [hall (by omega)]

/-! ### The latches and answers a whole transfer leaves (R147) -/

theorem pinDrive_tail (ops : List TailOp) (d : Bool × Bool) :
    pinDrive (ops.flatMap evTailOp) d = tailExit ops d := by
  induction ops generalizing d with
  | nil => rfl
  | cons op ops ih =>
    rw [List.flatMap_cons, pinDrive_append, ih]
    cases op <;> rfl

theorem pinDrive_start (cfg : Config) (mode : Mode) (d : Bool × Bool) :
    pinDrive (evStart cfg mode) d = startExit cfg mode := by
  cases mode with
  | normal => rfl
  | sensorVariant => exact (pinDrive_append _ _ _).trans (pinDrive_tail _ _)

theorem pinDrive_stop (d : Bool × Bool) : pinDrive evStop d = (false, false) := rfl

theorem pinDrive_byteOut (b : Byte) (v : Bool) (d : Bool × Bool) :
    pinDrive (evByteOut b v) d = (true, false) := by
  rw [evByteOut, pinDrive_append]
  rfl

theorem pinDrive_bytesOut (bytes : List Byte) (l : Line) (d : Bool × Bool) :
    pinDrive (evBytesOut bytes (l.peek bytes.length)) d =
      if bytes = [] then d else (true, false) := by
  induction bytes generalizing l d with
  | nil => rfl
  | cons b bytes ih =>
    have hne : ¬(b :: bytes = []) := List.cons_ne_nil _ _
    rw [List.length_cons, Line.peek_succ, evBytesOut, pinDrive_append, pinDrive_byteOut, if_neg hne]
    cases l.next.1 with
    | true => rfl
    | false =>
      rw [if_neg Bool.false_ne_true, ih]
      split <;> rfl

theorem sdaAnswers_bytesOut (bytes : List Byte) (l : Line) :
    (sdaAnswers (evBytesOut bytes (l.peek bytes.length))).length =
      bytesSent (l.peek bytes.length) := by
  induction bytes generalizing l with
  | nil => rfl
  | cons b bytes ih =>
    rw [List.length_cons, Line.peek_succ, evBytesOut, sdaAnswers_append, sdaAnswers_byteOut,
      bytesSent, List.length_append, List.length_singleton]
    cases l.next.1 with
    | true => rfl
    | false => rw [if_neg Bool.false_ne_true, if_neg Bool.false_ne_true, ih]

theorem pinDrive_bitsIn (bits : List Bool) (d : Bool × Bool) :
    pinDrive (bits.flatMap evBitIn) d = if bits = [] then d else (true, false) := by
  induction bits generalizing d with
  | nil => rfl
  | cons b bits ih =>
    rw [List.flatMap_cons, pinDrive_append, ih, if_neg (List.cons_ne_nil b bits)]
    split <;> rfl

theorem pinDrive_byteIn (b : Byte) (ack : Bool) (d : Bool × Bool) :
    pinDrive (evByteIn b ack) d = (true, ack) := by
  rw [evByteIn, pinDrive_append, pinDrive_bitsIn, if_neg (by simp [wireBits])]
  cases ack <;> rfl

theorem pinDrive_bytesIn (ackLast : Bool) (bytes : List Byte) (d : Bool × Bool) :
    pinDrive (evBytesIn ackLast bytes) d = if bytes = [] then d else (true, ackLast) := by
  induction bytes generalizing d with
  | nil => rfl
  | cons b bytes ih =>
    cases bytes with
    | nil => exact pinDrive_byteIn b ackLast d
    | cons c bytes =>
      rw [evBytesIn, pinDrive_append, ih, if_neg (by simp), if_neg (by simp)]
      simp

/-- The events of a WriteSeq: latches, and SDA answers used. -/
theorem writeSeq_leaves (bytes : List Byte) (S P : Bool) (s : State) :
    pinDrive (evIf S (evStart s.cfg s.mode) ++ evBytesOut bytes (s.sda.peek bytes.length) ++
      evIf P evStop) s.drv = writeExit s bytes.length S P ∧
    (sdaAnswers (evIf S (evStart s.cfg s.mode) ++ evBytesOut bytes (s.sda.peek bytes.length) ++
      evIf P evStop)).length = bytesSent (s.sda.peek bytes.length) := by
  constructor
  · rw [pinDrive_append, pinDrive_append, pinDrive_bytesOut]
    cases P with
    | true => rw [writeExit, if_pos rfl]; rfl
    | false =>
      cases bytes with
      | nil =>
        cases S with
        | true => exact pinDrive_start _ _ _
        | false => rfl
      | cons b bytes => rfl
  · rw [sdaAnswers_append, sdaAnswers_append, List.length_append, List.length_append,
      sdaAnswers_bytesOut]
    cases S <;> cases P <;> simp [evIf, sdaAnswers_start, evStop, sdaAnswers]

/-- The events of a ReadSeq: latches, and SDA answers used. -/
theorem readSeq_leaves (n : Nat) (ackLast P : Bool) (s : State) :
    pinDrive (evReady s.sda s.mode ++ evBytesIn ackLast (s.readLine.bytes n) ++ evIf P evStop)
      s.drv = readExit s n ackLast P ∧
    s.sda.drop (sdaAnswers (evReady s.sda s.mode ++ evBytesIn ackLast (s.readLine.bytes n) ++
      evIf P evStop)).length = s.readLine.drop (8 * n) := by
  have hready : pinDrive (evReady s.sda s.mode) s.drv = readyExit s := by
    rw [readyExit]
    cases s.mode with
    | normal => rfl
    | sensorVariant => exact pinDrive_data _ _
  constructor
  · rw [pinDrive_append, pinDrive_append, hready, pinDrive_bytesIn]
    cases P with
    | true => rw [readExit, if_pos rfl]; rfl
    | false => cases n <;> rfl
  · have h := played_ready_sda s (s.regs s.started) s.scl []
    rw [State.played, State.bus_sda] at h
    rw [sdaAnswers_append, sdaAnswers_append, List.length_append, List.length_append,
      sdaAnswers_bytesIn, Line.bytes_length, ← h, Line.drop_drop]
    cases P <;> rfl

end Sys2Proof.Machine
end

