-- ==== Sys2Proof/Laws/Register.lean ====
section
/-! SUPPORT. What the register accessor's procedures do on any clock, as lists of events: every write
acknowledged and the result read, or the first NACK raised as I2C_ERROR. -/

namespace Sys2Proof.Machine

/-- The slots up to and with the first NACK, when an earlier part of them was all acknowledged. -/
theorem bytesSent_append (a b : List Bool) :
    bytesSent (a ++ b) = if a.any id then bytesSent a else a.length + bytesSent b := by
  induction a with
  | nil => simp
  | cons v a ih => cases v <;> simp [bytesSent, ih]; split <;> omega

theorem bytesSent_acked (a : List Bool) (h : a.any id = false) : bytesSent a = a.length := by
  simpa [h, bytesSent] using bytesSent_append a []

/-- How an accessor step ends, given the answers in its acknowledge slots (R201). -/
def ackEnd {α : Type} (acks : List Bool) (a : α) : State → Flow α :=
  if acks.any id then .raised .i2cError else .done a

/-- A write step: done when every slot was acknowledged, else I2C_ERROR (R201). -/
theorem writeStep_follows (bytes : List Byte) (S P : Bool) (s : State) :
    Follows (writeStep bytes S P s) s (evIf S (evStart s.cfg s.mode) ++
      evBytesOut bytes (s.sda.peek bytes.length) ++ evIf P evStop)
      (ackEnd (s.sda.peek bytes.length) ())
      (s.regs (!P && (S || s.started))) (fun _ => s.regs (S || s.started)) := by
  refine (writeSeq_follows bytes S P s).finish fun t => ?_
  rw [writeStatus, ackEnd]
  cases (s.sda.peek bytes.length).any id <;> rfl

/-- Addressing a register in NORMAL mode. -/
theorem address_follows (reg : Byte) (s : State) (hm : s.mode = .normal) :
    Follows ((writeStep [addrW, reg] true false s).bind fun _ s => writeStep [addrR] true false s) s
      (evAddress reg (s.sda.peek 3)) (ackEnd (s.sda.peek 3) ()) (s.regs true)
      (fun _ => s.regs true) := by
  have h₁ : Follows (writeStep [addrW, reg] true false s) s
      (evGeneralStart ++ evBytesOut [0xEE, reg] (s.sda.peek 2)) (ackEnd (s.sda.peek 2) ())
      (s.regs true) (fun _ => s.regs true) := by
    have h := writeStep_follows [addrW, reg] true false s
    rw [hm] at h
    exact h.cast (List.append_nil _) rfl
  have hsplit : s.sda.peek 3 = s.sda.peek 2 ++ (s.sda.drop 2).peek 1 := s.sda.peek_add 2 1
  have hdrop : (s.sda.peek 3).drop 2 = (s.sda.drop 2).peek 1 := by
    rw [hsplit]; exact List.drop_left' (s.sda.peek_length 2)
  have htake : (s.sda.peek 3).take 2 = s.sda.peek 2 := rfl
  rw [evAddress, htake, hdrop, ackEnd, hsplit, List.any_append]
  rw [ackEnd] at h₁
  cases hany : (s.sda.peek 2).any id with
  | true =>
    rw [hany, if_pos rfl] at h₁
    exact (h₁.bind_raised _).cast (List.append_nil _).symm rfl
  | false =>
    rw [hany, if_neg Bool.false_ne_true] at h₁
    rw [Bool.false_or]
    refine h₁.bind fun l tr => ?_
    have hused : (sdaAnswers (evGeneralStart ++ evBytesOut [0xEE, reg] (s.sda.peek 2))).length = 2 :=
      (congrArg List.length (sdaAnswers_append _ _)).trans ((sdaAnswers_bytesOut [0xEE, reg] s.sda).trans
        (by rw [show [(0xEE : Byte), reg].length = 2 from rfl, bytesSent_acked _ hany,
          Line.peek_length]))
    have h₂ := writeStep_follows [addrR] true false
      (s.played (s.regs true) (evGeneralStart ++ evBytesOut [0xEE, reg] (s.sda.peek 2)) l tr)
    have hsda : (s.played (s.regs true) (evGeneralStart ++ evBytesOut [0xEE, reg] (s.sda.peek 2))
        l tr).sda = s.sda.drop 2 := by
      rw [State.played, State.bus_sda, hused]
    have hmode : (s.played (s.regs true) (evGeneralStart ++ evBytesOut [0xEE, reg] (s.sda.peek 2))
        l tr).mode = .normal := hm
    rw [hsda, hmode] at h₂
    exact h₂.cast (List.append_nil _) rfl

theorem evAddress_leaves (reg : Byte) (l : Line) (d : Bool × Bool) :
    pinDrive (evAddress reg (l.peek 3)) d = (true, false) ∧
      (sdaAnswers (evAddress reg (l.peek 3))).length = bytesSent (l.peek 3) := by
  have hsplit : l.peek 3 = l.peek 2 ++ (l.drop 2).peek 1 := l.peek_add 2 1
  have hdrop : (l.peek 3).drop 2 = (l.drop 2).peek 1 := by
    rw [hsplit]; exact List.drop_left' (l.peek_length 2)
  have htake : (l.peek 3).take 2 = l.peek 2 := rfl
  have h₁ := sdaAnswers_bytesOut [0xEE, reg] l
  have h₂ := sdaAnswers_bytesOut [0xEF] (l.drop 2)
  have p₁ := pinDrive_bytesOut [0xEE, reg] l
  have p₂ := pinDrive_bytesOut [0xEF] (l.drop 2)
  change (sdaAnswers (evBytesOut [0xEE, reg] (l.peek 2))).length = bytesSent (l.peek 2) at h₁
  change (sdaAnswers (evBytesOut [0xEF] ((l.drop 2).peek 1))).length =
    bytesSent ((l.drop 2).peek 1) at h₂
  change ∀ d, pinDrive (evBytesOut [0xEE, reg] (l.peek 2)) d = (true, false) at p₁
  change ∀ d, pinDrive (evBytesOut [0xEF] ((l.drop 2).peek 1)) d = (true, false) at p₂
  rw [evAddress, htake, hdrop, hsplit, bytesSent_append, Line.peek_length]
  have hs : sdaAnswers evGeneralStart = [] := rfl
  cases hany : (l.peek 2).any id with
  | true =>
    rw [evIf, Bool.not_true, if_neg Bool.false_ne_true, if_pos rfl, List.append_nil, pinDrive_append,
      p₁, sdaAnswers_append, hs, List.nil_append, h₁]
    exact ⟨rfl, rfl⟩
  | false =>
    rw [evIf, Bool.not_false, if_pos rfl, if_neg Bool.false_ne_true, pinDrive_append, pinDrive_append,
      p₂, sdaAnswers_append, sdaAnswers_append, sdaAnswers_append, hs, List.nil_append,
      List.nil_append, List.length_append, h₁, h₂, bytesSent_acked _ hany, Line.peek_length]
    exact ⟨rfl, rfl⟩

/-- A register read in NORMAL mode: all bytes and the bus closed, or I2C_ERROR with the transmission
left open. -/
theorem readRegister_follows (reg : Byte) (n : Nat) (s : State) (hm : s.mode = .normal) :
    Follows (readRegister reg n s) s
      (evAddress reg (s.sda.peek 3) ++ evResult (s.sda.peek 3) s.sda n)
      (ackEnd (s.sda.peek 3) ((s.sda.drop 3).bytes n)) (s.regs ((s.sda.peek 3).any id))
      (fun _ => s.regs true) := by
  have hassoc : readRegister reg n s =
      ((writeStep [addrW, reg] true false s).bind fun _ s =>
        writeStep [addrR] true false s).bind fun _ s => readSeq false n false true s := by
    rw [readRegister]
    cases writeStep [addrW, reg] true false s <;> rfl
  have h₁ := address_follows reg s hm
  rw [hassoc, ackEnd, evResult, Line.peek_length]
  rw [ackEnd] at h₁
  cases hany : (s.sda.peek 3).any id with
  | true =>
    rw [hany, if_pos rfl] at h₁
    exact (h₁.bind_raised _).cast (List.append_nil _).symm rfl
  | false =>
    rw [hany, if_neg Bool.false_ne_true] at h₁
    refine h₁.bind fun l tr => ?_
    have hmode : (s.played (s.regs true) (evAddress reg (s.sda.peek 3)) l tr).mode = .normal := hm
    have h₂ := readSeq_follows false n false true
      (s.played (s.regs true) (evAddress reg (s.sda.peek 3)) l tr)
      (by rw [State.dataReady, hmode]; rfl)
    have hline : (s.played (s.regs true) (evAddress reg (s.sda.peek 3)) l tr).readLine =
        s.sda.drop 3 := by
      rw [State.readLine, hmode, State.played, State.bus_sda, (evAddress_leaves reg s.sda s.drv).2,
        bytesSent_acked _ hany, Line.peek_length]
    rw [hline, hmode] at h₂
    exact h₂

/-- A conversion in NORMAL mode: all bytes; or I2C_ERROR, with the transmission closed when the
control-register write met the NACK and left open when a later write did (R208). -/
theorem convert_follows (control : Byte) (us n : Nat) (s : State) (hm : s.mode = .normal) :
    Follows (convert control us n s) s
      (evConversion control us (s.sda.peek 6) ++ evResult (s.sda.peek 6) s.sda n)
      (ackEnd (s.sda.peek 6) ((s.sda.drop 6).bytes n))
      (s.regs (!(s.sda.peek 3).any id && (s.sda.peek 6).any id)) (fun _ => s.regs true) := by
  have h₁ : Follows (writeStep [addrW, regCtrl, control] true true s) s
      (evGeneralStart ++ evBytesOut [0xEE, 0xF4, control] (s.sda.peek 3) ++ evStop)
      (ackEnd (s.sda.peek 3) ()) (s.regs false) (fun _ => s.regs true) := by
    have h := writeStep_follows [addrW, regCtrl, control] true true s
    rw [hm] at h
    exact h
  have hsplit : s.sda.peek 6 = s.sda.peek 3 ++ (s.sda.drop 3).peek 3 := s.sda.peek_add 3 3
  have hdrop : (s.sda.peek 6).drop 3 = (s.sda.drop 3).peek 3 := by
    rw [hsplit]; exact List.drop_left' (s.sda.peek_length 3)
  have htake : (s.sda.peek 6).take 3 = s.sda.peek 3 := rfl
  rw [convert, evConversion, htake, hdrop, ackEnd, evResult, Line.peek_length, hsplit,
    List.any_append]
  rw [ackEnd] at h₁
  cases hany : (s.sda.peek 3).any id with
  | true =>
    rw [hany, if_pos rfl] at h₁
    exact (h₁.bind_raised _).cast (by simp [evIf]) rfl
  | false =>
    rw [hany, if_neg Bool.false_ne_true] at h₁
    rw [Bool.false_or, List.append_assoc]
    refine h₁.bind fun l tr => ?_
    have hused : (sdaAnswers (evGeneralStart ++ evBytesOut [0xEE, 0xF4, control] (s.sda.peek 3) ++
        evStop)).length = 3 := by
      have h := sdaAnswers_bytesOut [0xEE, 0xF4, control] s.sda
      simp only [List.length_cons, List.length_nil, Nat.zero_add, Nat.reduceAdd] at h
      rw [sdaAnswers_append, sdaAnswers_append, List.length_append, List.length_append, h,
        bytesSent_acked _ hany, Line.peek_length]
      rfl
    generalize evGeneralStart ++ evBytesOut [0xEE, 0xF4, control] (s.sda.peek 3) ++ evStop = evs at *
    -- the delay stands between the two parts
    let u := (s.played (s.regs false) evs l tr).played (s.regs false) [.dly us] l [.dly us]
    have hsda : u.sda = s.sda.drop 3 := by
      change (s.sda.drop (sdaAnswers evs).length).drop 0 = _
      rw [hused, Line.drop_drop]
    have h₂ := readRegister_follows regMsb n u hm
    rw [hsda, Line.drop_drop] at h₂
    rw [ackEnd, evResult, Line.peek_length, Line.drop_drop] at h₂
    exact Follows.after (evs₁ := [.dly us]) (done₁ := s.regs false) [.dly us] rfl rfl rfl h₂

theorem evConversion_leaves (control : Byte) (us : Nat) (l : Line) (d : Bool × Bool) :
    pinDrive (evConversion control us (l.peek 6)) d = (!(l.peek 3).any id, false) ∧
      (sdaAnswers (evConversion control us (l.peek 6))).length = bytesSent (l.peek 6) := by
  have hsplit : l.peek 6 = l.peek 3 ++ (l.drop 3).peek 3 := l.peek_add 3 3
  have hdrop : (l.peek 6).drop 3 = (l.drop 3).peek 3 := by
    rw [hsplit]; exact List.drop_left' (l.peek_length 3)
  have htake : (l.peek 6).take 3 = l.peek 3 := rfl
  have h₁ : (sdaAnswers (evBytesOut [0xEE, 0xF4, control] (l.peek 3))).length =
    bytesSent (l.peek 3) := sdaAnswers_bytesOut [0xEE, 0xF4, control] l
  have h₀ : (sdaAnswers (evGeneralStart ++ evBytesOut [0xEE, 0xF4, control] (l.peek 3) ++
      evStop)).length = bytesSent (l.peek 3) := by
    rw [sdaAnswers_append, sdaAnswers_append, List.length_append, List.length_append, h₁]
    exact Nat.zero_add _
  rw [evConversion, htake, hdrop, hsplit, bytesSent_append, Line.peek_length, pinDrive_append,
    sdaAnswers_append, List.length_append, h₀]
  cases hany : (l.peek 3).any id with
  | true =>
    rw [if_pos rfl]
    exact ⟨(pinDrive_append _ _ _).trans rfl, rfl⟩
  | false =>
    obtain ⟨hp, hn⟩ := evAddress_leaves 0xF6 (l.drop 3) (pinDrive (evGeneralStart ++
      evBytesOut [0xEE, 0xF4, control] (l.peek 3) ++ evStop) d)
    rw [if_neg Bool.false_ne_true, bytesSent_acked _ hany, Line.peek_length, ← hn]
    exact ⟨hp, rfl⟩

/-- The data phase and the stop of a register read leave both lines released. -/
theorem evResult_leaves (acks : List Bool) (l : Line) (n : Nat) (d : Bool × Bool)
    (h : acks.any id = false) :
    pinDrive (evResult acks l n) d = (false, false) ∧
      (sdaAnswers (evResult acks l n)).length = 8 * n := by
  rw [evResult, h, evIf, Bool.not_false, if_pos rfl, pinDrive_append, sdaAnswers_append, List.length_append, sdaAnswers_bytesIn,
    Line.bytes_length]
  exact ⟨rfl, rfl⟩

/-- After a NACK there is none. -/
theorem evResult_nack (acks : List Bool) (l : Line) (n : Nat) (h : acks.any id = true) :
    evResult acks l n = [] := by
  rw [evResult, h]
  rfl

end Sys2Proof.Machine
end

