-- ==== Sys2Proof/Laws/Step.lean ====
section
/-! SUPPORT. The step and the host events as equations, one per case. -/

namespace Sys2Proof.Machine

variable (s : State)

/-- An idle block with no host event (R300). -/
theorem step_idle (h : s.seq = .idle) (hh : s.host = []) : step s = .next s := by
  simp only [step, h, idleStep, hh]

/-- An idle block with a host event. -/
theorem step_event (e : HostEvent) (rest : List HostEvent) (h : s.seq = .idle)
    (hh : s.host = e :: rest) : step s = hostStep e { s with host := rest } := by
  obtain ⟨_, _, _, _, _, _, _, _, _, _, _, _, _, _, _, _, _, _, _, _, _, _, _⟩ := s
  cases h
  cases hh
  rfl

/-- A hang (R281). -/
theorem step_waiting (i : Instr) (w : WaitLoop) (h : s.seq = .waiting i w) :
    step s = .next (waitStep w s) := by
  rw [step, h]

/-- A hang with no reset at hand samples again (R135, R281). -/
theorem waitStep_samples (w : WaitLoop) (h : s.host.head? ≠ some .reset) :
    waitStep w s = { s with trace := w.sample :: s.trace } := by
  unfold waitStep
  split
  · rename_i hh
    rw [hh] at h
    exact absurd rfl h
  · cases w <;> rfl

/-- A hang ended by reset (R300). -/
theorem waitStep_reset (w : WaitLoop) (rest : List HostEvent) (h : s.host = .reset :: rest) :
    waitStep w s = { s with host := rest }.applyReset := by
  unfold waitStep
  rw [h]

theorem hostStep_write (addr : BitVec 8) (data : Word) :
    hostStep (.write addr data) s = hostWrite addr data s := rfl

theorem hostStep_read (addr : BitVec 8) :
    hostStep (.read addr) s = .next { s with rdata := hostRead addr s } := rfl

theorem hostStep_reset : hostStep .reset s = .next s.applyReset := rfl

theorem hostStep_resetDuring (data : Word) (k : Nat) :
    hostStep (.resetDuring data k) s = cutOutcome s k (hostWrite 0 data s) := rfl

/-- A write to CMD (R63). -/
theorem hostWrite_cmd (data : Word) :
    hostWrite 0 data s = runWord (data.setWidth 16) { s with cmd := data.setWidth 16 } := rfl

/-- A legal word runs its command (R96). -/
theorem runWord_ok (c : Half) (i : Instr) (h : decode c = .ok i) : runWord c s = exec i s := by
  rw [runWord, h]

/-- An illegal word (R97). -/
theorem runWord_error (c : Half) (r : Reject) (h : decode c = .error r) :
    runWord c s = .next (s.endCommand .illegalCmd) := by
  rw [runWord, h]

/-- What a host read answers does not depend on the queue of host events. -/
theorem hostRead_host (addr : BitVec 8) (rest : List HostEvent) :
    hostRead addr { s with host := rest } = hostRead addr s := by
  unfold hostRead
  split <;> rfl

end Sys2Proof.Machine
end

