-- ==== Sys2Proof/Tests/Slice0.lean ====
section
/-! SUPPORT. Tests on fixed values, each expected value from spec/95_test_vectors.md or from the rule
named; and for every statement with hypotheses a witness that meets them, at boundary values. -/

namespace Sys2Proof.Tests

open Sys2Proof Sys2Proof.Machine

/-! ### Helpers -/

/-- The state a command leads to. -/
def ran (i : Instr) (s : State) : State :=
  match exec i s with
  | .next t => t
  | .fault _ | .refused _ => s

theorem exec_eq_ran (i : Instr) (s : State) : exec i s = .next (ran i s) := by
  obtain ⟨t, h, -⟩ := exec_ran i s
  rw [ran, h]

/-- The state one step leads to. -/
def stepped (s : State) : State :=
  match step s with
  | .next t => t
  | .fault _ | .refused _ => s

/-- The bits of bytes, in wire order. -/
def bitsOf (bytes : List Byte) : List Bool := bytes.flatMap wireBits

/-- From reset, these SDA answers, then 1 for ever. -/
def answering (sda : List Bool) : State := { State.reset with sda := ⟨sda, true⟩ }

/-- From reset, SCL answering 0 for ever. -/
def stuck : State := { State.reset with scl := ⟨[], false⟩ }

/-- With the bus left open as after V20. -/
def opened (s : State) : State := { s with started := true, sclDrv := true }

/-- In SENSOR_VARIANT mode. -/
def variant (s : State) : State := { s with mode := .sensorVariant }

/-- With one pending host event. -/
def facing (e : HostEvent) (s : State) : State := { s with host := [e] }

/-- REF of 95_test_vectors. -/
def refCal : Vector Half 11 :=
  #v[0x0198, 0xFFB8, 0xC7D1, 0x7FE5, 0x7FF5, 0x5A71, 0x182E, 0x0004, 0x8000, 0xDDF9, 0x0B34]

/-- The inputs of E1. -/
def e1 : State := { State.reset with cal := refCal, ut := 27898, up := 23843 }

/-! Bit patterns of 95_test_vectors, conventions. -/

def w (b : Bool) : List Event :=
  [if b then .sdaRel else .sdaLow, .dly 1, .sclRel, .sclSample true, .dly 4, .sclLow, .dly 4]

def r (v : Bool) : List Event :=
  [.sdaRel, .dly 1, .sclRel, .sclSample true, .dly 4, .sdaSample v, .sclLow, .dly 4]

def stEvents : List Event :=
  [.sdaRel, .dly 1, .sclRel, .sclSample true, .dly 4, .sdaLow, .dly 4, .sclLow, .dly 4]

def spEvents : List Event := [.sdaLow, .dly 1, .sclRel, .sclSample true, .dly 4, .sdaRel, .dly 4]

/-! ### Well-formedness (R98) -/

theorem test_wellFormed_refuses_wrb_33 : (Instr.wrb 33 true true).wellFormed = false := by decide

theorem test_wellFormed_refuses_rdb_63 : (Instr.rdb 63 false false).wellFormed = false := by decide

theorem test_wellFormed_takes_32 :
    (Instr.wrb 32 true true).wellFormed = true ∧ (Instr.rdb 32 true true).wellFormed = true := by
  decide

/-! ### Decoding: words written out bit by bit from R91 to R95 -/

/-- Format Z of 40_bit_transport. -/
theorem test_decode_bit_transport :
    decode 0b0001_0000_0000_0000 = .ok .init ∧ decode 0b0010_0000_0000_0000 = .ok .start ∧
    decode 0b0011_0000_0000_0000 = .ok .stop := by decide

/-- Formats M and X of 41_byte_transport: P is bit 9, f bit 8, len bits 5:0. -/
theorem test_decode_byte_transport :
    decode 0b0100_0000_0000_0001 = .ok (.setmode 1) ∧
    decode 0b0101_0001_0000_0101 = .ok (.wrb 5 true false) ∧
    decode 0b0110_0010_0001_0010 = .ok (.rdb 18 false true) := by decide

/-- Formats Z and O of 42_bmp085_access. -/
theorem test_decode_bmp085 :
    decode 0b0111_0000_0000_0000 = .ok .rdcal ∧ decode 0b1000_0000_0000_0000 = .ok .rdt ∧
    decode 0b1001_0000_0000_0010 = .ok (.rdp 2) := by decide

/-- Format Z of 43_compensation. -/
theorem test_decode_compensation : decode 0b1010_0000_0000_0000 = .ok .comp := by decide

/-- The illegal words of V10, with the step of R96 that refuses each. -/
theorem test_decode_refuses :
    decode 0x0000 = .error .opcode ∧ decode 0x1001 = .error .reserved ∧
    decode 0x2800 = .error .reserved ∧ decode 0x4004 = .error .reserved ∧
    decode 0x5021 = .error .length ∧ decode 0x503F = .error .length ∧
    decode 0x5440 = .error .reserved ∧ decode 0x5C00 = .error .reserved ∧
    decode 0x6040 = .error .reserved ∧ decode 0x9004 = .error .reserved ∧
    decode 0xA001 = .error .reserved ∧ decode 0xB000 = .error .opcode ∧
    decode 0xFFFF = .error .opcode := by decide

/-- Words of V10, from the encoder. -/
theorem test_encode :
    encode (.wrb 3 true true) = 0x5303 ∧ encode (.rdb 2 false true) = 0x6202 ∧
    encode (.rdb 32 true true) = 0x6320 ∧ encode (.setmode 3) = 0x4003 ∧
    encode (.rdp 3) = 0x9003 := by decide

/-- P5: the words of CONNRESET. -/
theorem test_connReset_words :
    connReset.map encode = [0x3000, 0x4000, 0x6001, 0x4001, 0x2000] := by decide

/-! ### Commands -/

/-- V14. -/
theorem test_init_keeps_started :
    (ran .init { opened State.reset with sdaDrv := true }).trace.reverse = [.sclRel, .sdaRel] ∧
    (ran .init { opened State.reset with sdaDrv := true }).flags = 0b0001 := by decide

/-- V15: a stretched clock under WLIM = 3. -/
theorem test_start_stretched :
    let t := ran .start { State.reset with wlim := 3, scl := ⟨[false, false], true⟩ }
    t.trace.reverse =
      [.sdaRel, .dly 1, .sclRel, .sclSample false, .sclSample false, .sclSample true, .dly 4,
       .sdaLow, .dly 4, .sclLow, .dly 4] ∧ t.flags = 0b1101 ∧ t.status = 0 := by decide

/-- V16. -/
theorem test_start_timeout :
    let t := ran .start { stuck with wlim := 3 }
    t.trace.reverse =
      [.sdaRel, .dly 1, .sclRel, .sclSample false, .sclSample false, .sclSample false] ∧
    t.flags = 0b0001 ∧ t.status = 6 := by decide

/-- V13. -/
theorem test_stop :
    let t := ran .stop { opened State.reset with sdaDrv := true }
    t.trace.reverse = spEvents ∧ t.flags = 0 ∧ t.status = 0 := by decide

/-- V24, row 6: BUSY comes before UNKNOWN_MODE. -/
theorem test_setmode_busy_first :
    let t := ran (.setmode 3) (variant (opened State.reset))
    t.status = 2 ∧ t.mode = .sensorVariant := by decide

/-- V24, rows 1 and 8. -/
theorem test_setmode_closed :
    (ran (.setmode 1) State.reset).mode = .sensorVariant ∧
    (ran (.setmode 3) (variant State.reset)).status = 3 := by decide

/-- V20: the byte 0xEE, acknowledged. -/
theorem test_wrb_one_byte :
    let t := ran (.wrb 1 true false) { answering [false] with buf := [(0, 0xEE)] }
    t.trace.reverse = stEvents ++ w true ++ w true ++ w true ++ w false ++ w true ++ w true ++
      w true ++ w false ++ r false ∧ t.status = 0 ∧ t.flags = 0b0101 := by decide

/-- V21, row 4: NACK of the middle byte, with stop. -/
theorem test_wrb_nack_middle :
    let t := ran (.wrb 3 true true)
      { answering [false, true] with buf := [(0, 0xA0), (1, 0xB1), (2, 0xC2)] }
    t.trace.length = 144 ∧ durationUs t.trace = 184 ∧ t.status = 1 ∧ t.flags = 0 := by decide +kernel

/-- V22: byte 0 acknowledged, byte 1 not. -/
theorem test_rdb_two_bytes :
    let t := ran (.rdb 2 false true) (opened (answering (bitsOf [0x6C, 0xFA])))
    t.trace.reverse = (bitsOf [0x6C]).flatMap r ++ w false ++ (bitsOf [0xFA]).flatMap r ++ w true ++
      spEvents ∧ t.buf = [(0, 0x6C), (1, 0xFA)] ∧ t.status = 0 ∧ t.flags = 0 := by decide

/-- V26: the wait for data low in SENSOR_VARIANT mode. -/
theorem test_rdb_variant :
    let t := ran (.rdb 1 false true) (opened (variant (answering ([true, false] ++ bitsOf [0x5A]))))
    t.trace.reverse = [.sdaRel, .sdaSample true, .sdaSample false] ++ (bitsOf [0x5A]).flatMap r ++
      w true ++ spEvents ∧ t.buf = [(0, 0x5A)] ∧ t.flags = 0b0010 := by decide

/-- V30. -/
theorem test_rdcal :
    let t := ran .rdcal (answering (List.replicate 3 false ++
      bitsOf [0x01, 0x98, 0xFF, 0xB8, 0xC7, 0xD1, 0x7F, 0xE5, 0x7F, 0xF5, 0x5A, 0x71, 0x18, 0x2E,
        0x00, 0x04, 0x80, 0x00, 0xDD, 0xF9, 0x0B, 0x34]))
    t.cal = refCal ∧ t.status = 0 ∧ t.flags = 0 ∧ t.trace.length = 1779 := by decide +kernel

/-- V33, RDCAL with NACK of 0xAA. -/
theorem test_rdcal_nack :
    let t := ran .rdcal (answering [false, true])
    t.trace.length = 137 ∧ durationUs t.trace = 175 ∧ t.status = 4 ∧ t.flags = 0b0101 := by decide +kernel

/-- V31. -/
theorem test_rdt :
    let t := ran .rdt (answering (List.replicate 6 false ++ bitsOf [0x6C, 0xFA]))
    t.ut = 27898 ∧ t.status = 0 ∧ t.flags = 0 ∧ t.trace.length = 568 ∧
    durationUs t.trace = 5705 := by decide +kernel

/-- V33, row 2. -/
theorem test_rdt_pointer_nack :
    let t := ran .rdt { answering [false, false, false, true] with ut := 0x1234 }
    t.ut = 0x1234 ∧ t.status = 4 ∧ t.flags = 0b0101 ∧ t.trace.length = 282 ∧
    durationUs t.trace = 5359 := by decide +kernel

/-- V32 (b). -/
theorem test_rdp_two :
    let t := ran (.rdp 2) (answering (List.replicate 6 false ++ bitsOf [0x5D, 0x23, 0xA0]))
    t.up = 95374 ∧ t.oss = 2 ∧ t.trace.length = 639 ∧ durationUs t.trace = 26786 := by decide +kernel

/-- V32 (c). -/
theorem test_rdp_three :
    let t := ran (.rdp 3) (answering (List.replicate 6 false ++ bitsOf [0xFF, 0xFF, 0xFF]))
    t.up = 524287 ∧ t.oss = 3 ∧ t.status = 0 := by decide

/-- V40: the two roundings. -/
theorem test_comp_rounding :
    (ran .comp { e1 with ut := 27001 }).tp = 70378 ∧
    (ran .comp { e1 with ut := 27001, cfg := { e1.cfg with divRound := .towardMinusInfinity } }).tp =
      70376 := by decide

/-- V42 (c): the temperature is not written when the pressure faults. -/
theorem test_comp_fault :
    let t := ran .comp { e1 with cal := refCal.set 3 0 }
    t.status = 7 ∧ t.tt = 0 := by decide

/-! ### The host port and reset -/

/-- V51. -/
theorem test_host_write_truncates :
    hostRead 0x11 (stepped (facing (.write 0x11 0xFFFFFFB8) State.reset)) = 0x0000FFB8 ∧
    hostRead 0x05 (stepped (facing (.write 0x05 7) State.reset)) = 3 ∧
    hostRead 0x07 (stepped (facing (.write 0x07 0xFFFFFFFF) State.reset)) = 0x7FFFF ∧
    hostRead 0x3F (stepped (facing (.write 0x3F 0x1FF) State.reset)) = 0xFF := by decide

/-- V52 and V50. -/
theorem test_host_read_only :
    stepped (facing (.write 0x01 5) State.reset) = State.reset ∧
    stepped (facing (.write 0x08 1) State.reset) = State.reset ∧
    (stepped (facing (.write 0x00 0) State.reset)).status = 8 ∧
    hostRead 0x03 State.reset = 0x640 := by decide

/-- V10: bits 31:16 of a write to CMD are ignored. -/
theorem test_host_cmd_high_bits :
    (stepped (facing (.write 0 0xABCD1000) State.reset)).cmd = 0x1000 ∧
    (stepped (facing (.write 0 0xABCD1000) State.reset)).trace = [.sdaRel, .sclRel] := by decide

/-- R303: a START cut short after its fourth micro-operation has asserted nothing. -/
theorem test_reset_during_start :
    (stepped (facing (.resetDuring 0x2000 4) State.reset)).trace.reverse =
      [.sdaRel, .dly 1, .sclRel, .sclSample true] ∧
    (stepped (facing (.resetDuring 0x2000 4) State.reset)).started = false := by decide

/-- V16 with WLIM = 0: one more sample a step, STATUS never written. -/
theorem test_hang_goes_on :
    (stepped (ran .start stuck)).trace.reverse = [.sdaRel, .dly 1, .sclRel, .sclSample false] ∧
    (stepped (ran .start stuck)).status = 0 := by decide

/-! ### Witnesses: for each statement with hypotheses, states that meet them, one per clause -/

theorem witness_DecodeEncode :
    (Instr.wrb 32 true true).wellFormed = true ∧ (Instr.rdb 0 false false).wellFormed = true := by
  decide

theorem witness_EncodeDecode : decode 0x5320 = .ok (.wrb 32 true true) := by decide

/-- One word for each of the tests, at the ends of their ranges. -/
theorem witness_DecodeOrder :
    (0x0FFF#16).toNat < 0x1000 ∧ 0xB000 ≤ (0xB000#16).toNat ∧
    ¬((0x1001#16).toNat < 0x1000 ∨ 0xB000 ≤ (0x1001#16).toNat) ∧
    0x1001#16 &&& reservedBits 0x1001 ≠ 0 ∧
    0x5021#16 &&& reservedBits 0x5021 = 0 ∧ 32 < ((0x5021#16).extractLsb' 0 6).toNat ∧
    0x5020#16 &&& reservedBits 0x5020 = 0 ∧ ¬32 < ((0x5020#16).extractLsb' 0 6).toNat := by decide

theorem witness_StepRunsDecoded :
    let s := facing (.write 0 0xABCDA000) State.reset
    s.seq = .idle ∧ s.host = .write 0 0xABCDA000 :: [] ∧
    decode ((0xABCDA000#32).setWidth 16) = .ok .comp := by decide

theorem witness_StepRunsFetchWord : 0x9003 < 2 ^ 16 ∧ decodeTableWord 16 0x9003 = some (.rdp 3) := by
  decide

theorem witness_IllegalWord :
    let s := facing (.write 0 0x5021) State.reset
    s.seq = .idle ∧ s.host = .write 0 0x5021 :: [] ∧
    decode ((0x5021#32).setWidth 16) = .error .length := by decide

/-- A writable address at each end of its range, and a read-only and a reserved one beside it. -/
theorem witness_HostWrite :
    (facing (.write 0x1A 7) State.reset).seq = .idle ∧
    (facing (.write 0x1A 7) State.reset).host = .write 0x1A 7 :: [] ∧
    Memory.wf (facing (.write 0x1A 7) State.reset).buf = true ∧ (0x1A#8) ≠ 0 ∧
    hostBits 0x10 ≠ 0 ∧ hostBits 0x1A ≠ 0 ∧ hostBits 0x20 ≠ 0 ∧ hostBits 0x3F ≠ 0 ∧
    hostBits 0x01 = 0 ∧ hostBits 0x09 = 0 ∧ hostBits 0x1B = 0 ∧ hostBits 0x40 = 0 := by decide

theorem witness_HostRead :
    let s := facing (.read 0xFF) State.reset
    s.seq = .idle ∧ s.host = .read 0xFF :: [] := by decide

/-- A read and a write, at both ends of each reserved range. -/
theorem witness_ReservedAddress :
    (facing (.read 0x0A) State.reset).seq = .idle ∧
    (facing (.read 0x0A) State.reset).host = .read 0x0A :: [] ∧
    (facing (.write 0x40 1) State.reset).host = .write 0x40 1 :: [] ∧
    ∀ a ∈ [0x0A#8, 0x0F#8, 0x1B#8, 0x1F#8, 0x40#8, 0xFF#8],
      0x0A ≤ a.toNat ∧ a.toNat ≤ 0x0F ∨ 0x1B ≤ a.toNat ∧ a.toNat ≤ 0x1F ∨ 0x40 ≤ a.toNat := by
  decide

/-- At an idle block and in a hang. -/
theorem witness_ResetEvent :
    (facing .reset State.reset).host = .reset :: [] ∧
    (facing .reset (ran .start stuck)).host = .reset :: [] ∧
    (facing .reset (ran .start stuck)).seq = .waiting .start .sclHigh := by decide

/-- Cut short within the command's events, after all of them, and in a hang. -/
theorem witness_ResetDuring :
    (facing (.resetDuring 0x2000 4) State.reset).seq = .idle ∧
    (facing (.resetDuring 0x2000 4) State.reset).host = .resetDuring 0x2000 4 :: [] ∧
    decode ((0x2000#32).setWidth 16) = .ok .start ∧
    (ran .start State.reset).trace.length = 9 ∧ (ran .start State.reset).seq = .idle ∧
    (stepped (facing (.resetDuring 0x2000 10) State.reset)).trace = (ran .start State.reset).trace ∧
    (ran .start stuck).trace.length = 3 ∧ (ran .start stuck).seq = .waiting .start .sclHigh := by
  decide

/-- A WRB of one byte that the host has written; in the other state CAL and another byte of BUF, which
nothing has written, differ. -/
theorem witness_DefinedStep :
    let s := facing (.write 0 0x5101) (State.reset.setBuf 0 0xEE)
    let s' := { s with cal := refCal, buf := [(0, 0xEE), (5, 1)] }
    s.sameDefined s' ∧ Memory.wf s.buf = true ∧ Memory.wf s'.buf = true ∧ s.stepDefined = true := by
  unfold State.sameDefined
  decide

theorem witness_IdleStays : State.reset.seq = .idle ∧ State.reset.host = [] := by decide

theorem witness_HangGoesOn :
    (ran .start stuck).seq = .waiting .start .sclHigh ∧
    (ran .start stuck).host.head? ≠ some .reset := by decide

/-- The clock free, stretched without a limit, and stretched just below the limit, in either mode. -/
theorem witness_StartCompletes :
    State.reset.clockAfter (rises (evStart State.reset.cfg .normal)) = some ⟨[], true⟩ ∧
    { State.reset with scl := ⟨[false, false, false], true⟩ }.clockAfter
      (rises (evStart State.reset.cfg .normal)) = some ⟨[], true⟩ ∧
    { State.reset with wlim := 3, scl := ⟨[false, false, true, false, false], true⟩ }.clockAfter
      (rises (evStart State.reset.cfg .sensorVariant)) = some ⟨[], true⟩ := by decide

theorem witness_StartUnstretched :
    State.reset.scl = ⟨[], true⟩ ∧ State.reset.mode = .normal ∧
    (variant State.reset).mode = .sensorVariant ∧
    (variant State.reset).cfg.variantTail = variantTailDefault := by decide

theorem witness_StopCompletes :
    (variant (opened State.reset)).clockAfter 1 = some ⟨[], true⟩ := by decide

theorem witness_SetmodeEffect :
    (opened State.reset).started = true ∧ State.reset.started = false ∧ 2 ≤ (2#2).toNat := by decide

/-- No byte at all, and the longest transfer with its last byte not acknowledged, on a clock that
serves every rise and then stops. -/
theorem witness_WrbCompletes :
    let s := { answering (List.replicate 31 false) with wlim := 1, scl := ⟨List.replicate 290 true, false⟩ }
    (32#6).toNat ≤ 32 ∧ (0#6).toNat ≤ 32 ∧
    s.clockAfter (rises (evIf true (evStart s.cfg s.mode) ++
      evBytesOut (bufBytes s.buf (32#6).toNat 0) (s.sda.peek (32#6).toNat) ++ evIf true evStop)) =
      some ⟨[], false⟩ ∧
    s.clockAfter (rises (evIf false (evStart s.cfg s.mode) ++
      evBytesOut (bufBytes s.buf (0#6).toNat 0) (s.sda.peek (0#6).toNat) ++ evIf false evStop)) =
      some s.scl := by decide +kernel

/-- A NACK at the first, a middle and the last byte of three. -/
theorem witness_WrbNackAt :
    (3#6).toNat ≤ 32 ∧
    ∀ k < (3#6).toNat,
      let s := answering (List.replicate k false ++ [true])
      s.sda.peek (k + 1) = List.replicate k false ++ [true] ∧
      s.clockAfter (rises (evIf true (evStart s.cfg s.mode) ++
        (bufBytes s.buf k 0).flatMap (fun b => evByteOut b false) ++
        evByteOut (Memory.read s.buf k) true ++ evIf true evStop)) = some ⟨[], true⟩ := by
  decide +kernel

/-- A NACK at the first and at the last byte of three, with a start; the clock serves the bytes and
not the stop. -/
theorem witness_NackThenTimeout :
    (3#6).toNat ≤ 32 ∧
    ∀ k < (3#6).toNat,
      let s := { answering (List.replicate k false ++ [true]) with
        wlim := 1, scl := ⟨List.replicate (10 + 9 * k) true, false⟩ }
      s.sda.peek (k + 1) = List.replicate k false ++ [true] ∧
      s.clockAfter (rises (evIf true (evStart s.cfg s.mode) ++
        (bufBytes s.buf k 0).flatMap (fun b => evByteOut b false) ++
        evByteOut (Memory.read s.buf k) true)) = some ⟨[], false⟩ ∧
      (s.clockWait ⟨[], false⟩).ending = .timeout := by decide +kernel

/-- In NORMAL mode; in SENSOR_VARIANT mode on a line that rests high and answers WLIM ones in a row
among the data (V26), the line ready at the last sample that the limit allows. -/
theorem witness_RdbCompletes :
    let s := State.reset
    let v := variant { State.reset with
      wlim := 3, sda := ⟨[true, true, false, false, true, true, true], true⟩ }
    (32#6).toNat ≤ 32 ∧ (0#6).toNat ≤ 32 ∧ s.dataReady = true ∧ Memory.wf s.buf = true ∧
    s.clockAfter (rises (evReady s.sda s.mode ++ evBytesIn true (s.readLine.bytes (32#6).toNat) ++
      evIf true evStop)) = some ⟨[], true⟩ ∧
    v.dataReady = true ∧ Memory.wf v.buf = true ∧
    v.clockAfter (rises (evReady v.sda v.mode ++ evBytesIn false (v.readLine.bytes (1#6).toNat) ++
      evIf true evStop)) = some ⟨[], true⟩ := by decide +kernel

/-- Never low without a limit, after two more answers; never low within a limit of 1 and of 2. -/
theorem witness_RdbNeverReady :
    (0#6).toNat ≤ 32 ∧ (variant State.reset).mode = .sensorVariant ∧
    (variant { State.reset with sda := ⟨[true, true], true⟩ }).dataWait.ending = .never ∧
    (variant { State.reset with wlim := 1 }).dataWait.ending = .timeout ∧
    (variant { State.reset with wlim := 2, sda := ⟨[true, true], false⟩ }).dataWait.ending = .timeout ∧
    (variant State.reset).sda = ⟨[], true⟩ := by decide

/-- The clock stops before the first bit, after the eighth bit of the last of two bytes, and before the
stop; in SENSOR_VARIANT mode; under a limit and without one. -/
theorem witness_RdbCutShort :
    (∀ m ∈ [0, 17, 18], ∀ n ∈ [0, 1],
      let s := { State.reset with wlim := BitVec.ofNat 32 n, scl := ⟨List.replicate m true, false⟩ }
      s.dataReady = true ∧ Memory.wf s.buf = true ∧
      m < rises (evReady s.sda s.mode ++ evBytesIn true (s.readLine.bytes (2#6).toNat) ++
        evIf true evStop) ∧
      s.clockAfter m = some ⟨[], false⟩ ∧ (s.clockWait ⟨[], false⟩).ending ≠ .seen) ∧
    let v := variant { State.reset with
      wlim := 2, sda := ⟨[true, false], true⟩, scl := ⟨[false, true], false⟩ }
    v.dataReady = true ∧ Memory.wf v.buf = true ∧
    1 < rises (evReady v.sda v.mode ++ evBytesIn true (v.readLine.bytes (2#6).toNat) ++
      evIf true evStop) ∧
    v.clockAfter 1 = some ⟨[], false⟩ ∧ (v.clockWait ⟨[], false⟩).ending ≠ .seen := by decide +kernel

/-- Each command of the bus with its first clock rise missing, and WRB, RDCAL, RDT and RDP with a
later one: within a byte, at a stop, and at the start after the stop; with a limit and without. -/
theorem witness_ClockStops :
    ∀ c ∈ [(Instr.start, 0), (.stop, 0), (.wrb 2 true true, 0), (.wrb 2 true true, 5),
        (.wrb 2 true true, 19), (.rdcal, 0), (.rdcal, 227), (.rdt, 28), (.rdt, 29), (.rdp 3, 84)],
      ∀ n ∈ [0, 1],
        let s := { answering (List.replicate 6 false) with
          wlim := BitVec.ofNat 32 n, scl := ⟨List.replicate c.2 true, false⟩ }
        c.2 < rises (busEvents c.1 s) ∧ s.clockAfter c.2 = some ⟨[], false⟩ ∧
        (s.clockWait ⟨[], false⟩).ending ≠ .seen := by decide +kernel

theorem witness_LengthIllegal : 32 < (33#6).toNat ∧ 32 < (63#6).toNat := by decide

theorem witness_RdcalCompletes :
    let s := answering [false, false, false]
    s.started = false ∧ (s.sda.peek 3).any id = false ∧
    s.clockAfter (rises (evAddress 0xAA [false, false, false] ++
      evBytesIn false ((s.sda.drop 3).bytes 22) ++ evStop)) = some ⟨[], true⟩ := by decide +kernel

theorem witness_RdtCompletes :
    let s := answering (List.replicate 6 false)
    s.started = false ∧ (s.sda.peek 6).any id = false ∧
    s.clockAfter (rises (evConversion 0x2E 5000 (List.replicate 6 false) ++
      evBytesIn false ((s.sda.drop 6).bytes 2) ++ evStop)) = some ⟨[], true⟩ := by decide +kernel

theorem witness_RdpCompletes :
    let s := variant (answering (List.replicate 6 false))
    s.started = false ∧ (s.sda.peek 6).any id = false ∧
    s.clockAfter (rises (evConversion (BitVec.ofNat 8 (0x34 + 64 * (3#2).toNat)) 26000
      (List.replicate 6 false) ++ evBytesIn false ((s.sda.drop 6).bytes 3) ++ evStop)) =
      some ⟨[], true⟩ := by decide +kernel

/-- A NACK of the first and of the last written byte. -/
theorem witness_RdcalNack :
    ∀ sda ∈ [[true], [false, false, true]],
      let s := answering sda
      s.started = false ∧ (s.sda.peek 3).any id = true ∧
      s.clockAfter (rises (evAddress 0xAA (s.sda.peek 3))) = some ⟨[], true⟩ := by decide +kernel

/-- A NACK in the control-register write and one after it; RDT and RDP. -/
theorem witness_ConversionNack :
    (∀ k ∈ [2, 3, 5],
      let s := answering (List.replicate k false ++ [true])
      s.started = false ∧ (s.sda.peek 6).any id = true ∧
      ((s.sda.peek 3).any id = true ↔ k = 2) ∧
      s.clockAfter (rises (evConversion 0x2E 5000 (s.sda.peek 6))) = some ⟨[], true⟩ ∧
      s.clockAfter (rises (evConversion 0xF4 26000 (s.sda.peek 6))) = some ⟨[], true⟩) ∧
    (0xF4 : Byte) = BitVec.ofNat 8 (0x34 + 64 * (3#2).toNat) := by decide +kernel

theorem witness_ModeChangeError : (opened State.reset).started = true := by decide

theorem witness_RegisterStuckClock :
    stuck.started = false ∧ stuck.scl = ⟨[], false⟩ ∧ stuck.wlim = 0 ∧
    { stuck with wlim := 1 }.wlim ≠ 0 := by decide

/-- Each of the four commands, as it opens. -/
theorem witness_TransportStuckClock :
    stuck.scl = ⟨[], false⟩ ∧ stuck.wlim = 0 ∧ { stuck with wlim := 1 }.wlim ≠ 0 ∧
    (Instr.wrb 32 false false).wellFormed = true ∧
    opening .start stuck = some (true, .sdaRel) ∧ opening .stop stuck = some (false, .sdaLow) ∧
    opening (.wrb 32 false false) stuck = some (false, .sdaLow) ∧
    opening (.wrb 0 true false) stuck = some (true, .sdaRel) ∧
    opening (.wrb 0 false true) stuck = some (false, .sdaLow) ∧
    opening (.rdb 1 false false) stuck = some (false, .sdaRel) ∧
    opening (.rdb 0 false true) stuck = some (false, .sdaLow) := by decide

theorem witness_CalibrationWords : (List.replicate 22 (0xFF : Byte)).length = 22 := by decide

theorem witness_Durations :
    let s := answering (List.replicate 6 false)
    s.mode = .normal ∧ s.started = false ∧ (s.sda.peek 3).any id = false ∧
    (s.sda.peek 6).any id = false ∧ waitsEnd .start s = true ∧ waitsEnd .stop s = true ∧
    waitsEnd .rdcal s = true ∧ waitsEnd .rdt s = true ∧ waitsEnd (.rdp 3) s = true := by
  decide +kernel

/-- V42 (a), V42 (c) and E1. -/
theorem witness_CompFault :
    refDen { e1 with ut := 20285 } = 0 ∧ refB4 { e1 with cal := refCal.set 3 0 } = 0 ∧
    (refCal.set 3 0)[3] = 0 ∧ ¬(refDen e1 = 0 ∨ refB4 e1 = 0) := by decide +kernel

theorem witness_CompExample : e1.ut = 27898 ∧ e1.up = 23843 ∧ e1.oss = 0 ∧ e1.cal = refCal := by
  decide

/-- V44: another MB, and the bus open. -/
theorem witness_CompPure :
    let s' := opened { e1 with cal := refCal.set 8 0x3039 }
    e1.ut = s'.ut ∧ e1.up = s'.up ∧ e1.oss = s'.oss ∧ e1.poff = s'.poff ∧
    e1.cfg.divRound = s'.cfg.divRound ∧ (∀ i : Fin 11, i ≠ 8 → e1.cal[i] = s'.cal[i]) ∧
    (ran .comp e1).status = 0 := by decide

/-- The three ends of a wait, at the limit and one below it. -/
theorem witness_WaitLoopEnds :
    (waitOn true 3 false ⟨[false, false], true⟩).ending = .seen ∧
    true ∈ Line.peek ⟨[false, false], true⟩ 3 ∧ true ∉ Line.peek ⟨[false, false, false], true⟩ 3 ∧
    (waitOn true 3 false ⟨[false, false, false], true⟩).ending = .timeout ∧
    (waitOn true 0 false ⟨[false], false⟩).ending = .never ∧
    (Line.next ⟨[], true⟩).1 = true := by decide

/-- Each clause of who writes what. -/
theorem witness_Writers :
    (ran .rdcal (answering [false, false, false])).cal ≠ State.reset.cal ∧
    (ran .rdt (answering (List.replicate 6 false))).ut ≠ State.reset.ut ∧
    (ran (.rdp 1) (answering (List.replicate 6 false))).up ≠ State.reset.up ∧
    (ran .comp e1).tt ≠ e1.tt ∧ (ran (.setmode 1) State.reset).mode ≠ State.reset.mode ∧
    (ran .start State.reset).started = true ∧ (ran .stop (opened State.reset)).started = false ∧
    (ran .start stuck).seq ≠ .idle := by decide +kernel

theorem witness_BufWrites :
    Memory.wf State.reset.buf = true ∧
    exec (.rdb 1 false true) State.reset = .next (ran (.rdb 1 false true) State.reset) ∧
    bufBound (.rdb 1 false true) = 1 :=
  ⟨by decide, exec_eq_ran _ _, by decide⟩

/-- A SETMODE written while a transmission is open. -/
theorem witness_ModeLocked :
    let s := facing (.write 0 0x4001) (opened State.reset)
    s.started = true ∧ s.host.head? ≠ some .reset ∧
    (∀ data k, s.host.head? ≠ some (.resetDuring data k)) ∧ step s = .next (stepped s) := by
  refine ⟨by decide, by decide, fun data k h => ?_, rfl⟩
  simp [facing] at h

theorem witness_StatusCodes :
    exec .start State.reset = .next (ran .start State.reset) ∧
    (ran .start State.reset).seq = .idle :=
  ⟨exec_eq_ran _ _, by decide⟩

theorem witness_LimitEnds : { stuck with wlim := 1 }.wlim ≠ 0 := by decide

/-- A read in SENSOR_VARIANT mode under a limit, the line resting high; U3's lines without a limit. -/
theorem witness_ServedEnds :
    waitsEnd .start State.reset = true ∧
    waitsEnd (.rdb 1 false true) (variant { State.reset with
      wlim := 2, sda := ⟨[true, false], true⟩ }) = true ∧
    let s := variant { State.reset with sda := ⟨[true, false], true⟩ }
    s.wlim = 0 ∧ s.scl.rest = true ∧ false ∈ s.sda.peek 2 := by decide +kernel

/-- A hang in each of the two wait loops. -/
theorem witness_HangsOnlyUnbounded :
    exec .stop stuck = .next (ran .stop stuck) ∧
    (ran .stop stuck).seq = .waiting .stop .sclHigh ∧
    (ran (.rdb 1 false false) (variant State.reset)).seq = .waiting (.rdb 1 false false) .sdaLow :=
  ⟨exec_eq_ran _ _, by decide, by decide⟩

/-- For SamplesAreAnswers and LatchesFollowTrace: a command that samples both lines. -/
theorem witness_SamplesAreAnswers :
    exec (.rdb 1 true true) State.reset = .next (ran (.rdb 1 true true) State.reset) :=
  exec_eq_ran _ _

theorem witness_LatchesFollowTrace :
    exec (.wrb 1 true true) State.reset = .next (ran (.wrb 1 true true) State.reset) :=
  exec_eq_ran _ _

theorem witness_ClockDiscipline :
    Instr.start ≠ .init ∧ TailOp.releaseScl ∉ (variant State.reset).cfg.variantTail ∧
    exec .start (variant State.reset) = .next (ran .start (variant State.reset)) :=
  ⟨by decide, by decide, exec_eq_ran _ _⟩

/-- An idle block, and one that hangs. -/
theorem witness_StepInv :
    State.reset.Inv = true ∧ step State.reset = .next (stepped State.reset) ∧
    (ran .start stuck).Inv = true ∧
    step (ran .start stuck) = .next (stepped (ran .start stuck)) :=
  ⟨by decide, rfl, by decide, rfl⟩

end Sys2Proof.Tests
end

section
/-! The compensation engine against the rules over the integers (O41). `BitVec.ofInt 32` takes an
integer to the word that holds it. It carries `+`, `-` and `*` over to words and forgets `s32` and
`u32` (R232 b), so each register of the engine is the word of its integer in rules R233 to R252.
Only shifts, divisions and comparisons look at a value as signed or unsigned (R232 c to f), and there
the rule's own `s32` or `u32` says which. -/

namespace Sys2Proof.Machine

/-! ### Integers narrowed to words -/

@[simp] theorem ofInt_s32 (v : Int) : BitVec.ofInt 32 (s32 v) = BitVec.ofInt 32 v := by
  apply BitVec.eq_of_toInt_eq
  simp [s32]

@[simp] theorem ofInt_u32 (v : Int) : BitVec.ofInt 32 (u32 v) = BitVec.ofInt 32 v := by
  apply BitVec.eq_of_toInt_eq
  rw [BitVec.toInt_ofInt, BitVec.toInt_ofInt]
  exact Int.emod_bmod v (2 ^ 32)

theorem ofInt_sub (a b : Int) :
    BitVec.ofInt 32 (a - b) = BitVec.ofInt 32 a - BitVec.ofInt 32 b := by
  rw [Int.sub_eq_add_neg, BitVec.ofInt_add, BitVec.ofInt_neg, BitVec.sub_eq_add_neg]

theorem s32_s32 (v : Int) : s32 (s32 v) = s32 v := Int.bmod_bmod

theorem u32_u32 (v : Int) : u32 (u32 v) = u32 v := Int.emod_emod_of_dvd v dvd_rfl

theorem toInt_ofInt_eq_s32 (v : Int) : (BitVec.ofInt 32 v).toInt = s32 v := BitVec.toInt_ofInt v

theorem toNat_ofInt_eq_u32 (v : Int) : ((BitVec.ofInt 32 v).toNat : Int) = u32 v := by
  rw [BitVec.toNat_ofInt, Int.toNat_of_nonneg (Int.emod_nonneg _ (by decide))]
  rfl

theorem ofInt_toNat {w : Nat} (v : BitVec w) : BitVec.ofInt 32 v.toNat = v.setWidth 32 := by
  rw [BitVec.ofInt_natCast, BitVec.ofNat_toNat]

/-! ### Shifts and divisions -/

theorem toInt_asr (v : Word) (n : Nat) : (asr v n).toInt = floorShift v.toInt n := by
  rw [asr, BitVec.toInt_sshiftRight, Int.shiftRight_eq_div_pow, floorShift, Int.natCast_pow]
  rfl

theorem toNat_ushiftRight_eq_floorShift (v : Word) (n : Nat) :
    ((v >>> n).toNat : Int) = floorShift v.toNat n := by
  rw [BitVec.toNat_ushiftRight, Nat.shiftRight_eq_div_pow, floorShift, Int.natCast_ediv,
    Int.natCast_pow]
  rfl

@[simp] theorem ofInt_floorShift_s32 (v : Int) (n : Nat) :
    BitVec.ofInt 32 (floorShift (s32 v) n) = asr (BitVec.ofInt 32 v) n := by
  rw [← toInt_ofInt_eq_s32, ← toInt_asr, BitVec.ofInt_toInt]

@[simp] theorem ofInt_floorShift_u32 (v : Int) (n : Nat) :
    BitVec.ofInt 32 (floorShift (u32 v) n) = BitVec.ofInt 32 v >>> n := by
  rw [← toNat_ofInt_eq_u32, ← toNat_ushiftRight_eq_floorShift, ofInt_toNat,
    BitVec.setWidth_eq]

theorem ofInt_mul_two_pow (v : Int) (n : Nat) :
    BitVec.ofInt 32 (v * 2 ^ n) = BitVec.ofInt 32 v <<< n := by
  have hpow : BitVec.ofInt 32 (2 ^ n) = BitVec.twoPow 32 n := by
    apply BitVec.eq_of_toNat_eq
    rw [BitVec.toNat_twoPow, ← Int.natCast_inj, toNat_ofInt_eq_u32, u32]
    push_cast
    rfl
  rw [BitVec.ofInt_mul, hpow, BitVec.mul_twoPow_eq_shiftLeft]

/-- The factor of R247: 50000 is small enough that the unsigned shift is the integer quotient. -/
theorem ofInt_fiftyThousand_div (n : Nat) :
    BitVec.ofInt 32 (50000 / 2 ^ n) = (50000 : Word) >>> n :=
  ofInt_floorShift_u32 50000 n

/-- The signed division is the integer quotient of the signed values, whichever way it rounds
(R234, U10). -/
theorem signedDiv_eq_refDiv (round : DivRound) (a b : Word) :
    signedDiv round a b = BitVec.ofInt 32 (refDiv round a.toInt b.toInt) := by
  cases round <;> rfl

theorem ofInt_toNat_div (a b : Word) : BitVec.ofInt 32 ((a.toNat : Int) / b.toNat) = a / b := by
  rw [← Int.natCast_ediv, ← BitVec.toNat_udiv, ofInt_toNat, BitVec.setWidth_eq]

theorem lt_two_pow_31_iff (v : Word) : v < 0x80000000 ↔ (v.toNat : Int) < 2147483648 := by
  rw [BitVec.lt_def]
  exact Int.ofNat_lt.symm

/-- Doubling loses no bit of a word whose top bit is clear; R248 divides the double of such a b7. -/
theorem toNat_mul_two_of_lt {v : Word} (h : v < 0x80000000) : (v * 2).toNat = v.toNat * 2 := by
  have hv : (v.toNat : Int) < 2147483648 := (lt_two_pow_31_iff v).mp h
  rw [BitVec.toNat_mul]
  exact Nat.mod_eq_of_lt (by change v.toNat * 2 < 2 ^ 32; omega)

/-- R248 read as integers: the comparison and both divisions are of the unsigned values. -/
theorem compP_eq_ofInt (b7 b4 : Word) :
    compP b7 b4 = BitVec.ofInt 32
      (if (b7.toNat : Int) < 2147483648 then (b7.toNat : Int) * 2 / b4.toNat
        else (b7.toNat : Int) / b4.toNat * 2) := by
  rw [compP, ← ofInt_toNat_div, ← ofInt_toNat_div]
  by_cases h : b7 < 0x80000000
  · rw [if_pos h, if_pos ((lt_two_pow_31_iff b7).mp h), toNat_mul_two_of_lt h, Int.natCast_mul]
    rfl
  · rw [if_neg h, if_neg (mt (lt_two_pow_31_iff b7).mpr h), BitVec.ofInt_mul]
    rfl

/-! ### The inputs: R231 -/

section
variable (s : State)

@[simp] theorem compInput_rawT : s.compInput.rawT = s.ut.setWidth 32 := rfl
@[simp] theorem compInput_rawP : s.compInput.rawP = s.up.setWidth 32 := rfl
@[simp] theorem compInput_oss : s.compInput.oss = s.oss.toNat := rfl
@[simp] theorem compInput_ac1 : s.compInput.ac1 = calSigned s.cal[0] := rfl
@[simp] theorem compInput_ac2 : s.compInput.ac2 = calSigned s.cal[1] := rfl
@[simp] theorem compInput_ac3 : s.compInput.ac3 = calSigned s.cal[2] := rfl
@[simp] theorem compInput_ac4 : s.compInput.ac4 = s.cal[3].setWidth 32 := rfl
@[simp] theorem compInput_ac5 : s.compInput.ac5 = s.cal[4].setWidth 32 := rfl
@[simp] theorem compInput_ac6 : s.compInput.ac6 = s.cal[5].setWidth 32 := rfl
@[simp] theorem compInput_b1 : s.compInput.b1 = calSigned s.cal[6] := rfl
@[simp] theorem compInput_b2 : s.compInput.b2 = calSigned s.cal[7] := rfl
@[simp] theorem compInput_mc : s.compInput.mc = calSigned s.cal[9] := rfl
@[simp] theorem compInput_md : s.compInput.md = calSigned s.cal[10] := rfl
@[simp] theorem compInput_poff : s.compInput.poff = s.poff := rfl

@[simp] theorem ofInt_toInt_eq_calSigned (v : Half) : BitVec.ofInt 32 v.toInt = calSigned v := rfl

/-! ### Temperature: R233 to R236 -/

theorem tempX1_eq_ofInt_refX1 : tempX1 s.compInput = BitVec.ofInt 32 (refX1 s) := by
  simp [tempX1, refX1, BitVec.ofInt_mul, ofInt_sub]

theorem tempDen_eq_ofInt_refDen : tempDen s.compInput = BitVec.ofInt 32 (refDen s) := by
  simp [tempDen, refDen, tempX1_eq_ofInt_refX1, BitVec.ofInt_add]

theorem toInt_tempDen : (tempDen s.compInput).toInt = refDen s := by
  rw [tempDen_eq_ofInt_refDen, toInt_ofInt_eq_s32, refDen, s32_s32]

theorem tempDen_eq_zero_iff : tempDen s.compInput = 0 ↔ refDen s = 0 := by
  rw [← toInt_tempDen, ← BitVec.toInt_inj]
  rfl

/-- 27 bits hold the dividend of R234, so nothing of it is lost. -/
theorem toInt_mc_mul_2048 : (s.compInput.mc * 2048).toInt = s.cal[9].toInt * 2048 := by
  have hmc : (calSigned s.cal[9]).toInt = s.cal[9].toInt :=
    BitVec.toInt_signExtend_of_le (by decide)
  have hlo : -2 ^ 15 ≤ s.cal[9].toInt := BitVec.le_toInt _
  have hhi : s.cal[9].toInt ≤ 2 ^ 15 - 1 := BitVec.toInt_le
  rw [compInput_mc, BitVec.toInt_mul, hmc]
  change (s.cal[9].toInt * 2048).bmod (2 ^ 32) = _
  exact Int.bmod_eq_of_le (by omega) (by omega)

theorem compB5_eq_ofInt_refB5 :
    compB5 s.cfg.divRound s.compInput = BitVec.ofInt 32 (refB5 s) := by
  rw [compB5, tempX2, signedDiv_eq_refDiv, toInt_mc_mul_2048, toInt_tempDen, tempX1_eq_ofInt_refX1,
    refB5, ofInt_s32, BitVec.ofInt_add]

theorem trueTemp_eq_ofInt_refT :
    trueTemp (BitVec.ofInt 32 (refB5 s)) = BitVec.ofInt 32 (refT s) := by
  simp [trueTemp, refT, BitVec.ofInt_add]

/-! ### Pressure: R237 to R252 -/

theorem compB6_eq_ofInt_refB6 :
    compB6 (BitVec.ofInt 32 (refB5 s)) = BitVec.ofInt 32 (refB6 s) := by
  simp [compB6, refB6, ofInt_sub]

theorem compQ_eq_ofInt_refQ :
    compQ (BitVec.ofInt 32 (refB6 s)) = BitVec.ofInt 32 (refQ s) := by
  simp [compQ, refQ, BitVec.ofInt_mul]

theorem presX3a_eq_ofInt_refX3 :
    presX3a s.compInput (BitVec.ofInt 32 (refB6 s)) = BitVec.ofInt 32 (refX3 s) := by
  simp [presX3a, refX3, compQ_eq_ofInt_refQ, BitVec.ofInt_add, BitVec.ofInt_mul]

theorem compB3_eq_ofInt_refB3 :
    compB3 s.compInput (BitVec.ofInt 32 (refB6 s)) = BitVec.ofInt 32 (refB3 s) := by
  rw [compB3, presX3a_eq_ofInt_refX3, refB3, ofInt_floorShift_s32, BitVec.ofInt_add, ofInt_s32,
    ofInt_mul_two_pow, ofInt_s32, BitVec.ofInt_add, BitVec.ofInt_mul]
  rfl

theorem presX3b_eq_ofInt_refX3' :
    presX3b s.compInput (BitVec.ofInt 32 (refB6 s)) = BitVec.ofInt 32 (refX3' s) := by
  simp [presX3b, refX3', compQ_eq_ofInt_refQ, BitVec.ofInt_add, BitVec.ofInt_mul]

theorem compB4_eq_ofInt_refB4 :
    compB4 s.compInput (BitVec.ofInt 32 (refB6 s)) = BitVec.ofInt 32 (refB4 s) := by
  rw [compB4, presX3b_eq_ofInt_refX3']
  simp [refB4, BitVec.ofInt_add, BitVec.ofInt_mul]

theorem compB7_eq_ofInt_refB7 :
    compB7 s.compInput (BitVec.ofInt 32 (refB6 s)) = BitVec.ofInt 32 (refB7 s) := by
  rw [compB7, compB3_eq_ofInt_refB3]
  simp [refB7, BitVec.ofInt_mul, ofInt_sub, ofInt_fiftyThousand_div]

theorem toNat_compB4 :
    ((compB4 s.compInput (BitVec.ofInt 32 (refB6 s))).toNat : Int) = refB4 s := by
  rw [compB4_eq_ofInt_refB4, refB4, ofInt_floorShift_u32, toNat_ushiftRight_eq_floorShift,
    toNat_ofInt_eq_u32]

theorem compB4_eq_zero_iff :
    compB4 s.compInput (BitVec.ofInt 32 (refB6 s)) = 0 ↔ refB4 s = 0 := by
  rw [← toNat_compB4, Int.natCast_eq_zero, ← BitVec.toNat_inj]
  rfl

theorem toNat_compB7 :
    ((compB7 s.compInput (BitVec.ofInt 32 (refB6 s))).toNat : Int) = refB7 s := by
  rw [compB7_eq_ofInt_refB7, toNat_ofInt_eq_u32, refB7, u32_u32]

theorem compP_eq_ofInt_refP :
    compP (compB7 s.compInput (BitVec.ofInt 32 (refB6 s)))
      (compB4 s.compInput (BitVec.ofInt 32 (refB6 s))) = BitVec.ofInt 32 (refP s) := by
  rw [compP_eq_ofInt, toNat_compB7, toNat_compB4, refP, ofInt_s32]
  split <;> simp

theorem presX1_eq_ofInt_refX1' :
    presX1 (BitVec.ofInt 32 (refP s)) = BitVec.ofInt 32 (refX1' s) := by
  have hp : refP s = s32 (refP s) := (s32_s32 _).symm
  rw [refX1', hp]
  simp [presX1, BitVec.ofInt_mul]

theorem presX2_eq_ofInt_refX2' :
    presX2 (BitVec.ofInt 32 (refP s)) = BitVec.ofInt 32 (refX2' s) := by
  rw [presX2, refX2', ofInt_floorShift_s32, BitVec.ofInt_mul]
  rfl

theorem truePressure_eq_ofInt_refTp :
    truePressure (BitVec.ofInt 32 (refP s)) s.poff = BitVec.ofInt 32 (refTp s) := by
  simp [truePressure, refTp, presX1_eq_ofInt_refX1', presX2_eq_ofInt_refX2', BitVec.ofInt_add]

/-! ### COMP -/

/-- The engine is rules R233 to R252 over the integers, narrowed to words. -/
theorem compensate_compInput :
    compensate s.cfg.divRound s.compInput =
      if refDen s = 0 ∨ refB4 s = 0 then none
      else some (BitVec.ofInt 32 (refT s), BitVec.ofInt 32 (refTp s)) := by
  simp only [compensate, compB5_eq_ofInt_refB5, compB6_eq_ofInt_refB6, tempDen_eq_zero_iff,
    compB4_eq_zero_iff, trueTemp_eq_ofInt_refT, compP_eq_ofInt_refP, compInput_poff,
    truePressure_eq_ofInt_refTp, ite_or]

end

/-- Settles O41: COMP writes what the engine answers, and the engine is the rules over the
integers. -/
theorem compIsTheRules : Obligations.CompIsTheRules := by
  intro s
  rw [exec, execComp, compensate_compInput]
  by_cases h : refDen s = 0 ∨ refB4 s = 0
  · rw [if_pos h, if_pos h]
  · rw [if_neg h, if_neg h]

end Sys2Proof.Machine
end

section
/-! What a command writes, from `exec_ran`: the registers and statuses of its end (R44), BUF (R65),
and its bus activity (R130). -/

namespace Sys2Proof.Machine

/-- The next state of a command is one it can run to. -/
theorem exec_next_ran {i : Instr} {s t : State} (h : exec i s = .next t) : Ran i s t := by
  obtain ⟨u, hu, ran⟩ := exec_ran i s
  cases hu.symm.trans h
  exact ran

/-! ### The end of a command -/

/-- An end writes result registers, their marks, STATUS and the sequencer only. -/
theorem Ended.frame {i : Instr} {codes : List Status} {v t : State} (h : Ended i codes v t) :
    t = { v with
      cal := t.cal, ut := t.ut, up := t.up, oss := t.oss, tt := t.tt, tp := t.tp
      written := t.written, status := t.status, seq := t.seq } := by
  cases h <;> subst_vars <;> rfl

/-- An end writes a result register only with STATUS 0, by the command whose result it is, and a
command that goes on has not written STATUS. -/
theorem Ended.writes {i : Instr} {codes : List Status} {v t : State} (h : Ended i codes v t) :
    (t.cal = v.cal ∨ i = .rdcal ∧ t.status = 0 ∧ t.seq = .idle) ∧
    (t.ut = v.ut ∨ i = .rdt ∧ t.status = 0 ∧ t.seq = .idle) ∧
    (t.up = v.up ∧ t.oss = v.oss ∨ i = .rdp t.oss ∧ t.status = 0 ∧ t.seq = .idle) ∧
    (t.tt = v.tt ∧ t.tp = v.tp ∨ i = .comp ∧ t.status = 0) ∧
    (t.seq = .idle ∨ t.status = v.status) := by
  rcases h with ⟨st, -, rfl⟩ | ⟨w, -, rfl⟩ | ⟨c, hi, rfl⟩ | ⟨x, hi, rfl⟩ | ⟨x, oss, hi, rfl⟩ |
    ⟨a, b, hi, rfl⟩
  · exact ⟨.inl rfl, .inl rfl, .inl ⟨rfl, rfl⟩, .inl ⟨rfl, rfl⟩, .inl rfl⟩
  · exact ⟨.inl rfl, .inl rfl, .inl ⟨rfl, rfl⟩, .inl ⟨rfl, rfl⟩, .inr rfl⟩
  · exact ⟨.inr ⟨hi, rfl, rfl⟩, .inl rfl, .inl ⟨rfl, rfl⟩, .inl ⟨rfl, rfl⟩, .inl rfl⟩
  · exact ⟨.inl rfl, .inr ⟨hi, rfl, rfl⟩, .inl ⟨rfl, rfl⟩, .inl ⟨rfl, rfl⟩, .inl rfl⟩
  · exact ⟨.inl rfl, .inl rfl, .inr ⟨hi, rfl, rfl⟩, .inl ⟨rfl, rfl⟩, .inl rfl⟩
  · exact ⟨.inl rfl, .inl rfl, .inl ⟨rfl, rfl⟩, .inr ⟨hi, rfl⟩, .inl rfl⟩

theorem Status.code_le (st : Status) : st.code.toNat ≤ 8 := by cases st <;> decide

/-- A command that ends writes a legal status; one that hangs leaves STATUS. -/
theorem Ended.statusLegal {i : Instr} {codes : List Status} {v t : State} (h : Ended i codes v t)
    (hv : v.statusLegal = true) : t.statusLegal = true := by
  have code : ∀ st : Status, decide (st.code.toNat ≤ 8) = true := fun st =>
    decide_eq_true st.code_le
  rcases h with ⟨st, -, rfl⟩ | ⟨w, -, rfl⟩ | ⟨c, -, rfl⟩ | ⟨x, -, rfl⟩ | ⟨x, oss, -, rfl⟩ |
    ⟨a, b, -, rfl⟩
  · exact code st
  · exact hv
  all_goals exact code .ok

/-- A command that hangs does so for the reason of R281. -/
theorem Ended.hangJustified {i : Instr} {codes : List Status} {v t : State}
    (h : Ended i codes v t) : t.hangJustified = true := by
  rcases h with ⟨st, -, rfl⟩ | ⟨w, hw, rfl⟩ | ⟨c, -, rfl⟩ | ⟨x, -, rfl⟩ | ⟨x, oss, -, rfl⟩ |
    ⟨a, b, -, rfl⟩
  · rfl
  · exact hw
  all_goals rfl

/-! ### The whole command -/

theorem isRegisterCommand_iff (i : Instr) :
    isRegisterCommand i = true ↔ i = .rdcal ∨ i = .rdt ∨ ∃ oss, i = .rdp oss := by
  cases i <;> simp [isRegisterCommand]

section
variable {i : Instr} {s t : State} (h : Ran i s t)
include h

/-- MODE changes in a closed transmission only, by SETMODE or the mode-set step (R20, R200). -/
theorem Ran.mode : t.mode = s.mode ∨ s.started = false ∧
    ((∃ k, i = .setmode k ∧ t.status = 0) ∨ isRegisterCommand i = true) := by
  obtain ⟨m, b, w, st, drv, scl, sda, new, hend, -, -, hmode, -⟩ := h.run
  rw [hend.frame]
  exact hmode

/-- STARTED is set and cleared only by the commands that contain a start and a stop (R44). -/
theorem Ran.started : t.started = s.started ∨ canStart i = true ∧ t.started = true ∨
    canStop i = true ∧ t.started = false := by
  obtain ⟨m, b, w, st, drv, scl, sda, new, hend, -, hst, -⟩ := h.run
  rw [hend.frame]
  exact hst

/-- COMP and SETMODE touch no pin (R174, R230). -/
theorem Ran.silent (hi : i = .comp ∨ ∃ k, i = .setmode k) : t.trace = s.trace ∧ t.drv = s.drv := by
  obtain ⟨m, b, w, st, drv, scl, sda, new, hend, -, -, -, hpins, -⟩ := h.run
  obtain ⟨rfl, rfl⟩ := hpins hi
  rw [hend.frame]
  exact ⟨rfl, rfl⟩

/-- What no command writes. -/
theorem Ran.kept : t.poff = s.poff ∧ t.wlim = s.wlim ∧ t.cmd = s.cmd ∧ t.cfg = s.cfg ∧
    t.host = s.host ∧ t.rdata = s.rdata := by
  obtain ⟨m, b, w, st, drv, scl, sda, new, hend, -⟩ := h.run
  rw [hend.frame]
  exact ⟨rfl, rfl, rfl, rfl, rfl, rfl⟩

/-- The events a command adds to the trace account for the latches. -/
theorem Ran.trace : ∃ new, t.trace = new ++ s.trace ∧ t.drv = pinDrive new.reverse s.drv := by
  obtain ⟨m, b, w, st, drv, scl, sda, new, hend, hact, -⟩ := h.run
  rw [hend.frame]
  exact ⟨new, rfl, hact.latches⟩

/-- BUF stays in canonical form and as it was from the command's bound on (R65). -/
theorem Ran.memory (hwf : Memory.wf s.buf = true) : Memory.wf t.buf = true ∧
    ∀ j, bufBound i ≤ j → Memory.read t.buf j = Memory.read s.buf j := by
  obtain ⟨m, b, w, st, drv, scl, sda, new, hend, hact, -⟩ := h.run
  rw [hend.frame]
  exact hact.memory hwf

/-- A command with no byte of BUF in its reach leaves BUF. -/
theorem Ran.buf_eq (hb : bufBound i = 0) : t.buf = s.buf := by
  obtain ⟨m, b, w, st, drv, scl, sda, new, hend, hact, -⟩ := h.run
  rw [hend.frame]
  exact (hact.kept hb).1

/-- A command leaves canonical BUF and a legal STATUS so, and any hang of it has its reason. -/
theorem Ran.inv (hwf : Memory.wf s.buf = true) (hs : s.statusLegal = true) : t.Inv = true := by
  obtain ⟨m, b, w, st, drv, scl, sda, new, hend, -⟩ := h.run
  rw [State.Inv, (h.memory hwf).1, hend.statusLegal hs, hend.hangJustified]
  rfl

end

/-! ### Obligations -/

/-- Settles O54. -/
theorem latchesFollowTrace : Obligations.LatchesFollowTrace := fun _ _ _ h =>
  (exec_next_ran h).trace

/-- Settles O47. -/
theorem bufWrites : Obligations.BufWrites := by
  intro i s t hwf h
  have ran := exec_next_ran h
  refine ⟨(ran.memory hwf).2, fun hi => ran.buf_eq ?_⟩
  cases i with
  | rdb len A P => exact absurd rfl (hi len A P)
  | _ => rfl

/-- Settles O46: each clause is one of the ways a command runs and ends. -/
theorem writers : Obligations.Writers := by
  intro i s t h
  have ran := exec_next_ran h
  obtain ⟨m, b, w, st, drv, scl, sda, new, hend, -⟩ := ran.run
  obtain ⟨hcal, hut, hup, htt, hstatus⟩ := hend.writes
  refine ⟨hcal.resolve_left, hut.resolve_left, fun hne => hup.resolve_left (not_and_or.mpr hne),
    fun hne => htt.resolve_left (not_and_or.mpr hne), fun hne => ?_, fun ht hs => ?_,
    fun ht hs => ?_, ran.silent, hstatus.resolve_left, ran.kept⟩
  · have hmode := ran.mode.resolve_left hne
    rwa [isRegisterCommand_iff] at hmode
  · rcases ran.started with hsame | ⟨hstart, -⟩ | ⟨-, hclear⟩
    · simp [ht, hs] at hsame
    · exact hstart
    · simp [ht] at hclear
  · rcases ran.started with hsame | ⟨-, hset⟩ | ⟨hstop, -⟩
    · simp [ht, hs] at hsame
    · simp [ht] at hset
    · exact hstop

end Sys2Proof.Machine
end

section
/-! Everything one step can do, and from it the invariant (R35, R101, R281), the mode lock (R20) and
reset, as an event of its own and during a command (R300, R303). -/

namespace Sys2Proof.Machine

/-! ### A host write of a register -/

theorem regAt_eq_cmd_iff (addr : BitVec 8) : regAt addr = .cmd ↔ addr = 0 := by decide +revert

/-- A host write to any address but that of CMD: data registers, their marks, POFF and WLIM (R61). -/
theorem hostWrite_register (addr : BitVec 8) (data : Word) (s : State) (hne : addr ≠ 0) :
    ∃ t, hostWrite addr data s = .next t ∧
      t = { s with
        cal := t.cal, ut := t.ut, up := t.up, oss := t.oss, poff := t.poff, wlim := t.wlim
        buf := t.buf, written := t.written } ∧
      (Memory.wf s.buf = true → Memory.wf t.buf = true) := by
  rw [hostWrite]
  cases hr : regAt addr with
  | cmd => exact absurd ((regAt_eq_cmd_iff addr).mp hr) hne
  | buf j => exact ⟨_, rfl, rfl, State.setBuf_wf s j _ j.isLt⟩
  | _ => exact ⟨_, rfl, rfl, id⟩

/-! ### The step -/

/-- The next host event is a reset, at an idle block or in a hang (R300). -/
theorem step_reset (s : State) (rest : List HostEvent) (hh : s.host = .reset :: rest) :
    step s = .next { s with host := rest }.applyReset := by
  cases hs : s.seq with
  | idle => exact step_event s _ rest hs hh
  | waiting i w => exact (step_waiting s i w hs).trans (congrArg _ (waitStep_reset s w rest hh))

/-- A step from `s` that goes on to `t`: no host event, one of each kind at an idle block (a write to
CMD with a legal and with an illegal word apart), or in a hang a reset or another sample. -/
inductive Stepped (s t : State) : Prop where
  | nothing (hs : s.seq = .idle) (hh : s.host = []) (ht : t = s)
  | command (data : Word) (rest : List HostEvent) (i : Instr) (hs : s.seq = .idle)
      (hh : s.host = .write 0 data :: rest) (hd : decode (data.setWidth 16) = .ok i)
      (ran : Ran i { s with host := rest, cmd := data.setWidth 16 } t)
  | illegal (data : Word) (rest : List HostEvent) (r : Reject) (hs : s.seq = .idle)
      (hh : s.host = .write 0 data :: rest) (hd : decode (data.setWidth 16) = .error r)
      (ht : t = { s with host := rest, cmd := data.setWidth 16 }.endCommand .illegalCmd)
  | register (addr : BitVec 8) (data : Word) (rest : List HostEvent) (hs : s.seq = .idle)
      (hh : s.host = .write addr data :: rest) (hne : addr ≠ 0)
      (ht : t = { s with
        host := rest, cal := t.cal, ut := t.ut, up := t.up, oss := t.oss, poff := t.poff
        wlim := t.wlim, buf := t.buf, written := t.written })
      (hwf : Memory.wf s.buf = true → Memory.wf t.buf = true)
  | read (addr : BitVec 8) (rest : List HostEvent) (hs : s.seq = .idle)
      (hh : s.host = .read addr :: rest)
      (ht : t = { s with host := rest, rdata := hostRead addr { s with host := rest } })
  | reset (rest : List HostEvent) (hh : s.host = .reset :: rest)
      (ht : t = { s with host := rest }.applyReset)
  | cut (data : Word) (k : Nat) (rest : List HostEvent) (u : State) (hs : s.seq = .idle)
      (hh : s.host = .resetDuring data k :: rest) (ht : t = cutShort { s with host := rest } u k)
  | sample (i : Instr) (w : WaitLoop) (hs : s.seq = .waiting i w)
      (hh : s.host.head? ≠ some .reset) (ht : t = { s with trace := w.sample :: s.trace })

/-- A write to CMD at an idle block. -/
theorem step_cmd {s t : State} {data : Word} {rest : List HostEvent} (hs : s.seq = .idle)
    (hh : s.host = .write 0 data :: rest) (h : step s = .next t) : Stepped s t := by
  rw [step_event s _ rest hs hh, hostStep_write, hostWrite_cmd] at h
  cases hd : decode (data.setWidth 16) with
  | ok i =>
    rw [runWord_ok _ _ i hd] at h
    exact .command data rest i hs hh hd (exec_next_ran h)
  | error r =>
    rw [runWord_error _ _ r hd] at h
    cases h
    exact .illegal data rest r hs hh hd rfl

/-- A command cut short goes on to a state cut short. -/
theorem cutOutcome_next {s t : State} {k : Nat} {o : Host.Outcome State Fault Refusal}
    (h : cutOutcome s k o = .next t) : ∃ u, o = .next u ∧ t = cutShort s u k := by
  cases o with
  | next u => cases h; exact ⟨u, rfl, rfl⟩
  | fault r => cases h
  | refused r => cases h

/-- **What a step can do.** -/
theorem step_stepped {s t : State} (h : step s = .next t) : Stepped s t := by
  cases hs : s.seq with
  | waiting i w =>
    by_cases hh : s.host.head? = some .reset
    · obtain ⟨rest, hh⟩ := List.head?_eq_some_iff.mp hh
      cases (step_reset s rest hh).symm.trans h
      exact .reset rest hh rfl
    · rw [step_waiting s i w hs, waitStep_samples s w hh] at h
      cases h
      exact .sample i w hs hh rfl
  | idle =>
    cases hh : s.host with
    | nil =>
      cases (step_idle s hs hh).symm.trans h
      exact .nothing hs hh rfl
    | cons e rest =>
      cases e with
      | write addr data =>
        by_cases ha : addr = 0
        · subst ha
          exact step_cmd hs hh h
        · obtain ⟨u, hu, hframe, hwf⟩ := hostWrite_register addr data { s with host := rest } ha
          cases ((step_event s _ rest hs hh).trans hu).symm.trans h
          exact .register addr data rest hs hh ha hframe hwf
      | read addr =>
        cases (step_event s _ rest hs hh).symm.trans h
        exact .read addr rest hs hh rfl
      | reset =>
        cases (step_reset s rest hh).symm.trans h
        exact .reset rest hh rfl
      | resetDuring data k =>
        rw [step_event s _ rest hs hh, hostStep_resetDuring] at h
        obtain ⟨u, -, rfl⟩ := cutOutcome_next h
        exact .cut data k rest u hs hh rfl

/-! ### The invariant -/

theorem State.inv_iff (s : State) : s.Inv = true ↔
    Memory.wf s.buf = true ∧ s.statusLegal = true ∧ s.hangJustified = true := by
  rw [State.Inv, Bool.and_eq_true, Bool.and_eq_true, and_assoc]

theorem State.hangJustified_of_idle {s : State} (h : s.seq = .idle) : s.hangJustified = true := by
  rw [State.hangJustified, h]

/-- Settles O56: a command keeps the invariant by what commands do, a reset sets it up again, and
every other step touches BUF in canonical form at most. -/
theorem stepInv : Obligations.StepInv := by
  intro s t hinv h
  obtain ⟨hwf, hstatus, hhang⟩ := s.inv_iff.mp hinv
  cases step_stepped h with
  | nothing hs hh ht => rwa [ht]
  | command data rest i hs hh hd ran => exact ran.inv hwf hstatus
  | illegal data rest r hs hh hd ht =>
    rw [ht]
    exact (State.inv_iff _).mpr ⟨hwf, rfl, rfl⟩
  | register addr data rest hs hh hne ht hbuf =>
    refine t.inv_iff.mpr ⟨hbuf hwf, ?_, State.hangJustified_of_idle ?_⟩
    · rw [ht]
      exact hstatus
    · rw [ht]
      exact hs
  | read addr rest hs hh ht =>
    rw [ht]
    exact hinv
  | reset rest hh ht =>
    rw [ht]
    rfl
  | cut data k rest u hs hh ht =>
    rw [ht]
    rfl
  | sample i w hs hh ht =>
    rw [ht]
    exact hinv

/-- Settles O13. -/
theorem resetInv : Obligations.ResetInv :=
  State.reset.inv_iff.mpr ⟨State.reset_buf_wf, rfl, rfl⟩

/-! ### The mode lock -/

/-- Settles O48: of the steps that are no reset only a command can write MODE, and in an open
transmission none does. -/
theorem modeLocked : Obligations.ModeLocked := by
  intro s t hs hreset hcut h
  cases step_stepped h with
  | command data rest i _ hh hd ran =>
    refine ran.mode.resolve_right fun hmode => ?_
    rw [hs] at hmode
    exact Bool.noConfusion hmode.1
  | reset rest hh ht => exact absurd (by rw [hh]; rfl) hreset
  | cut data k rest u _ hh ht => exact absurd (by rw [hh]; rfl) (hcut data k)
  | nothing _ hh ht => rw [ht]
  | illegal data rest r _ hh hd ht => rw [ht]; rfl
  | register addr data rest _ hh hne ht hbuf => rw [ht]
  | read addr rest _ hh ht => rw [ht]
  | sample i w _ hh ht => rw [ht]

/-! ### Reset -/

/-- Settles O12. -/
theorem resetValues : Obligations.ResetValues :=
  ⟨rfl, rfl, rfl, rfl, rfl, rfl, rfl, rfl, rfl, rfl⟩

/-- Settles O14. -/
theorem resetEvent : Obligations.ResetEvent := fun s rest hh =>
  ⟨_, step_reset s rest hh, rfl, rfl, rfl, rfl, rfl, rfl, rfl, rfl, rfl, rfl, rfl, rfl⟩

section
variable {s t : State} {new : List Event} (k : Nat) (ht : t.trace = new ++ s.trace)
include ht

/-- The events a command added, oldest first. -/
theorem added_events :
    (t.trace.take (t.trace.length - s.trace.length)).reverse = new.reverse := by
  rw [ht, List.length_append, Nat.add_sub_cancel, List.take_left]

/-- A reset before the command's events are over. -/
theorem executedEvents_of_le (hk : k ≤ new.length) :
    executedEvents s t k = new.reverse.take k := by
  rw [executedEvents, added_events ht, List.take_append_of_le_length (by simpa using hk)]

/-- A reset after the end of the command. -/
theorem executedEvents_ended (hs : t.seq = .idle) (hk : new.length ≤ k) :
    executedEvents s t k = new.reverse := by
  rw [executedEvents, added_events ht, hs]
  simpa using hk

/-- A reset in a hang. -/
theorem executedEvents_waiting (i : Instr) (w : WaitLoop) (hs : t.seq = .waiting i w)
    (hk : new.length ≤ k) :
    executedEvents s t k = new.reverse ++ List.replicate (k - new.length) w.sample := by
  rw [executedEvents, added_events ht, hs, List.take_append, List.take_of_length_le (by simpa using hk)]
  cases w <;> simp [WaitLoop.sample]

end

theorem cutShort_trace (s t : State) (k : Nat) :
    (cutShort s t k).trace = (executedEvents s t k).reverse ++ s.trace := rfl

/-- Settles O15: the trace of a command cut short is what `executedEvents` gives, the registers are
those of a reset. -/
theorem resetDuring : Obligations.ResetDuring := by
  intro s data k rest i hs hh hd
  obtain ⟨u, hu, ran⟩ := exec_ran i { s with host := rest, cmd := data.setWidth 16 }
  obtain ⟨new, hnew, -⟩ := ran.trace
  have hadded : u.trace = new ++ ({ s with host := rest } : State).trace := hnew
  refine ⟨u, cutShort { s with host := rest } u k, new, hu, hnew, ?_, fun hk => ?_,
    fun hidle hk => ?_, fun w hw hk => ?_, rfl, rfl, rfl, rfl, rfl, rfl, rfl, rfl, rfl, rfl⟩
  · rw [step_event s _ rest hs hh, hostStep_resetDuring, hostWrite_cmd, runWord_ok _ _ i hd, hu]
    rfl
  · rw [cutShort_trace, executedEvents_of_le k hadded hk]
  · rw [cutShort_trace, executedEvents_ended k hadded hidle hk, List.reverse_reverse]
  · rw [cutShort_trace, executedEvents_waiting k hadded i w hw hk, List.reverse_append,
      List.reverse_replicate, List.reverse_reverse]

end Sys2Proof.Machine
end

section
/-! The wait loops (R135, U3): how many samples one takes under a limit, and what a loop that did not
see its level says of the line. -/

namespace Sys2Proof.Machine

/-! ### Answers of a line -/

/-- What a line answers is one of its pending answers or its rest level. -/
theorem Line.mem_peek {l : Line} {n : Nat} {v : Bool} (h : v ∈ l.peek n) :
    v ∈ l.answers ∨ v = l.rest := by
  induction n generalizing l with
  | zero => cases h
  | succ n ih =>
    obtain ⟨_ | ⟨a, as⟩, rest⟩ := l
    · rcases List.mem_cons.mp h with rfl | h
      · exact .inr rfl
      · exact ih h
    · rcases List.mem_cons.mp h with rfl | h
      · exact .inl List.mem_cons_self
      · exact (ih h).imp_left (List.mem_cons_of_mem _)

/-- A level among the first answers is among more of them. -/
theorem Line.mem_peek_of_le {l : Line} {m n : Nat} {v : Bool} (hmn : m ≤ n) (h : v ∈ l.peek m) :
    v ∈ l.peek n := by
  obtain ⟨k, rfl⟩ := Nat.exists_eq_add_of_le hmn
  rw [Line.peek_add]
  exact List.mem_append_left _ h

/-! ### The loop -/

section
variable (want : Bool) (limit : Nat)

/-- Under a limit that is not used up, a loop takes no more samples than are left of it, and one that
times out takes just those. -/
theorem waitFrom_samples_length (rest : Bool) (hlimit : limit ≠ 0) (n : Nat) (as : List Bool)
    (hn : n < limit) :
    (waitFrom want limit rest n as).samples.length + n ≤ limit ∧
      ((waitFrom want limit rest n as).ending = .timeout →
        (waitFrom want limit rest n as).samples.length + n = limit) := by
  induction as generalizing n with
  | nil =>
    by_cases hr : rest = want
    · rw [waitFrom, if_pos hr]
      exact ⟨by rw [Nat.add_comm]; exact hn, nofun⟩
    · rw [waitFrom, if_neg hr, if_neg hlimit, List.length_replicate]
      omega
  | cons v vs ih =>
    by_cases hv : v = want
    · rw [waitFrom, if_pos hv]
      exact ⟨by rw [Nat.add_comm]; exact hn, nofun⟩
    · by_cases hl : limit ≠ 0 ∧ n + 1 = limit
      · rw [waitFrom, if_neg hv, if_pos hl, List.length_singleton]
        omega
      · rw [waitFrom, if_neg hv, if_neg hl, List.length_cons, Nat.add_assoc, Nat.add_comm 1 n]
        exact ih (n + 1) (by omega)

section
variable (l : Line)

/-- A loop that sees the level took unwanted samples and then the wanted one, within the limit. -/
theorem waitOn_seen_samples (h : (waitOn want limit false l).ending = .seen) :
    ∃ k, (waitOn want limit false l).samples = List.replicate k (!want) ++ [want] ∧
      (limit ≠ 0 → k < limit) := by
  change (waitFrom want limit l.rest 0 l.answers).ending = .seen at h
  obtain ⟨k, hk⟩ := waitFrom_samples want limit l.rest 0 l.answers
  rw [if_pos h] at hk
  refine ⟨k, hk, fun hlimit => ?_⟩
  have hlen := (waitFrom_samples_length want limit l.rest hlimit 0 l.answers (by omega)).1
  simpa [hk] using hlen

/-- A loop that times out took as many unwanted samples as the limit, which is not 0. -/
theorem waitOn_timeout (h : (waitOn want limit false l).ending = .timeout) :
    limit ≠ 0 ∧ (waitOn want limit false l).samples = List.replicate limit (!want) := by
  change (waitFrom want limit l.rest 0 l.answers).ending = .timeout at h
  have hlimit := waitFrom_timeout _ _ _ _ _ h
  obtain ⟨k, hk⟩ := waitFrom_samples want limit l.rest 0 l.answers
  rw [h, if_neg nofun, List.append_nil] at hk
  have hlen := (waitFrom_samples_length want limit l.rest hlimit 0 l.answers (by omega)).2 h
  rw [hk, List.length_replicate, Nat.add_zero] at hlen
  rw [hlen] at hk
  exact ⟨hlimit, hk⟩

/-- A loop that never ends has no limit, on a line that never shows the level. -/
theorem waitOn_never (h : (waitOn want limit false l).ending = .never) :
    limit = 0 ∧ ∀ n, l.peek n = List.replicate n (!want) := by
  obtain ⟨hlimit, hrest, hanswers, -⟩ := waitFrom_never want limit l.rest 0 l.answers h
  refine ⟨hlimit, fun n => List.eq_replicate_iff.mpr ⟨l.peek_length n, fun v hv => ?_⟩⟩
  rcases Line.mem_peek hv with hv | rfl
  · exact Bool.eq_not.mpr (hanswers v hv)
  · exact Bool.eq_not.mpr hrest

/-- A level that the line shows, within the limit if there is one, is seen (U3). -/
theorem waitOn_sees (n : Nat) (hn : limit = 0 ∨ n ≤ limit) (hmem : want ∈ l.peek n) :
    (waitOn want limit false l).ending = .seen := by
  have unwanted : ∀ k, want ∉ List.replicate k (!want) := fun k hk =>
    absurd (List.eq_of_mem_replicate hk) (by simp)
  cases h : (waitOn want limit false l).ending with
  | seen => rfl
  | timeout =>
    obtain ⟨hlimit, hsamples⟩ := waitOn_timeout want limit l h
    have hgave : (waitOn want limit false l).samples =
        l.peek (waitOn want limit false l).samples.length :=
      (waitFrom_gave want limit l.rest 0 l.answers).1
    rw [hsamples, List.length_replicate] at hgave
    have hlate := Line.mem_peek_of_le (hn.resolve_left hlimit) hmem
    rw [← hgave] at hlate
    exact absurd hlate (unwanted limit)
  | never =>
    rw [(waitOn_never want limit l h).2 n] at hmem
    exact absurd hmem (unwanted n)

/-- An immediate wanted answer ends the loop after one sample. -/
theorem waitOn_immediate (h : l.next.1 = want) :
    (waitOn want limit false l).ending = .seen ∧ (waitOn want limit false l).samples = [want] := by
  obtain ⟨_ | ⟨v, vs⟩, rest⟩ := l
  · subst h
    simp [waitOn, waitFrom, Line.next]
  · subst h
    simp [waitOn, waitFrom, Line.next]

end
end

/-- Settles O45. -/
theorem waitLoopEnds : Obligations.WaitLoopEnds := fun want limit l =>
  ⟨waitOn_seen_samples want limit l, waitOn_timeout want limit l, waitOn_never want limit l,
    waitOn_sees want limit l, waitOn_immediate want limit l⟩

end Sys2Proof.Machine
end

section
/-! A step that uses no undefined register does the same from twins (U1, R43): `exec_agree` for the
command a word starts, and the host port, reset and the hang around it. -/

namespace Sys2Proof.Machine

/-- A state with BUF in canonical form is its own twin. -/
theorem Twins.refl {s : State} (hwf : Memory.wf s.buf = true) : Twins s s :=
  ⟨⟨rfl, fun _ _ => rfl, fun _ => rfl, fun _ => rfl, fun _ => rfl, fun _ => rfl, fun _ => rfl,
    fun _ _ => rfl⟩, hwf, hwf⟩

section
variable {s s' : State} (h : Twins s s')
include h

/-! ### Reset -/

/-- Reset forgets every register in which twins differ. -/
theorem Twins.applyReset_eq : s'.applyReset = s.applyReset :=
  (congrArg State.applyReset h.same.1 :)

theorem Twins.applyReset : Twins s.applyReset s'.applyReset := by
  rw [h.applyReset_eq]
  exact .refl State.reset_buf_wf

/-- A command cut short from twins: the part carried out is the same, and the rest is reset. -/
theorem Twins.cutShort_eq {t t' : State} (ht : Twins t t') (k : Nat) :
    cutShort s' t' k = cutShort s t k := by
  have hevents : executedEvents s' t' k = executedEvents s t k := by
    rw [executedEvents, executedEvents, h.trace, ht.trace, ht.seq]
  rw [cutShort, cutShort, hevents, h.applyReset_eq, h.scl, h.sda, h.trace]

theorem Twins.cutOutcome {o o' : Host.Outcome State Fault Refusal} (ho : Outcomes o o') (k : Nat) :
    Outcomes (cutOutcome s k o) (cutOutcome s' k o') := by
  obtain ⟨t, t', rfl, rfl, ht⟩ := ho
  refine ⟨_, _, rfl, rfl, ?_⟩
  rw [h.cutShort_eq ht]
  exact .refl State.reset_buf_wf

/-! ### Host accesses -/

theorem runWord_agree (c : Half) (hc : wordDefined c s = true) :
    Outcomes (runWord c s) (runWord c s') := by
  rw [wordDefined] at hc
  cases hd : decode c with
  | ok i =>
    rw [hd] at hc
    rw [runWord_ok s c i hd, runWord_ok s' c i hd]
    exact exec_agree i hc h
  | error r =>
    rw [runWord_error s c r hd, runWord_error s' c r hd]
    exact ⟨_, _, rfl, rfl, h.endCommand _⟩

theorem hostWrite_agree (addr : BitVec 8) (data : Word)
    (hc : regAt addr = .cmd → wordDefined (data.setWidth 16) s = true) :
    Outcomes (hostWrite addr data s) (hostWrite addr data s') := by
  rw [hostWrite, hostWrite]
  cases hr : regAt addr with
  | cmd => exact runWord_agree (h.setCmd _) _ (hc hr)
  | poff => exact ⟨_, _, rfl, rfl, h.setPoff data⟩
  | wlim => exact ⟨_, _, rfl, rfl, h.setWlim data⟩
  | oss => exact ⟨_, _, rfl, rfl, h.setOss _⟩
  | ut => exact ⟨_, _, rfl, rfl, h.setUt _⟩
  | up => exact ⟨_, _, rfl, rfl, h.setUp _⟩
  | cal j => exact ⟨_, _, rfl, rfl, h.setCal j _⟩
  | buf j => exact ⟨_, _, rfl, rfl, h.setBuf j _ j.isLt⟩
  | status | flags | tt | tp | reserved => exact ⟨_, _, rfl, rfl, h⟩

end

/-- What a host event needs defined (U1): the command of a word written to CMD its inputs, a read the
register it reads. -/
def HostEvent.defined (e : HostEvent) (s : State) : Prop :=
  match e with
  | .write addr data => regAt addr = .cmd → wordDefined (data.setWidth 16) s = true
  | .read addr => readDefined addr s = true
  | .reset => True
  | .resetDuring data _ => wordDefined (data.setWidth 16) s = true

/-- What the next host event of an idle block needs in a defined step, when the event is taken. -/
theorem State.stepDefined_event {s : State} {e : HostEvent} {rest : List HostEvent}
    (hd : s.stepDefined = true) (hs : s.seq = .idle) (hh : s.host = e :: rest) :
    e.defined { s with host := rest } := by
  rw [State.stepDefined, hs, hh] at hd
  cases e with
  | write addr data =>
    intro hr
    simp only [hr, if_true] at hd
    exact hd
  | read addr => exact hd
  | reset => exact trivial
  | resetDuring data k => exact hd

section
variable {s s' : State} (h : Twins s s')
include h

theorem hostStep_agree (e : HostEvent) (he : e.defined s) :
    Outcomes (hostStep e s) (hostStep e s') := by
  cases e with
  | write addr data => exact hostWrite_agree h addr data he
  | read addr =>
    rw [hostStep_read, hostStep_read, h.hostRead addr he]
    exact ⟨_, _, rfl, rfl, h.setRdata _⟩
  | reset => exact ⟨_, _, rfl, rfl, h.applyReset⟩
  | resetDuring data k => exact h.cutOutcome (hostWrite_agree h 0 data fun _ => he) k

theorem waitStep_agree (w : WaitLoop) : Twins (waitStep w s) (waitStep w s') := by
  by_cases hh : s.host.head? = some .reset
  · obtain ⟨rest, hh⟩ := List.head?_eq_some_iff.mp hh
    rw [waitStep_reset s w rest hh, waitStep_reset s' w rest (h.host.trans hh)]
    exact (h.setHost rest).applyReset
  · rw [waitStep_samples s w hh, waitStep_samples s' w (by rw [h.host]; exact hh)]
    cases w with
    | sclHigh => exact h.sampleAgain .sclHigh
    | sdaLow => exact h.sampleAgain .sdaLow

/-- A defined step of twins leads to twins. -/
theorem step_agree (hd : s.stepDefined = true) : Outcomes (step s) (step s') := by
  cases hs : s.seq with
  | waiting i w =>
    rw [step_waiting s i w hs, step_waiting s' i w (h.seq.trans hs)]
    exact ⟨_, _, rfl, rfl, waitStep_agree h w⟩
  | idle =>
    have hs' := h.seq.trans hs
    cases hh : s.host with
    | nil =>
      rw [step_idle s hs hh, step_idle s' hs' (h.host.trans hh)]
      exact ⟨_, _, rfl, rfl, h⟩
    | cons e rest =>
      rw [step_event s e rest hs hh, step_event s' e rest hs' (h.host.trans hh)]
      exact hostStep_agree (h.setHost rest) e (State.stepDefined_event hd hs hh)

end

/-- Settles O58: the marks and BUF's canonical form make the two states twins. -/
theorem definedStep : Obligations.DefinedStep := by
  intro s s' hsame hwf hwf' hd
  obtain ⟨t, t', ht, ht', twins⟩ := step_agree ⟨hsame, hwf, hwf'⟩ hd
  exact ⟨t, t', ht, ht', twins.same⟩

end Sys2Proof.Machine
end

section
/-! The host's register map (R61, R33): what a read answers at each address. -/

namespace Sys2Proof.Machine

theorem regAt_cal (i : Fin 11) : regAt (BitVec.ofNat 8 (0x10 + i)) = .cal i := by decide +revert

theorem regAt_buf (i : Fin 32) : regAt (BitVec.ofNat 8 (0x20 + i)) = .buf i := by decide +revert

theorem hostRead_cal (i : Fin 11) (s : State) :
    hostRead (BitVec.ofNat 8 (0x10 + i)) s = s.cal[i].setWidth 32 := by
  rw [hostRead, regAt_cal]

theorem hostRead_buf (i : Fin 32) (s : State) :
    hostRead (BitVec.ofNat 8 (0x20 + i)) s = (Memory.read s.buf i).setWidth 32 := by
  rw [hostRead, regAt_buf]

/-- FLAGS as a number: each bit at its place (R33). -/
theorem State.flags_toNat (s : State) : s.flags.toNat =
    s.started.toNat + 2 * s.mode.bit.toNat + 4 * s.sclDrv.toNat + 8 * s.sdaDrv.toNat := by
  rw [State.flags]
  generalize s.started = started, s.mode.bit = mode, s.sclDrv = scl, s.sdaDrv = sda
  decide +revert

/-- Settles O10. -/
theorem registerMap : Obligations.RegisterMap := fun s =>
  ⟨rfl, rfl, s.flags_toNat, rfl, rfl, rfl, rfl, rfl, rfl, rfl, fun i => hostRead_cal i s,
    fun i => hostRead_buf i s⟩

end Sys2Proof.Machine
end

section
/-! The host port (R60 to R64): a host access of an idle block as one step, what a write leaves in
the register map, and the hang that holds the host (R281). -/

namespace Sys2Proof.Machine

/-! ### A write to CMD -/

/-- Settles O5. -/
theorem stepRunsDecoded : Obligations.StepRunsDecoded := fun s _ rest i hs hh hd =>
  (step_event s _ rest hs hh).trans (runWord_ok _ _ i hd)

/-- A 16-bit table word is decoded whole. -/
theorem decode_of_decodeTableWord {w : Nat} {i : Instr} (h : decodeTableWord 16 w = some i) :
    decode (BitVec.ofNat 16 (w % 2 ^ 16)) = .ok i := by
  rw [decodeTableWord] at h
  cases hd : decode (BitVec.ofNat 16 (w % 2 ^ 16)) with
  | ok j =>
    rw [hd] at h
    cases h
    rfl
  | error r =>
    rw [hd] at h
    cases h

/-- Settles O6: the placed word is the write of O5. -/
theorem stepRunsFetchWord : Obligations.StepRunsFetchWord := by
  intro s w i hw hi
  have hword : ((BitVec.ofNat 16 (w % 2 ^ 16)).setWidth 32).setWidth 16 = BitVec.ofNat 16 w := by
    rw [Nat.mod_eq_of_lt hw, BitVec.setWidth_setWidth_of_le _ (by decide), BitVec.setWidth_eq]
  have hd : decode (BitVec.ofNat 16 w) = .ok i := by
    have hd := decode_of_decodeTableWord hi
    rwa [Nat.mod_eq_of_lt hw] at hd
  have hstep := stepRunsDecoded (s.withFetchWord 16 w) _ s.host i rfl rfl (by rw [hword]; exact hd)
  rw [hstep, hword]
  rfl

/-! ### A read -/

/-- Settles O9: the register read does not depend on the queue. -/
theorem hostReadAnswers : Obligations.HostRead := fun s addr rest hs hh => by
  rw [step_event s _ rest hs hh, hostStep_read, hostRead_host]

/-! ### Reserved addresses -/

theorem regAt_eq_reserved_iff (addr : BitVec 8) : regAt addr = .reserved ↔
    0x0A ≤ addr.toNat ∧ addr.toNat ≤ 0x0F ∨ 0x1B ≤ addr.toNat ∧ addr.toNat ≤ 0x1F ∨
      0x40 ≤ addr.toNat := by decide +revert

/-- Settles O11. -/
theorem reservedAddress : Obligations.ReservedAddress := by
  intro s addr data rest hs hres
  have hr := (regAt_eq_reserved_iff addr).mpr hres
  refine ⟨fun hh => ?_, fun hh => ?_⟩
  · rw [hostReadAnswers s addr rest hs hh, hostRead, hr]
  · rw [step_event s _ rest hs hh, hostStep_write, hostWrite, hr]

/-! ### A write to any other register -/

/-- How many low bits of a host write a register keeps (R61, R62); CMD is not written this way. -/
def HostReg.hostWidth : HostReg → Nat
  | .poff | .wlim => 32
  | .oss => 2
  | .ut | .cal _ => 16
  | .up => 19
  | .buf _ => 8
  | .cmd | .status | .flags | .tt | .tp | .reserved => 0

/-- The column "bits used" of R61 as a mask. -/
theorem hostBits_eq (addr : BitVec 8) :
    hostBits addr = (BitVec.allOnes (regAt addr).hostWidth).setWidth 32 := by decide +revert

/-- An address at which each register stands; the reserved ones share one. -/
def HostReg.address : HostReg → BitVec 8
  | .cmd => 0x00
  | .status => 0x01
  | .flags => 0x02
  | .poff => 0x03
  | .wlim => 0x04
  | .oss => 0x05
  | .ut => 0x06
  | .up => 0x07
  | .tt => 0x08
  | .tp => 0x09
  | .cal i => BitVec.ofNat 8 (0x10 + i)
  | .buf i => BitVec.ofNat 8 (0x20 + i)
  | .reserved => 0x0A

theorem address_regAt (addr : BitVec 8) (h : regAt addr ≠ .reserved) :
    (regAt addr).address = addr := by decide +revert

/-- No register stands at two addresses (R61). -/
theorem regAt_injective {a b : BitVec 8} (h : regAt a = regAt b) (hb : regAt b ≠ .reserved) :
    a = b := by
  rw [← address_regAt a (by rwa [h]), h, address_regAt b hb]

/-- Keeping the low bits of a word is masking it. -/
theorem setWidth_setWidth_eq_and (v : Word) (n : Nat) :
    (v.setWidth n).setWidth 32 = v &&& (BitVec.allOnes n).setWidth 32 := by
  ext i hi
  simp only [BitVec.getElem_setWidth, BitVec.getElem_and, BitVec.getLsbD_setWidth,
    BitVec.getLsbD_allOnes]
  rw [BitVec.getLsbD_eq_getElem hi, Bool.and_comm]

theorem readDefined_host (addr : BitVec 8) (s : State) (rest : List HostEvent) :
    readDefined addr { s with host := rest } = readDefined addr s := rfl

section
variable {addr : BitVec 8} {data : Word} {s t : State} (h : hostWrite addr data s = .next t)
  (hne : addr ≠ 0)
include h hne

/-- A register the host cannot write ignores the write (R62, R64). -/
theorem hostWrite_ignored (hw : (regAt addr).hostWidth = 0) : t = s := by
  rw [hostWrite] at h
  cases hr : regAt addr with
  | cmd => exact absurd ((regAt_eq_cmd_iff addr).mp hr) hne
  | status | flags | tt | tp | reserved =>
    rw [hr] at h
    cases h
    rfl
  | _ =>
    rw [hr] at hw
    cases hw

/-- A register the host can write keeps the low bits of the data and is defined (R62, U1). -/
theorem hostWrite_read_same (hwf : Memory.wf s.buf = true) (hw : (regAt addr).hostWidth ≠ 0) :
    hostRead addr t = (data.setWidth (regAt addr).hostWidth).setWidth 32 ∧
      readDefined addr t = true := by
  rw [hostWrite] at h
  rw [hostRead, readDefined]
  cases hr : regAt addr with
  | cmd => exact absurd ((regAt_eq_cmd_iff addr).mp hr) hne
  | poff | wlim =>
    rw [hr] at h
    cases h
    exact ⟨by rw [HostReg.hostWidth, BitVec.setWidth_eq, BitVec.setWidth_eq], rfl⟩
  | oss | ut | up =>
    rw [hr] at h
    cases h
    exact ⟨rfl, rfl⟩
  | cal i =>
    rw [hr] at h
    cases h
    simp [HostReg.hostWidth]
  | buf i =>
    rw [hr] at h
    cases h
    simp [HostReg.hostWidth, Memory.read_write _ _ _ _ hwf]
  | status | flags | tt | tp | reserved =>
    rw [hr] at hw
    exact absurd rfl hw

/-- Every other register reads as before and is defined or not as before. -/
theorem hostWrite_read_other (hwf : Memory.wf s.buf = true) (a : BitVec 8)
    (ha : regAt a ≠ regAt addr) :
    hostRead a t = hostRead a s ∧ readDefined a t = readDefined a s := by
  rw [hostWrite] at h
  rw [hostRead, hostRead, readDefined, readDefined]
  cases hr : regAt addr with
  | cmd => exact absurd ((regAt_eq_cmd_iff addr).mp hr) hne
  | status | flags | tt | tp | reserved =>
    rw [hr] at h
    cases h
    exact ⟨rfl, rfl⟩
  | poff | wlim | oss | ut | up =>
    rw [hr] at h ha
    cases h
    -- the register written is excluded by `ha`; no other one is looked up in a changed field
    cases hra : regAt a <;> simp_all [State.flags]
  | cal i =>
    rw [hr] at h ha
    cases h
    cases hra : regAt a with
    | cal j =>
      have hij : i.val ≠ j.val := fun e => ha (hra.trans (congrArg _ (Fin.ext e.symm)))
      simp [hij]
    | _ => exact ⟨rfl, rfl⟩
  | buf i =>
    rw [hr] at h ha
    cases h
    cases hra : regAt a with
    | buf j =>
      have hij : i.val ≠ j.val := fun e => ha (hra.trans (congrArg _ (Fin.ext e.symm)))
      simp [hij, hij.symm, Memory.read_write _ _ _ _ hwf]
    | _ => exact ⟨rfl, rfl⟩

end

/-- A register keeps no bit of a host write exactly if the mask of its address is empty. -/
theorem hostBits_eq_zero_iff (addr : BitVec 8) :
    hostBits addr = 0 ↔ (regAt addr).hostWidth = 0 := by decide +revert

/-- Only the reserved addresses share a register, and the host writes none there. -/
theorem regAt_ne_of_ne {a addr : BitVec 8} (ha : a ≠ addr) (hw : (regAt addr).hostWidth ≠ 0) :
    regAt a ≠ regAt addr := fun e =>
  ha (regAt_injective e fun hr => hw (by rw [hr]; rfl))

/-- Settles O8: the write as a step, then the register written and every other one. -/
theorem hostWriteKeepsBits : Obligations.HostWrite := by
  intro s addr data rest hs hh hne hwf
  obtain ⟨t, ht, hframe, -⟩ := hostWrite_register addr data { s with host := rest } hne
  refine ⟨t, (step_event s _ rest hs hh).trans ht, fun hb => ?_, fun hb => ?_, fun a ha => ?_, ?_⟩
  · rw [hostBits_eq, ← setWidth_setWidth_eq_and]
    exact hostWrite_read_same ht hne hwf (mt (hostBits_eq_zero_iff addr).mpr hb)
  · rw [hostWrite_ignored ht hne ((hostBits_eq_zero_iff addr).mp hb)]
    exact ⟨hostRead_host s addr rest, readDefined_host addr s rest⟩
  · by_cases hw : (regAt addr).hostWidth = 0
    · rw [hostWrite_ignored ht hne hw]
      exact ⟨hostRead_host s a rest, readDefined_host a s rest⟩
    · rw [← hostRead_host s a rest, ← readDefined_host a s rest]
      exact hostWrite_read_other ht hne hwf a (regAt_ne_of_ne ha hw)
  · exact hframe

/-! ### The hang -/

theorem State.after_of_step {s t : State} (h : step s = .next t) (n : Nat) :
    s.after (n + 1) = t.after n := by
  rw [State.after, h]

/-- Settles O17: each step of the hang adds a sample and leads to a hang again. -/
theorem hangGoesOn : Obligations.HangGoesOn := by
  intro s i w n hs hh
  induction n generalizing s with
  | zero => rfl
  | succ n ih =>
    have hstep : step s = .next { s with trace := w.sample :: s.trace } := by
      rw [step_waiting s i w hs, waitStep_samples s w hh]
    rw [State.after_of_step hstep, ih { s with trace := w.sample :: s.trace } hs hh,
      List.replicate_succ', List.append_assoc]
    rfl

end Sys2Proof.Machine
end

section
/-! The byte transfers of a command that ends (R171, R173): the length check, what a completed
procedure leaves, and the bytes a read stores. -/

namespace Sys2Proof.Machine

/-! ### The length check (R98) -/

theorem lenLegal_iff (len : BitVec 6) : lenLegal len = true ↔ len.toNat ≤ 32 := decide_eq_true_iff

section
variable {len : BitVec 6} (s : State)

theorem exec_wrb_of_le (S P : Bool) (h : len.toNat ≤ 32) :
    exec (.wrb len S P) s =
      (writeSeq (bufBytes s.buf len.toNat 0) S P s).close (.wrb len S P) :=
  if_pos ((lenLegal_iff len).mpr h)

theorem exec_rdb_of_le (A P : Bool) (h : len.toNat ≤ 32) :
    exec (.rdb len A P) s =
      ((readSeq true len.toNat A P s).bind fun _ s => .done .ok s).close (.rdb len A P) :=
  if_pos ((lenLegal_iff len).mpr h)

theorem exec_wrb_of_gt (S P : Bool) (h : 32 < len.toNat) :
    exec (.wrb len S P) s = .next (s.endCommand .illegalCmd) :=
  if_neg (mt (lenLegal_iff len).mp (Nat.not_le.mpr h))

theorem exec_rdb_of_gt (A P : Bool) (h : 32 < len.toNat) :
    exec (.rdb len A P) s = .next (s.endCommand .illegalCmd) :=
  if_neg (mt (lenLegal_iff len).mp (Nat.not_le.mpr h))

end

/-- Settles O29. -/
theorem lengthIllegal : Obligations.LengthIllegal := fun s _ f P h =>
  ⟨exec_wrb_of_gt s f P h, exec_rdb_of_gt s f P h⟩

/-! ### WRB -/

theorem bufBytes_length (m : Memory) (n i : Nat) : (bufBytes m n i).length = n := by
  induction n generalizing i with
  | zero => rfl
  | succ n ih => rw [bufBytes, List.length_cons, ih]

/-- Settles O23: `WriteSeq` on the bytes of BUF, carried out whole. -/
theorem wrbCompletes : Obligations.WrbCompletes := by
  intro s len S P l hlen acks evs hl
  have hfollows := writeSeq_follows (bufBytes s.buf len.toNat 0) S P s
  obtain ⟨hdrive, hused⟩ := writeSeq_leaves (bufBytes s.buf len.toNat 0) S P s
  rw [bufBytes_length] at hfollows hdrive hused
  obtain ⟨tr, hquiet, hdone⟩ := hfollows.complete l hl
  refine ⟨tr, ?_, hquiet⟩
  rw [exec_wrb_of_le s S P hlen, hdone, State.played, hdrive, hused]
  rfl

/-! ### RDB -/

/-- Stored bytes read back from where they were stored, and the rest of BUF is as before. -/
theorem storeBytes_memory (bytes : List Byte) (m : Memory × Written) (i : Nat)
    (hi : i + bytes.length ≤ bufSize) (hwf : Memory.wf m.1 = true) :
    Memory.wf (storeBytes m i bytes).1 = true ∧
    ∀ j, Memory.read (storeBytes m i bytes).1 j =
      if i ≤ j ∧ j < i + bytes.length then bytes.getD (j - i) 0 else Memory.read m.1 j := by
  induction bytes generalizing m i with
  | nil => exact ⟨hwf, fun j => (if_neg (by simp)).symm⟩
  | cons v bytes ih =>
    obtain ⟨b, w⟩ := m
    rw [List.length_cons] at hi
    have hwrite : Memory.wf (Memory.write b i v) = true := Memory.write_wf b i v (by omega) hwf
    obtain ⟨hwf', hread⟩ := ih (Memory.write b i v, { w with buf := w.buf.setIfInBounds i true })
      (i + 1) (by omega) hwrite
    refine ⟨hwf', fun j => ?_⟩
    rw [storeBytes, hread, Memory.read_write b i j v hwf, List.length_cons]
    rcases lt_trichotomy j i with hj | rfl | hj
    · rw [if_neg (by omega), if_neg (by omega), if_neg (by omega)]
    · rw [if_neg (by omega), if_pos rfl, if_pos (by omega), Nat.sub_self, List.getD_cons_zero]
    · rw [if_neg (by omega : ¬j = i), show j - i = j - (i + 1) + 1 by omega, List.getD_cons_succ]
      simp only [show i + 1 ≤ j ∧ j < i + 1 + bytes.length ↔ i ≤ j ∧ j < i + (bytes.length + 1) by
        omega]

/-- Storing bytes marks just those bytes, and no other register, as written (U1). -/
theorem storeBytes_marks (bytes : List Byte) (m : Memory × Written) (i : Nat) :
    (storeBytes m i bytes).2 = { m.2 with buf := (storeBytes m i bytes).2.buf } ∧
    ∀ j : Fin 32, (storeBytes m i bytes).2.buf[j] =
      (decide (i ≤ j.val ∧ j.val < i + bytes.length) || m.2.buf[j]) := by
  induction bytes generalizing m i with
  | nil => exact ⟨rfl, fun j => by simp [storeBytes]⟩
  | cons v bytes ih =>
    obtain ⟨b, w⟩ := m
    obtain ⟨hframe, hmarks⟩ := ih (Memory.write b i v, { w with buf := w.buf.setIfInBounds i true })
      (i + 1)
    refine ⟨hframe, fun j => ?_⟩
    rw [storeBytes, hmarks, List.length_cons, Fin.getElem_fin, Vector.getElem_setIfInBounds]
    by_cases hj : i = j.val
    · simp [hj]
    · rw [if_neg hj]
      congr 2
      exact propext (by omega)

/-- Settles O26: `ReadSeq` into BUF, carried out whole. -/
theorem rdbCompletes : Obligations.RdbCompletes := by
  intro s len A P l hlen hready hwf bytes evs hl
  have hlength : bytes.length = len.toNat := Line.bytes_length _ _
  obtain ⟨tr, hquiet, hdone⟩ := (readSeq_follows true len.toNat A P s hready).complete l hl
  obtain ⟨hdrive, hused⟩ := readSeq_leaves len.toNat A P s
  obtain ⟨hwf', hread⟩ := storeBytes_memory bytes (s.buf, s.written) 0
    (by rw [hlength, Nat.zero_add]; exact hlen) hwf
  obtain ⟨hframe, hmarks⟩ := storeBytes_marks bytes (s.buf, s.written) 0
  simp only [hlength, Nat.zero_le, true_and, Nat.zero_add, Nat.sub_zero] at hread hmarks
  refine ⟨(storeBytes (s.buf, s.written) 0 bytes).1, (storeBytes (s.buf, s.written) 0 bytes).2, tr,
    ?_, hquiet, hread, hwf', hframe, hmarks⟩
  rw [exec_rdb_of_le s A P hlen, hdone, State.played, hdrive, hused]
  rfl

end Sys2Proof.Machine
end

section
/-! The calibration words (R70, R203). -/

namespace Sys2Proof.Machine

/-- A word is its two bytes, the first one most significant (R70). -/
theorem rxWord_toNat (rx : List Byte) (i : Nat) :
    (rxWord rx i).toNat = (rxByte rx (2 * i)).toNat * 256 + (rxByte rx (2 * i + 1)).toNat := by
  rw [rxWord, BitVec.toNat_append, ← Nat.shiftLeft_add_eq_or_of_lt (BitVec.isLt _),
    Nat.shiftLeft_eq]

theorem calWords_getElem (rx : List Byte) (i : Fin 11) : (calWords rx)[i] = rxWord rx i := by
  fin_cases i <;> rfl

/-- Settles O38. -/
theorem calibrationWords : Obligations.CalibrationWords := by
  refine ⟨fun rx i _ => ?_, by decide, by decide⟩
  rw [calWords_getElem, rxWord_toNat]
  rfl

end Sys2Proof.Machine
end

section
/-! The command word (R90 to R98): the decoder as the order of tests of R96 over the fields a word
carries, the encoder as its inverse, and what an illegal word does (R97). -/

namespace Sys2Proof.Machine

open Sys2Proof.Laws.WordForm (opcode)

/-! ### Fields of a word -/

/-- A field is 0 exactly if no bit of its mask is set. -/
theorem and_mask_eq_zero_iff {w : Nat} (v : BitVec w) (start len : Nat) :
    v &&& (BitVec.allOnes len).setWidth w <<< start = 0#w ↔ v.extractLsb' start len = 0#len := by
  constructor
  · intro h
    ext j hj
    rw [BitVec.getElem_extractLsb', BitVec.getElem_zero]
    by_cases hw : start + j < w
    · have hbit := congrArg (BitVec.getLsbD · (start + j)) h
      simpa [hw, hj, show j < w by omega] using hbit
    · exact BitVec.getLsbD_of_ge v _ (by omega)
  · intro h
    ext k hk
    by_cases hin : start ≤ k ∧ k - start < len
    · have hbit := congrArg (BitVec.getLsbD · (k - start)) h
      have hclear : v[k] = false := by simpa [hin, BitVec.getLsbD_eq_getElem hk] using hbit
      simp [hclear]
    · have hout : start ≤ k → len ≤ k - start := by omega
      simpa using fun _ => hout

theorem and_reserved_plain (c : Half) : c &&& 0x0FFF = 0 ↔ c.extractLsb' 0 12 = 0 :=
  and_mask_eq_zero_iff c 0 12

theorem and_reserved_twoBit (c : Half) : c &&& 0x0FFC = 0 ↔ c.extractLsb' 2 10 = 0 :=
  and_mask_eq_zero_iff c 2 10

theorem and_reserved_transfer (c : Half) :
    c &&& 0x0CC0 = 0 ↔ c.extractLsb' 10 2 = 0 ∧ c.extractLsb' 6 2 = 0 := by
  have hmask := BitVec.or_eq_zero_iff (x := c &&& (BitVec.allOnes 2).setWidth 16 <<< 10)
    (y := c &&& (BitVec.allOnes 2).setWidth 16 <<< 6)
  rw [← BitVec.and_or_distrib_left, and_mask_eq_zero_iff, and_mask_eq_zero_iff] at hmask
  exact hmask

theorem ofBool_getLsbD {w : Nat} (c : BitVec w) (k : Nat) :
    BitVec.ofBool (c.getLsbD k) = c.extractLsb' k 1 := by
  ext j hj
  simp [show j = 0 by omega]

/-- Format Z (R91). -/
theorem append_plain (c : Half) : opcodeOf c ++ c.extractLsb' 0 12 = c :=
  BitVec.extractLsb'_append_extractLsb'

/-- Formats M and O (R92, R95). -/
theorem append_twoBit (c : Half) : opcodeOf c ++ c.extractLsb' 2 10 ++ c.extractLsb' 0 2 = c := by
  simp only [opcodeOf, BitVec.extractLsb'_append_extractLsb'_eq_extractLsb']
  exact BitVec.extractLsb'_eq_self

/-- Format X (R93). -/
theorem append_transfer (c : Half) :
    opcodeOf c ++ c.extractLsb' 10 2 ++ BitVec.ofBool (c.getLsbD 9) ++ BitVec.ofBool (c.getLsbD 8) ++
      c.extractLsb' 6 2 ++ c.extractLsb' 0 6 = c := by
  simp only [opcodeOf, ofBool_getLsbD, BitVec.extractLsb'_append_extractLsb'_eq_extractLsb']
  exact BitVec.extractLsb'_eq_self

section
variable (op : BitVec 4) (len : BitVec 6) (f p : Bool)

theorem encodeX_len : (encodeX op len f p).extractLsb' 0 6 = len :=
  BitVec.extractLsb'_append_eq_right

theorem encodeX_flags :
    (encodeX op len f p).getLsbD 8 = f ∧ (encodeX op len f p).getLsbD 9 = p := by
  rw [encodeX, BitVec.getLsbD_append, BitVec.getLsbD_append]
  simp only [BitVec.getLsbD_append]
  simp

end

/-! ### Steps 3 and 4 of R96 -/

/-- A word with the given reserved bits and command: the reserved bits are looked at before the
length. -/
def checkFields (c reserved : Half) (i : Instr) : Except Reject Instr :=
  if c &&& reserved ≠ 0 then .error .reserved
  else if i.wellFormed then .ok i else .error .length

theorem checkFields_eq_ok {c reserved : Half} {i j : Instr} (h : checkFields c reserved i = .ok j) :
    c &&& reserved = 0 ∧ j.wellFormed = true ∧ i = j := by
  rw [checkFields] at h
  by_cases hr : c &&& reserved = 0
  · by_cases hi : i.wellFormed = true
    · rw [if_neg (not_not.mpr hr), if_pos hi] at h
      cases h
      exact ⟨hr, hi, rfl⟩
    · rw [if_neg (not_not.mpr hr), if_neg hi] at h
      cases h
  · rw [if_pos hr] at h
    cases h

theorem decodeZ_eq (c : Half) (i : Instr) (hi : i.wellFormed = true) :
    decodeZ c i = checkFields c 0x0FFF i := by
  rw [decodeZ, checkFields, ite_not, if_pos hi]
  simp only [and_reserved_plain]

theorem decodeTwoBit_eq (c : Half) (mk : BitVec 2 → Instr) (hi : ∀ m, (mk m).wellFormed = true) :
    decodeTwoBit c mk = checkFields c 0x0FFC (mk (c.extractLsb' 0 2)) := by
  rw [decodeTwoBit, checkFields, ite_not, if_pos (hi _)]
  simp only [and_reserved_twoBit]

theorem decodeX_eq (c : Half) (mk : BitVec 6 → Bool → Bool → Instr)
    (hi : ∀ len f p, (mk len f p).wellFormed = lenLegal len) :
    decodeX c mk =
      checkFields c 0x0CC0 (mk (c.extractLsb' 0 6) (c.getLsbD 8) (c.getLsbD 9)) := by
  rw [decodeX, checkFields, hi]
  simp only [ne_eq, and_reserved_transfer, not_and_or]

/-! ### The row of R94 that an opcode names -/

/-- The command of the same row with the operands that a word carries (R92, R93, R95). -/
def readFields (c : Half) : Instr → Instr
  | .setmode _ => .setmode (c.extractLsb' 0 2)
  | .rdp _ => .rdp (c.extractLsb' 0 2)
  | .wrb _ _ _ => .wrb (c.extractLsb' 0 6) (c.getLsbD 8) (c.getLsbD 9)
  | .rdb _ _ _ => .rdb (c.extractLsb' 0 6) (c.getLsbD 8) (c.getLsbD 9)
  | .init => .init
  | .start => .start
  | .stop => .stop
  | .rdcal => .rdcal
  | .rdt => .rdt
  | .comp => .comp

/-- The opcode is the top hexadecimal digit (R90). -/
theorem opcodeOf_toNat (c : Half) : (opcodeOf c).toNat = c.toNat / 0x1000 := by
  have hc := c.isLt
  rw [opcodeOf, BitVec.extractLsb'_toNat, Nat.shiftRight_eq_div_pow, Nat.mod_eq_of_lt (by omega)]

/-- An opcode that is not refused is a command's (R94). -/
theorem exists_opcode (c : Half) (h : ¬(c.toNat < 0x1000 ∨ 0xB000 ≤ c.toNat)) :
    ∃ i, opcodeOf c = opcode i := by
  have hrows : ∀ op : BitVec 4, 1 ≤ op.toNat ∧ op.toNat ≤ 10 →
      op ∈ [.init, .start, .stop, .setmode 0, .wrb 0 false false, .rdb 0 false false, .rdcal, .rdt,
        .rdp 0, .comp].map opcode := by decide
  have hop := opcodeOf_toNat c
  obtain ⟨i, -, hi⟩ := List.mem_map.mp (hrows (opcodeOf c) (by omega))
  exact ⟨i, hi.symm⟩

/-- Step 2 of R96. -/
theorem decode_badOpcode (c : Half) (h : c.toNat < 0x1000 ∨ 0xB000 ≤ c.toNat) :
    decode c = .error .opcode := by
  have hop := opcodeOf_toNat c
  rw [decode]
  split
  case h_11 => rfl
  all_goals omega

section
variable {c : Half} {i : Instr} (h : opcodeOf c = opcode i)
include h

theorem decode_of_opcode : decode c = checkFields c (reservedBits c) (readFields c i) := by
  rw [decode, reservedBits, h]
  cases i with
  | init | start | stop | rdcal | rdt | comp => exact decodeZ_eq c _ rfl
  | setmode _ | rdp _ => exact decodeTwoBit_eq c _ fun _ => rfl
  | wrb _ _ _ | rdb _ _ _ => exact decodeX_eq c _ fun _ _ _ => rfl

/-- A word with no reserved bit set is the word of the command it carries (R91 to R95). -/
theorem encode_readFields (hr : c &&& reservedBits c = 0) : encode (readFields c i) = c := by
  rw [reservedBits, h] at hr
  cases i with
  | init | start | stop | rdcal | rdt | comp =>
    have hfields := append_plain c
    rw [(and_reserved_plain c).mp hr, h] at hfields
    exact hfields
  | setmode _ | rdp _ =>
    have hfields := append_twoBit c
    rw [(and_reserved_twoBit c).mp hr, h] at hfields
    exact hfields
  | wrb _ _ _ | rdb _ _ _ =>
    have hfields := append_transfer c
    obtain ⟨hhigh, hlow⟩ := (and_reserved_transfer c).mp hr
    rw [hhigh, hlow, h] at hfields
    exact hfields

/-- Only a length can be illegal, and only format X has one (R98). -/
theorem readFields_wellFormed_iff : (readFields c i).wellFormed = true ↔
    ¬((opcodeOf c = 5 ∨ opcodeOf c = 6) ∧ 32 < (c.extractLsb' 0 6).toNat) := by
  rw [h]
  cases i with
  | wrb _ _ _ | rdb _ _ _ => simp [readFields, opcode, Instr.wellFormed, lenLegal_iff]
  | _ => simp [readFields, opcode, Instr.wellFormed]

end

/-- The word of a command: its opcode, and no reserved bit. -/
theorem wordForm (i : Instr) : Laws.WordForm.Statement i := by
  cases i with
  | init => exact Laws.WordForm.init
  | start => exact Laws.WordForm.start
  | stop => exact Laws.WordForm.stop
  | setmode m => exact Laws.WordForm.setmode m
  | wrb len S P => exact Laws.WordForm.wrb len S P
  | rdb len A P => exact Laws.WordForm.rdb len A P
  | rdcal => exact Laws.WordForm.rdcal
  | rdt => exact Laws.WordForm.rdt
  | rdp oss => exact Laws.WordForm.rdp oss
  | comp => exact Laws.WordForm.comp

theorem readFields_encode (i : Instr) : readFields (encode i) i = i := by
  cases i with
  | setmode m => exact congrArg Instr.setmode BitVec.extractLsb'_append_eq_right
  | rdp oss => exact congrArg Instr.rdp BitVec.extractLsb'_append_eq_right
  | wrb len f P | rdb len f P =>
    obtain ⟨hf, hP⟩ := encodeX_flags _ len f P
    rw [encode, readFields, encodeX_len, hf, hP]
  | _ => rfl

/-! ### Encoding obligations -/

/-- Settles O1: the word's opcode names the command's row, and its fields give the operands back. -/
theorem decodeEncode : Obligations.DecodeEncode := by
  intro i hi
  obtain ⟨hop, hreserved⟩ := wordForm i
  rw [decode_of_opcode hop, readFields_encode, checkFields, if_neg (not_not.mpr hreserved), if_pos hi]

/-- Settles O2: a word that passes the tests has no bit besides its opcode and its operands. -/
theorem encodeDecode : Obligations.EncodeDecode := by
  intro c i hd
  by_cases hbad : c.toNat < 0x1000 ∨ 0xB000 ≤ c.toNat
  · rw [decode_badOpcode c hbad] at hd
    cases hd
  · obtain ⟨j, hop⟩ := exists_opcode c hbad
    rw [decode_of_opcode hop] at hd
    obtain ⟨hr, hwf, rfl⟩ := checkFields_eq_ok hd
    exact ⟨encode_readFields hop hr, hwf⟩

/-- Settles O3: the tests are those of `decode_of_opcode`, with the opcode's before them. -/
theorem decodeOrder : Obligations.DecodeOrder := by
  intro c badOp badBits badLen
  have hop : badOp → decode c = .error .opcode := decode_badOpcode c
  have hbits : ¬badOp → badBits → decode c = .error .reserved := fun ho hb => by
    obtain ⟨i, hi⟩ := exists_opcode c ho
    rw [decode_of_opcode hi, checkFields, if_pos hb]
  have hlen : ¬badOp → ¬badBits → badLen → decode c = .error .length := fun ho hb hl => by
    obtain ⟨i, hi⟩ := exists_opcode c ho
    rw [decode_of_opcode hi, checkFields, if_neg hb,
      if_neg (mt (readFields_wellFormed_iff hi).mp (not_not.mpr hl))]
  refine ⟨hop, hbits, hlen, fun ho hb hl => ?_, fun h s => ?_⟩
  · obtain ⟨i, hi⟩ := exists_opcode c ho
    refine ⟨readFields c i, ?_, encode_readFields hi (not_not.mp hb)⟩
    rw [decode_of_opcode hi, checkFields, if_neg hb, if_pos ((readFields_wellFormed_iff hi).mpr hl)]
  · obtain ⟨r, hr⟩ : ∃ r, decode c = .error r := by
      by_cases ho : badOp
      · exact ⟨_, hop ho⟩
      by_cases hb : badBits
      · exact ⟨_, hbits ho hb⟩
      exact ⟨_, hlen ho hb ((h.resolve_left ho).resolve_left hb)⟩
    exact runWord_error s c r hr

/-- Settles O4. -/
theorem decodeWords : Obligations.DecodeWords := by
  unfold Obligations.DecodeWords
  decide

/-! ### Illegal words and status codes -/

/-- At an idle block the end of a command writes STATUS alone (R105). -/
theorem State.endCommand_of_idle {s : State} (hs : s.seq = .idle) (st : Status) :
    s.endCommand st = { s with status := st.code } := by
  rw [State.endCommand, ← hs]

/-- Settles O7. -/
theorem illegalWord : Obligations.IllegalWord := by
  intro s data rest r hs hh hd
  have hidle : ({ s with host := rest, cmd := data.setWidth 16 } : State).seq = .idle := hs
  rw [step_event s _ rest hs hh, hostStep_write, hostWrite_cmd, runWord_error _ _ r hd,
    State.endCommand_of_idle hidle]
  rfl

/-- A command that ends does so with a status of its list; the results are written with OK. -/
theorem Ended.status_mem {i : Instr} {s v t : State} (h : Ended i (statuses i s) v t)
    (ht : t.seq = .idle) : t.status ∈ (statuses i s).map Status.code := by
  rcases h with ⟨st, hst, rfl⟩ | ⟨w, -, rfl⟩ | ⟨c, rfl, rfl⟩ | ⟨x, rfl, rfl⟩ | ⟨x, oss, rfl, rfl⟩ |
    ⟨a, b, rfl, rfl⟩
  · exact List.mem_map_of_mem hst
  · cases ht
  all_goals exact List.mem_map_of_mem (a := Status.ok) List.mem_cons_self

/-- Settles O49: what `exec_ran` says of a command's end. -/
theorem statusCodes : Obligations.StatusCodes := by
  intro i s t h ht
  obtain ⟨m, b, w, st, drv, scl, sda, new, hend, -⟩ := (exec_next_ran h).run
  exact hend.status_mem ht

end Sys2Proof.Machine
end

section
/-! Waits and samples of a command, however it ends, from `exec_ran`: only an unbounded wait can hang
(R280, R281), each sample is an answer of the environment (R133), and the clock rises by `ClockUp()`
alone (R137). -/

namespace Sys2Proof.Machine

/-! ### Hangs -/

/-- A line without pending answers rests. -/
theorem Line.peek_resting (v : Bool) (n : Nat) : (⟨[], v⟩ : Line).peek n = List.replicate n v := by
  induction n with
  | zero => rfl
  | succ n ih => rw [Line.peek_succ, List.replicate_succ, ← ih]; rfl

/-- What the reason for a hang says (R135, R281). -/
theorem State.hangReason_iff (s : State) (w : WaitLoop) : s.hangReason w = true ↔
    s.wlim = 0 ∧ (w = .sclHigh → s.sclDrv = false ∧ s.scl = ⟨[], false⟩) ∧
      (w = .sdaLow → s.sdaDrv = false ∧ s.sda = ⟨[], true⟩) := by
  cases w <;> simp [State.hangReason, and_assoc]

/-- A command that does not end is in a wait loop, for the reason of R281. -/
theorem Ended.waiting {i running : Instr} {codes : List Status} {v t : State} {w : WaitLoop}
    (h : Ended i codes v t) (hw : t.seq = .waiting running w) :
    running = i ∧ t.hangReason w = true := by
  have hreason := h.hangJustified
  rw [State.hangJustified, hw] at hreason
  refine ⟨?_, hreason⟩
  rcases h with ⟨st, -, rfl⟩ | ⟨w, -, rfl⟩ | ⟨c, -, rfl⟩ | ⟨x, -, rfl⟩ | ⟨x, oss, -, rfl⟩ |
    ⟨a, b, -, rfl⟩
  case hung => cases hw; rfl
  all_goals cases hw

theorem Ran.waiting {i running : Instr} {s t : State} {w : WaitLoop} (h : Ran i s t)
    (hw : t.seq = .waiting running w) : running = i ∧ t.hangReason w = true := by
  obtain ⟨m, b, w', st, drv, scl, sda, new, hend, -⟩ := h.run
  exact hend.waiting hw

/-- Settles O50: a wait loop the command stayed in would have no limit. -/
theorem limitEnds : Obligations.LimitEnds := by
  intro i s hlimit
  obtain ⟨t, ht, ran⟩ := exec_ran i s
  refine ⟨t, ht, ?_⟩
  cases hseq : t.seq with
  | idle => rfl
  | waiting running w =>
    obtain ⟨hzero, -⟩ := (t.hangReason_iff w).mp (ran.waiting hseq).2
    obtain ⟨-, hwlim, -⟩ := ran.kept
    exact absurd (hwlim.symm.trans hzero) hlimit

/-- Settles O52. -/
theorem hangsOnlyUnbounded : Obligations.HangsOnlyUnbounded := by
  intro i running s t w h hseq
  have ran := exec_next_ran h
  obtain ⟨hrunning, hreason⟩ := ran.waiting hseq
  obtain ⟨hzero, hscl, hsda⟩ := (t.hangReason_iff w).mp hreason
  obtain ⟨-, hwlim, -⟩ := ran.kept
  refine ⟨hrunning, hwlim.symm.trans hzero, fun hw => ?_, fun hw => ?_⟩
  · obtain ⟨hdrv, hline⟩ := hscl hw
    exact ⟨hdrv, fun n => by rw [hline, Line.peek_resting]⟩
  · obtain ⟨hdrv, hline⟩ := hsda hw
    exact ⟨hdrv, fun n => by rw [hline, Line.peek_resting]⟩

/-! ### Samples and the clock -/

/-- Settles O53. -/
theorem samplesAreAnswers : Obligations.SamplesAreAnswers := by
  intro i s t h
  obtain ⟨m, b, w, st, drv, scl, sda, new, hend, hact, -⟩ := (exec_next_ran h).run
  obtain ⟨hscl, hsclLeft⟩ := hact.clock
  obtain ⟨hsda, hsdaLeft⟩ := hact.data
  rw [hend.frame]
  exact ⟨new, rfl, hscl, hsclLeft, hsda, hsdaLeft⟩

/-- Settles O55 (the name of the statement is that of the predicate). -/
theorem clockDiscipline_exec : Obligations.ClockDiscipline := by
  intro i s t hi htail h
  obtain ⟨m, b, w, st, drv, scl, sda, new, hend, -, -, -, -, hclock⟩ := (exec_next_ran h).run
  rw [hend.frame]
  exact ⟨new, rfl, hclock hi htail⟩

end Sys2Proof.Machine
end

section
/-! INIT, START and STOP (R140, R144, R146): what the start and stop sequences leave, and a START on
a clock that is never stretched, event by event (V11, V12). -/

namespace Sys2Proof.Machine

/-- Settles O18. -/
theorem initEffect : Obligations.InitEffect := ⟨rfl, fun _ => rfl⟩

/-- Settles O19: the start sequence, carried out whole. -/
theorem startCompletes : Obligations.StartCompletes := by
  intro s l hl
  obtain ⟨tr, hquiet, hdone⟩ := (startSeq_follows s).complete l hl
  refine ⟨tr, ?_, hquiet⟩
  rw [exec, execStart, hdone, State.played, pinDrive_start, sdaAnswers_start]
  rfl

/-- Settles O21: the stop sequence, carried out whole. -/
theorem stopCompletes : Obligations.StopCompletes := by
  intro s l hl
  obtain ⟨tr, hquiet, hdone⟩ := (stopSeq_follows s).complete l hl
  refine ⟨tr, ?_, hquiet⟩
  rw [exec, execStop, hdone]
  rfl

/-! ### A clock that is never stretched -/

/-- On a line that rests high each wait for a high clock ends at once. -/
theorem Line.afterRises_resting (limit n : Nat) :
    (⟨[], true⟩ : Line).afterRises limit n = some ⟨[], true⟩ := by
  induction n with
  | zero => rfl
  | succ n ih => exact ih

theorem mem_sclAnswers {v : Bool} {es : List Event} (h : .sclSample v ∈ es) :
    v ∈ sclAnswers es := by
  obtain ⟨as, bs, rfl⟩ := List.append_of_mem h
  rw [sclAnswers_append]
  exact List.mem_append_right _ List.mem_cons_self

/-- Events without a failed clock sample are those of an unstretched clock. -/
theorem quiet_eq_reverse {tr : List Event} (h : false ∉ sclAnswers tr.reverse) :
    quiet tr = tr.reverse :=
  List.filter_eq_self.mpr fun _ he =>
    decide_eq_true fun hfailed => h (mem_sclAnswers (hfailed ▸ he))

/-- No command has a failed clock sample on a clock line that rests high. -/
theorem no_failed_sample {i : Instr} {s t : State} {tr : List Event} (hs : s.scl = ⟨[], true⟩)
    (h : exec i s = .next t) (ht : t.trace = tr ++ s.trace) : false ∉ sclAnswers tr.reverse := by
  obtain ⟨new, hnew, hanswers, -⟩ := samplesAreAnswers i s t h
  obtain rfl : tr = new := List.append_cancel_right (ht.symm.trans hnew)
  rw [hanswers, hs, Line.peek_resting]
  exact fun hmem => absurd (List.eq_of_mem_replicate hmem) Bool.false_ne_true

/-- START with the clock never stretched, in either mode. -/
theorem exec_start_unstretched (s : State) (hs : s.scl = ⟨[], true⟩) :
    ∃ t, exec .start s = .next t ∧ t.mode = s.mode ∧ t.started = true ∧
      t.drv = startExit s.cfg s.mode ∧ t.status = 0 ∧
      t.trace.reverse = s.trace.reverse ++ evStart s.cfg s.mode := by
  obtain ⟨tr, hexec, hquiet⟩ := startCompletes s ⟨[], true⟩
    (by rw [State.clockAfter, hs, Line.afterRises_resting])
  refine ⟨_, hexec, rfl, rfl, rfl, rfl, ?_⟩
  rw [← hquiet, quiet_eq_reverse (no_failed_sample hs hexec rfl)]
  exact List.reverse_append

theorem State.flags_eq {s : State} {m : Mode} {st scl sda : Bool} (hm : s.mode = m)
    (hst : s.started = st) (hdrv : s.drv = (scl, sda)) :
    s.flags = 0#28 ++ BitVec.ofBool sda ++ BitVec.ofBool scl ++ BitVec.ofBool m.bit ++
      BitVec.ofBool st := by
  cases hm
  cases hst
  cases hdrv
  rfl

/-- Settles O20. -/
theorem startUnstretched : Obligations.StartUnstretched := by
  intro s hs
  obtain ⟨t, hexec, hmode, hstarted, hdrv, hstatus, htrace⟩ := exec_start_unstretched s hs
  refine ⟨fun hm => ?_, fun hm htail => ?_⟩
  · rw [hm] at hmode hdrv htrace
    refine ⟨t, hexec, ?_, hstatus, htrace⟩
    rw [State.flags_eq hmode hstarted hdrv]
    decide
  · rw [hm, startExit, htail] at hdrv
    rw [hm, evStart, htail] at htrace
    rw [hm] at hmode
    refine ⟨t, hexec, ?_, hstatus, htrace⟩
    rw [State.flags_eq hmode hstarted hdrv]
    decide

end Sys2Proof.Machine
end

section
/-! A clock held low from the start (R280, R281): the first `ClockUp()` of a command fails, and with
it every procedure that opens with it; and a read whose data line never goes low (R172, R173). -/

namespace Sys2Proof.Machine

/-! ### The first rise does not come -/

/-- A procedure from `s` on a clock held low that set the data line by event `e`, with STARTED as
given, and stayed in its first `ClockUp()`: TIMEOUT under a limit, a hang without one. -/
def stuckAfter {α : Type} (s : State) (started : Bool) (e : Event) : Flow α :=
  if s.wlim = 0 then
    .hung .sclHigh (s.bus started (false, e == .sdaLow) s.scl s.sda [.sclRel, .dly 1, e])
  else
    .raised .timeout (s.bus started (false, e == .sdaLow) s.scl s.sda
      (List.replicate s.wlim.toNat (.sclSample false) ++ [.sclRel, .dly 1, e]))

section
variable {α β : Type} (s : State) (started : Bool) (e : Event)

/-- What stands behind a procedure that is stuck is not reached (R272). -/
theorem stuckAfter_bind (k : α → State → Flow β) :
    (stuckAfter s started e).bind k = stuckAfter s started e := by
  rw [stuckAfter, stuckAfter]
  split <;> rfl

/-- A wait on a line that rests at the unwanted level (R135). -/
theorem waitFrom_resting (want : Bool) (limit : Word) : waitFrom want limit.toNat (!want) 0 [] =
    if limit = 0 then ⟨[], ⟨[], !want⟩, .never⟩
    else ⟨List.replicate limit.toNat (!want), ⟨[], !want⟩, .timeout⟩ := by
  have hzero : limit.toNat = 0 ↔ limit = 0 := BitVec.toNat_inj (y := 0#32)
  rw [waitFrom, if_neg (by simp), Nat.sub_zero]
  simp only [hzero]

variable {s} (hs : s.scl = ⟨[], false⟩)
include hs

/-- A procedure that opens with the set-up of the data line and a `ClockUp()`. -/
theorem clockUp_bind_stuck {t : State} (sclDrv : Bool) (k : Unit → State → Flow α)
    (ht : t = s.bus started (sclDrv, e == .sdaLow) s.scl s.sda [.dly 1, e]) :
    (clockUp t).bind k = stuckAfter s started e := by
  have hrest : t.scl.rest = false := by rw [ht, State.bus_scl, hs]
  have hnone : t.scl.answers = [] := by rw [ht, State.bus_scl, hs]
  have hlimit : t.wlim = s.wlim := by rw [ht, State.bus_wlim]
  rw [clockUp_eq, hrest, hnone, hlimit, ← Bool.not_true, waitFrom_resting, stuckAfter, ht, hs]
  split
  · simp [WaitEnd.flow]
  · simp [WaitEnd.flow]

theorem wbit_stuck (b : Bool) :
    wbit b s = stuckAfter s s.started (if b then .sdaRel else .sdaLow) :=
  clockUp_bind_stuck _ _ hs s.sclDrv _ (by cases b <;> rfl)

theorem rbit_stuck : rbit s = stuckAfter s s.started .sdaRel :=
  clockUp_bind_stuck _ _ hs s.sclDrv _ rfl

theorem startSeq_stuck : startSeq s = stuckAfter s true .sdaRel := by
  have hgeneral : generalStart { s with started := true } = stuckAfter s true .sdaRel :=
    clockUp_bind_stuck _ _ hs s.sclDrv _ rfl
  rw [startSeq, hgeneral, stuckAfter_bind]

theorem stopSeq_stuck : stopSeq s = stuckAfter s s.started .sdaLow :=
  clockUp_bind_stuck _ _ hs s.sclDrv _ rfl

/-! ### The procedures that open with one of these -/

theorem writeSeq_start_stuck (bytes : List Byte) (P : Bool) :
    writeSeq bytes true P s = stuckAfter s true .sdaRel := by
  rw [writeSeq, optionally, if_pos rfl, startSeq_stuck hs, stuckAfter_bind]

theorem writeSeq_byte_stuck (b : Byte) (bytes : List Byte) (P : Bool) :
    writeSeq (b :: bytes) false P s =
      stuckAfter s s.started (if b.getLsbD 7 then .sdaRel else .sdaLow) := by
  have hbits : writeBits (wireBits b) s =
      stuckAfter s s.started (if b.getLsbD 7 then .sdaRel else .sdaLow) := by
    rw [wireBits, writeBits, wbit_stuck hs, stuckAfter_bind]
  rw [writeSeq, optionally, if_neg Bool.false_ne_true, Flow.bind_done, writeBytes, hbits,
    stuckAfter_bind, stuckAfter_bind]

theorem writeSeq_stop_stuck : writeSeq [] false true s = stuckAfter s s.started .sdaLow := by
  rw [writeSeq, optionally, if_neg Bool.false_ne_true, Flow.bind_done, writeBytes, Flow.bind_done,
    optionally, if_pos rfl, stopSeq_stuck hs, stuckAfter_bind]

theorem readSeq_byte_stuck (hm : s.mode = .normal) (toBuf : Bool) (n : Nat) (A P : Bool) :
    readSeq toBuf (n + 1) A P s = stuckAfter s s.started .sdaRel := by
  rw [readSeq, readReady, hm, Flow.bind_done, readBytes, readBits, rbit_stuck hs, stuckAfter_bind,
    stuckAfter_bind, stuckAfter_bind]

theorem readSeq_stop_stuck (hm : s.mode = .normal) (toBuf A : Bool) :
    readSeq toBuf 0 A true s = stuckAfter s s.started .sdaLow := by
  rw [readSeq, readReady, hm, Flow.bind_done, readBytes, Flow.bind_done, optionally, if_pos rfl,
    stopSeq_stuck hs, stuckAfter_bind]

theorem readRegister_stuck (reg : Byte) (n : Nat) :
    readRegister reg n s = stuckAfter s true .sdaRel := by
  rw [readRegister, writeStep, writeSeq_start_stuck hs, stuckAfter_bind, stuckAfter_bind]

theorem convert_stuck (control : Byte) (us n : Nat) :
    convert control us n s = stuckAfter s true .sdaRel := by
  rw [convert, writeStep, writeSeq_start_stuck hs, stuckAfter_bind, stuckAfter_bind]

end

/-! ### The commands -/

section
variable (s : State) (started : Bool) (e : Event) (i : Instr)

theorem stuckAfter_close_limit (h : s.wlim ≠ 0) : (stuckAfter s started e).close i =
    .next ((s.bus started (false, e == .sdaLow) s.scl s.sda
      (List.replicate s.wlim.toNat (.sclSample false) ++ [.sclRel, .dly 1, e])).endCommand
        .timeout) := by
  rw [stuckAfter, if_neg h]
  rfl

theorem stuckAfter_close_unlimited (h : s.wlim = 0) : (stuckAfter s started e).close i =
    .next { s.bus started (false, e == .sdaLow) s.scl s.sda [.sclRel, .dly 1, e] with
      seq := .waiting i .sclHigh } := by
  rw [stuckAfter, if_pos h]
  rfl

end

/-- A register command opens with a start in NORMAL mode (R200, R202, R204, R205). -/
theorem exec_register_stuck {s : State} {i : Instr} (hstarted : s.started = false)
    (hi : i = .rdcal ∨ i = .rdt ∨ ∃ oss, i = .rdp oss) (hs : s.scl = ⟨[], false⟩) :
    exec i s = (stuckAfter { s with mode := .normal } true .sdaRel : Flow Status).timeoutAsI2c.close
      i := by
  have hs' : ({ s with mode := .normal } : State).scl = ⟨[], false⟩ := hs
  rcases hi with rfl | rfl | ⟨oss, rfl⟩
  · rw [exec, execRdcal, registerCommand_closed _ _ s hstarted, readRegister_stuck hs',
      stuckAfter_bind]
  · rw [exec, execRdt, registerCommand_closed _ _ s hstarted, convert_stuck hs', stuckAfter_bind]
  · rw [exec, execRdp, registerCommand_closed _ _ s hstarted, convert_stuck hs', stuckAfter_bind]

/-- Settles O36. -/
theorem registerStuckClock : Obligations.RegisterStuckClock := by
  intro s i hstarted hi hs
  rw [exec_register_stuck hstarted hi hs, stuckAfter]
  refine ⟨fun h => ?_, fun h => ?_⟩
  · rw [if_neg h]
    rfl
  · rw [if_pos h]
    rfl

/-- A transport command that reaches a `ClockUp()` first opens as `opening` says. -/
theorem exec_opening_stuck {s : State} {i : Instr} {started : Bool} {e : Event}
    (hwf : i.wellFormed = true) (ho : opening i s = some (started, e)) (hs : s.scl = ⟨[], false⟩) :
    exec i s = (stuckAfter s started e : Flow Status).close i := by
  have hlen : ∀ len : BitVec 6, len ≠ 0 → ∃ n, len.toNat = n + 1 := fun len h =>
    Nat.exists_eq_succ_of_ne_zero (mt (BitVec.toNat_inj (y := 0#6)).mp h)
  cases i with
  | start =>
    cases ho
    rw [exec, execStart, startSeq_stuck hs, stuckAfter_bind]
  | stop =>
    cases ho
    rw [exec, execStop, stopSeq_stuck hs, stuckAfter_bind]
  | wrb len S P =>
    rw [exec_wrb_of_le s S P ((lenLegal_iff len).mp hwf)]
    cases S with
    | true =>
      cases ho
      rw [writeSeq_start_stuck hs]
    | false =>
      by_cases h0 : len = 0
      · subst h0
        cases P with
        | true =>
          cases ho
          rw [show (0 : BitVec 6).toNat = 0 from rfl, bufBytes, writeSeq_stop_stuck hs]
        | false => cases ho
      · obtain ⟨n, hn⟩ := hlen len h0
        rw [opening, if_neg Bool.false_ne_true, if_pos h0] at ho
        cases ho
        rw [hn, bufBytes, writeSeq_byte_stuck hs]
  | rdb len A P =>
    rw [exec_rdb_of_le s A P ((lenLegal_iff len).mp hwf)]
    cases hm : s.mode with
    | sensorVariant =>
      rw [opening, if_pos hm] at ho
      cases ho
    | normal =>
      rw [opening, if_neg (by rw [hm]; nofun)] at ho
      by_cases h0 : len = 0
      · subst h0
        cases P with
        | true =>
          cases ho
          rw [show (0 : BitVec 6).toNat = 0 from rfl, readSeq_stop_stuck hs hm, stuckAfter_bind]
        | false => cases ho
      · obtain ⟨n, hn⟩ := hlen len h0
        rw [if_pos h0] at ho
        cases ho
        rw [hn, readSeq_byte_stuck hs hm, stuckAfter_bind]
  | init | setmode m | rdcal | rdt | rdp oss | comp => cases ho

/-- Settles O37. -/
theorem transportStuckClock : Obligations.TransportStuckClock := by
  intro s i started e hwf ho hs
  rw [exec_opening_stuck hwf ho hs]
  exact ⟨stuckAfter_close_limit s started e i, stuckAfter_close_unlimited s started e i⟩

/-! ### A data line that does not go low -/

/-- A read in SENSOR_VARIANT mode opens with the wait for data low (R172). -/
theorem readSeq_not_ready {s : State} (hm : s.mode = .sensorVariant)
    (hw : s.dataWait.ending ≠ .seen) (toBuf : Bool) (n : Nat) (A P : Bool) :
    readSeq toBuf n A P s = s.dataWait.ending.broken .sdaLow (s.bus s.started (s.sclDrv, false)
      s.scl s.dataWait.line
      (List.replicate s.dataWait.samples.length (.sdaSample true) ++ [.sdaRel])) := by
  have hwait := waitSdaLow_eq s
  have hdata : waitFrom false s.wlim.toNat s.sda.rest 0 s.sda.answers = s.dataWait := rfl
  obtain ⟨k, hk⟩ := waitFrom_samples false s.wlim.toNat s.sda.rest 0 s.sda.answers
  rw [hdata] at hwait hk
  rw [if_neg hw, List.append_nil] at hk
  rw [hk, List.map_replicate, List.reverse_replicate] at hwait
  rw [readSeq, readReady, hm]
  dsimp only
  rw [hwait, hk, List.length_replicate]
  cases he : s.dataWait.ending with
  | seen => exact absurd he hw
  | timeout => rfl
  | never => rfl

/-- Settles O27. -/
theorem rdbNeverReady : Obligations.RdbNeverReady := by
  intro s len A P hlen hm
  refine ⟨fun he => ?_, fun he => ?_, fun hs => ?_⟩
  · have hsamples : s.dataWait.samples.length = s.wlim.toNat := by
      rw [State.dataWait, (waitOn_timeout false s.wlim.toNat s.sda he).2, List.length_replicate]
    rw [exec_rdb_of_le s A P hlen, readSeq_not_ready hm (by rw [he]; nofun), he, hsamples]
    rfl
  · rw [exec_rdb_of_le s A P hlen, readSeq_not_ready hm (by rw [he]; nofun), he]
    rfl
  · rw [State.dataWait, hs]
    exact (congrArg WaitResult.ending (waitFrom_resting false s.wlim)).trans (by split <;> rfl)

end Sys2Proof.Machine
end

section
/-! Every command as the list of events its procedures give (40_bit_transport to 42_bmp085_access):
carried out whole when each rise of the clock comes, and up to the rise that does not come. -/

namespace Sys2Proof.Machine

/-! ### The relation -/

/-- Command `i` ended from `s`, its waits done: not with TIMEOUT, and with `tr` added to the trace. -/
def EndedServed (s : State) (tr : List Event) (o : Host.Outcome State Fault Refusal) : Prop :=
  ∃ t, o = .next t ∧ t.seq = .idle ∧ t.status ≠ 6 ∧ t.trace = tr ++ s.trace

/-- How a command that does not see a clock rise reports it (R201, R280). -/
def clockFailure (i : Instr) : Status := if isRegisterCommand i then .i2cError else .timeout

/-- The mode a command runs its procedures in (R200). -/
def runMode (i : Instr) (s : State) : Mode := if isRegisterCommand i then .normal else s.mode

/-- Command `i` from `s` carries out the events `evs`, as `Follows` says of a procedure: all of them
when the clock rises as often as they ask; if the rise after the first `m` does not come, those that
stand before it, leaving STARTED and BUF as in `cut m`. -/
structure ExecFollows (i : Instr) (s : State) (evs : List Event) (cut : Nat → TransportRegs) :
    Prop where
  complete : ∀ l, s.clockAfter (rises evs) = some l →
    ∃ tr, quiet tr = evs ∧ EndedServed s tr (exec i s)
  broken : ∀ m l, m < rises evs → s.clockAfter m = some l → (s.clockWait l).ending ≠ .seen →
    ∃ tr, quiet tr = beforeRise m evs ∧
      exec i s = .next ((({ s with mode := runMode i s } : State).played (cut m) (beforeRise m evs)
        (s.clockWait l).line
        (List.replicate (s.clockWait l).samples.length (.sclSample false) ++ tr)).waitFailed i
          .sclHigh (s.clockWait l).ending (clockFailure i))

/-- An end of a command's body that no wait made: a status returned or raised, not TIMEOUT. -/
def EndsServed (fin : State → Flow Status) : Prop :=
  ∀ t, ∃ st u, (fin t = .done st u ∨ fin t = .raised st u) ∧ st ≠ .timeout ∧ u.trace = t.trace

section
variable {i : Instr} {s : State} {evs : List Event} {cut : Nat → TransportRegs}
  {done : TransportRegs} {f : Flow Status} {fin : State → Flow Status}

theorem Status.code_ne_timeout {st : Status} (h : st ≠ .timeout) : st.code ≠ 6 := by
  cases st with
  | timeout => exact absurd rfl h
  | _ => decide

/-- A command that ends at once, without a wait. -/
theorem ExecFollows.of_endCommand (tr : List Event) {u : State} {st : Status}
    (h : exec i s = .next (u.endCommand st)) (hst : st ≠ .timeout) (htrace : u.trace = tr ++ s.trace)
    (hquiet : quiet tr = evs) (hrises : rises evs = 0) : ExecFollows i s evs cut where
  complete := fun _ _ => ⟨tr, hquiet, _, h, rfl, Status.code_ne_timeout hst, htrace⟩
  broken := fun m _ hm => absurd hm (by omega)

/-- A command that does nothing on the bus. -/
theorem ExecFollows.of_silent {u : State} {st : Status} (h : exec i s = .next (u.endCommand st))
    (hst : st ≠ .timeout) (htrace : u.trace = s.trace) : ExecFollows i s [] cut :=
  .of_endCommand [] h hst htrace rfl rfl

theorem broken_close (e : WaitEnd) (w : WaitLoop) (s : State) (i : Instr) :
    (e.broken w s : Flow Status).close i = .next (s.waitFailed i w e .timeout) := by
  cases e <;> rfl

theorem broken_close_i2c (e : WaitEnd) (w : WaitLoop) (s : State) (i : Instr) :
    (e.broken w s : Flow Status).timeoutAsI2c.close i = .next (s.waitFailed i w e .i2cError) := by
  cases e <;> rfl

/-- A transport command carries out what its body does. -/
theorem Follows.exec_transport (h : Follows f s evs fin done cut) (hexec : exec i s = f.close i)
    (hi : isRegisterCommand i = false) (hfin : EndsServed fin) : ExecFollows i s evs cut where
  complete := fun l hl => by
    obtain ⟨tr, hquiet, hdone⟩ := h.complete l hl
    obtain ⟨st, u, hu, hst, htrace⟩ := hfin (s.played done evs l tr)
    refine ⟨tr, hquiet, u.endCommand st, ?_, rfl, Status.code_ne_timeout hst, htrace⟩
    rw [hexec, hdone]
    rcases hu with hu | hu
    · rw [hu]; rfl
    · rw [hu]; rfl
  broken := fun m l hm hl hw => by
    obtain ⟨tr, hquiet, hbroken⟩ := h.broken m l hm hl hw
    refine ⟨tr, hquiet, ?_⟩
    rw [hexec, hbroken, broken_close, runMode, clockFailure, hi]
    rfl

theorem Flow.timeoutAsI2c_raised {α : Type} {st : Status} (u : State) (h : st ≠ .timeout) :
    (Flow.raised st u : Flow α).timeoutAsI2c = .raised st u := by
  cases st with
  | timeout => exact absurd rfl h
  | _ => rfl

/-- A register command carries out what its body does in NORMAL mode (R200, R201). -/
theorem Follows.exec_register (h : Follows f { s with mode := .normal } evs fin done cut)
    (hexec : exec i s = f.timeoutAsI2c.close i) (hi : isRegisterCommand i = true)
    (hfin : EndsServed fin) : ExecFollows i s evs cut where
  complete := fun l hl => by
    obtain ⟨tr, hquiet, hdone⟩ := h.complete l hl
    obtain ⟨st, u, hu, hst, htrace⟩ :=
      hfin (({ s with mode := .normal } : State).played done evs l tr)
    refine ⟨tr, hquiet, u.endCommand st, ?_, rfl, Status.code_ne_timeout hst, htrace⟩
    rw [hexec, hdone]
    rcases hu with hu | hu
    · rw [hu]; rfl
    · rw [hu, Flow.timeoutAsI2c_raised u hst]; rfl
  broken := fun m l hm hl hw => by
    obtain ⟨tr, hquiet, hbroken⟩ := h.broken m l hm hl hw
    refine ⟨tr, hquiet, ?_⟩
    rw [hexec, hbroken, broken_close_i2c, runMode, clockFailure, hi]
    rfl

end

/-! ### The ends -/

theorem endsServed_done {st : Status} (h : st ≠ .timeout) : EndsServed (.done st) := fun t =>
  ⟨st, t, .inl rfl, h, rfl⟩

/-- An accessor's end: I2C_ERROR after a NACK, else the results are written (R201, R208). -/
theorem endsServed_register (nack : Bool) {write : State → State}
    (h : ∀ t, (write t).trace = t.trace) :
    EndsServed (if nack then .raised .i2cError else fun t => .done .ok (write t)) := fun t => by
  cases nack with
  | true => exact ⟨.i2cError, t, .inr rfl, nofun, rfl⟩
  | false => exact ⟨.ok, write t, .inl rfl, nofun, h t⟩

theorem writeStatus_ne_timeout (acks : List Bool) : writeStatus acks ≠ .timeout := by
  rw [writeStatus]
  split <;> nofun

/-- After an accessor step comes the rest of the command's body, unless the step met a NACK (R201). -/
theorem Follows.bind_ackEnd {α β : Type} {f : Flow α} {s : State} {evs : List Event}
    {done : TransportRegs} {cut : Nat → TransportRegs} {acks : List Bool} {a : α}
    (h : Follows f s evs (ackEnd acks a) done cut) (k : α → State → Flow β) :
    Follows (f.bind k) s evs (if acks.any id then .raised .i2cError else k a) done cut := by
  rw [ackEnd] at h
  cases hany : acks.any id with
  | true =>
    rw [hany, if_pos rfl] at h
    exact h.bind_raised k
  | false =>
    rw [hany, if_neg Bool.false_ne_true] at h
    exact h.finish fun _ => rfl

/-! ### The commands -/

/-- STARTED and BUF when the clock of command `i` stops after `m` rises: STARTED is set once a start
has begun, and a read has stored the bytes whose eighth bit had been sampled (R142, R173). -/
def cutRegs (i : Instr) (s : State) (m : Nat) : TransportRegs :=
  match i with
  | .rdb len _ _ => (s.started, s.stored true 0 ((s.readLine.bytes len.toNat).take ((m + 1) / 9)))
  | _ => s.regs (canStart i || s.started)

section
variable (s : State)

theorem init_follows (cut : Nat → TransportRegs) : ExecFollows .init s (busEvents .init s) cut :=
  .of_endCommand [.sdaRel, .sclRel] (u := s.releaseScl.releaseSda) (st := .ok) rfl (by decide) rfl
    rfl rfl

theorem start_follows : ExecFollows .start s (busEvents .start s) (cutRegs .start s) :=
  ((startSeq_follows s).finish fun _ => rfl).exec_transport rfl rfl (endsServed_done nofun)

theorem stop_follows : ExecFollows .stop s (busEvents .stop s) (cutRegs .stop s) :=
  ((stopSeq_follows s).finish fun _ => rfl).exec_transport rfl rfl (endsServed_done nofun)

theorem setmode_follows (m : BitVec 2) (cut : Nat → TransportRegs) :
    ExecFollows (.setmode m) s [] cut := by
  cases hs : s.started with
  | true => exact .of_silent (st := .busy) (if_pos hs) nofun rfl
  | false =>
    have hexec : exec (.setmode m) s = _ := if_neg (by rw [hs]; nofun)
    cases hm : modeOfField m with
    | none => exact .of_silent (st := .unknownMode) (by rw [hexec, hm]) nofun rfl
    | some mode =>
      exact .of_silent (u := { s with mode := mode }) (st := .ok) (by rw [hexec, hm]) nofun rfl

theorem comp_follows (cut : Nat → TransportRegs) : ExecFollows .comp s [] cut := by
  cases hc : compensate s.cfg.divRound s.compInput with
  | none => exact .of_silent (st := .arithFault) (by rw [exec, execComp, hc]) nofun rfl
  | some r =>
    exact .of_silent (u := s.setResults r.1 r.2) (st := .ok) (by rw [exec, execComp, hc]) nofun rfl

theorem wrb_follows (len : BitVec 6) (S P : Bool) :
    ExecFollows (.wrb len S P) s (busEvents (.wrb len S P) s) (cutRegs (.wrb len S P) s) := by
  by_cases hlen : len.toNat ≤ 32
  · rw [busEvents, (lenLegal_iff len).mpr hlen, evIf, if_pos rfl]
    have h := writeSeq_follows (bufBytes s.buf len.toNat 0) S P s
    rw [bufBytes_length] at h
    exact h.exec_transport (exec_wrb_of_le s S P hlen) rfl
      (endsServed_done (writeStatus_ne_timeout _))
  · rw [busEvents, evIf, if_neg (mt (lenLegal_iff len).mp hlen)]
    exact .of_silent (exec_wrb_of_gt s S P (Nat.not_le.mp hlen)) nofun rfl

theorem rdb_follows (len : BitVec 6) (A P : Bool)
    (hready : len.toNat ≤ 32 → s.dataReady = true) :
    ExecFollows (.rdb len A P) s (busEvents (.rdb len A P) s) (cutRegs (.rdb len A P) s) := by
  by_cases hlen : len.toNat ≤ 32
  · rw [busEvents, (lenLegal_iff len).mpr hlen, evIf, if_pos rfl]
    exact ((readSeq_follows true len.toNat A P s (hready hlen)).finish fun _ => rfl).exec_transport
      (exec_rdb_of_le s A P hlen) rfl (endsServed_done nofun)
  · rw [busEvents, evIf, if_neg (mt (lenLegal_iff len).mp hlen)]
    exact .of_silent (exec_rdb_of_gt s A P (Nat.not_le.mp hlen)) nofun rfl

/-- A register command: its accessor `g` on the events `evs`, then `write` of what it received. -/
theorem registerCommand_follows {i : Instr} {g : State → Flow (List Byte)}
    {write : List Byte → State → State} {evs : List Event} {acks : List Bool} {rx : List Byte}
    {done : TransportRegs} {cut : Nat → TransportRegs} (hi : isRegisterCommand i = true)
    (hexec : exec i s =
      registerCommand i (fun s => (g s).bind fun rx s => .done .ok (write rx s)) s)
    (hwrite : ∀ rx t, (write rx t).trace = t.trace)
    (h : Follows (g { s with mode := .normal }) { s with mode := .normal } evs (ackEnd acks rx) done
      cut) :
    ExecFollows i s (evIf (!s.started) evs) cut := by
  cases hs : s.started with
  | true => exact .of_silent (hexec.trans (registerCommand_open i _ s hs)) nofun rfl
  | false =>
    exact (h.bind_ackEnd _).exec_register (hexec.trans (registerCommand_closed i _ s hs)) hi
      (endsServed_register _ (hwrite rx))

theorem rdcal_follows : ExecFollows .rdcal s (busEvents .rdcal s) (cutRegs .rdcal s) :=
  registerCommand_follows s (write := fun rx t => t.setAllCal (calWords rx)) rfl rfl
    (fun _ _ => rfl) (readRegister_follows regCal calBytes _ rfl)

theorem rdt_follows : ExecFollows .rdt s (busEvents .rdt s) (cutRegs .rdt s) :=
  registerCommand_follows s (write := fun rx t => t.setUt (rxWord rx 0)) rfl rfl
    (fun _ _ => rfl) (convert_follows cmdTemp tConvTemp 2 _ rfl)

/-- The control value of a pressure conversion as a number (R100). -/
theorem cmdPres_eq (oss : BitVec 2) : cmdPres oss = BitVec.ofNat 8 (0x34 + 64 * oss.toNat) := by
  decide +revert

theorem rdp_follows (oss : BitVec 2) :
    ExecFollows (.rdp oss) s (busEvents (.rdp oss) s) (cutRegs (.rdp oss) s) := by
  have h := convert_follows (cmdPres oss) tConvPres 3 { s with mode := .normal } rfl
  rw [cmdPres_eq] at h
  refine registerCommand_follows s
    (write := fun rx t => (t.setUp (rawPressure rx oss)).setOss oss) rfl ?_ (fun _ _ => rfl) h
  rw [← cmdPres_eq]
  rfl

end

/-- **What a command does on any clock.** -/
theorem exec_follows (i : Instr) (s : State)
    (hready : ∀ len A P, i = .rdb len A P → len.toNat ≤ 32 → s.dataReady = true) :
    ExecFollows i s (busEvents i s) (cutRegs i s) := by
  cases i with
  | init => exact init_follows s _
  | start => exact start_follows s
  | stop => exact stop_follows s
  | setmode m => exact setmode_follows s m _
  | wrb len S P => exact wrb_follows s len S P
  | rdb len A P => exact rdb_follows s len A P (hready len A P rfl)
  | rdcal => exact rdcal_follows s
  | rdt => exact rdt_follows s
  | rdp oss => exact rdp_follows s oss
  | comp => exact comp_follows s _

/-! ### A clock that stops -/

/-- Settles O57. -/
theorem clockStops : Obligations.ClockStops := by
  intro i s m l hi done r hm hl hw
  have hcut : cutRegs i s m = s.regs (s.started || canStart i) := by
    rw [Bool.or_comm]
    cases i with
    | rdb len A P => exact absurd rfl (hi len A P)
    | _ => rfl
  obtain ⟨tr, hquiet, hexec⟩ := (exec_follows i s fun len A P h => absurd h (hi len A P)).broken
    m l hm hl hw
  refine ⟨tr, ?_, hquiet⟩
  rw [hexec, hcut]
  rfl

/-- Settles O28. -/
theorem rdbCutShort : Obligations.RdbCutShort := by
  intro s len A P m l hlen hready hwf bytes evs done r hm hl hw
  have hevs : busEvents (.rdb len A P) s = evs := by
    rw [busEvents, (lenLegal_iff len).mpr hlen, evIf, if_pos rfl]
  have hfollows := rdb_follows s len A P fun _ => hready
  rw [hevs] at hfollows
  obtain ⟨tr, hquiet, hexec⟩ := hfollows.broken m l hm hl hw
  have hlength : (bytes.take ((m + 1) / 9)).length = min ((m + 1) / 9) len.toNat := by
    rw [List.length_take, Line.bytes_length]
  obtain ⟨hwf', hread⟩ := storeBytes_memory (bytes.take ((m + 1) / 9)) (s.buf, s.written) 0
    (by rw [hlength, bufSize]; omega) hwf
  obtain ⟨hframe, hmarks⟩ := storeBytes_marks (bytes.take ((m + 1) / 9)) (s.buf, s.written) 0
  have hstored : ∀ j, 0 ≤ j ∧ j < 0 + (bytes.take ((m + 1) / 9)).length ↔
      j < len.toNat ∧ j < (m + 1) / 9 := fun j => by rw [hlength]; omega
  simp only [hstored] at hread hmarks
  refine ⟨_, _, tr, hexec, hquiet, fun j => ?_, hwf', hframe, hmarks⟩
  refine (hread j).trans ?_
  by_cases hj : j < len.toNat ∧ j < (m + 1) / 9
  · rw [if_pos hj, if_pos hj, Nat.sub_zero, List.getD_eq_getElem?_getD, List.getElem?_take, if_pos hj.2,
      ← List.getD_eq_getElem?_getD]
  · rw [if_neg hj, if_neg hj]

end Sys2Proof.Machine
end

section
/-! A NACK whose stop times out (R283), commands whose waits all end (U3, R320), and the least
durations of the commands (R330, R331). -/

namespace Sys2Proof.Machine

/-! ### A NACK at byte `k` -/

theorem evBytesOut_bufBytes_succ (m : Memory) (i n : Nat) (l : Line) :
    evBytesOut (bufBytes m (n + 1) i) (l.peek (n + 1)) =
      evByteOut (Memory.read m i) l.next.1 ++
        if l.next.1 then [] else evBytesOut (bufBytes m n (i + 1)) ((l.drop 1).peek n) := by
  rw [Line.peek_succ]
  rfl

section
variable {l : Line} {k : Nat} (h : l.peek (k + 1) = List.replicate k false ++ [true])
include h

/-- Of the bytes of a WriteSeq only those up to the one not acknowledged are clocked out (R170). -/
theorem evBytesOut_nackAt (m : Memory) (i n : Nat) :
    evBytesOut (bufBytes m (k + 1 + n) i) (l.peek (k + 1 + n)) =
      (bufBytes m k i).flatMap (fun b => evByteOut b false) ++
        evByteOut (Memory.read m (i + k)) true := by
  induction k generalizing l i with
  | zero =>
    obtain ⟨hnack, -⟩ := List.cons.inj h
    rw [Nat.zero_add, Nat.add_comm 1 n, evBytesOut_bufBytes_succ, hnack, if_pos rfl, List.append_nil]
    rfl
  | succ k ih =>
    rw [Line.peek_succ, List.replicate_succ, List.cons_append] at h
    obtain ⟨hack, hrest⟩ := List.cons.inj h
    rw [show k + 1 + 1 + n = k + 1 + n + 1 by omega, evBytesOut_bufBytes_succ, hack,
      if_neg Bool.false_ne_true, ih hrest, bufBytes, List.flatMap_cons, List.append_assoc,
      show i + 1 + k = i + (k + 1) by omega]

theorem bytesSent_nackAt (n : Nat) : bytesSent (l.peek (k + 1 + n)) = k + 1 := by
  rw [Line.peek_add, bytesSent_append, h, if_pos (by simp), bytesSent_append, if_neg (by simp),
    List.length_replicate]
  rfl

end

/-- Settles O25: the rises of the start and of bytes 0 to `k` are served, that of the stop is not. -/
theorem nackThenTimeout : Obligations.NackThenTimeout := by
  intro s len S k l hlen hk hnack evs hl hw
  obtain ⟨n, hn⟩ : ∃ n, len.toNat = k + 1 + n := Nat.exists_eq_add_of_le hk
  have hstart : evIf S (evStart s.cfg s.mode) ++
      evBytesOut (bufBytes s.buf len.toNat 0) (s.sda.peek len.toNat) = evs := by
    rw [hn, evBytesOut_nackAt hnack, Nat.zero_add, ← List.append_assoc]
  clear_value evs
  have hevs : busEvents (.wrb len S true) s = evs ++ evStop := by
    rw [busEvents, (lenLegal_iff len).mpr hlen, evIf, if_pos rfl, hstart]
    rfl
  have hbefore : beforeRise (rises evs) (evs ++ evStop) = evs ++ [.sdaLow, .dly 1, .sclRel] := by
    rw [beforeRise_append, if_neg (lt_irrefl _), Nat.sub_self]
    rfl
  have hused : (sdaAnswers (evs ++ [.sdaLow, .dly 1, .sclRel])).length = k + 1 := by
    have h := (writeSeq_leaves (bufBytes s.buf len.toNat 0) S false s).2
    rw [bufBytes_length, hstart, hn, bytesSent_nackAt hnack] at h
    rw [sdaAnswers_append, ← h, sdaAnswers_append]
    rfl
  have hfollows := wrb_follows s len S true
  rw [hevs] at hfollows
  obtain ⟨tr, hquiet, hexec⟩ := hfollows.broken (rises evs) l
    (by rw [rises_append]; exact Nat.lt_add_of_pos_right Nat.one_pos) hl (by rw [hw]; nofun)
  rw [hbefore] at hquiet hexec
  have hsamples : (s.clockWait l).samples.length = s.wlim.toNat := by
    rw [State.clockWait, (waitOn_timeout true s.wlim.toNat l hw).2, List.length_replicate]
  refine ⟨tr, ?_, hquiet⟩
  rw [hexec, hw, hsamples, State.played, hused, pinDrive_append]
  rfl

/-! ### Waits that end -/

theorem waitsEnd_iff (i : Instr) (s : State) : waitsEnd i s = true ↔
    (s.clockAfter (rises (busEvents i s))).isSome = true ∧
      ∀ len A P, i = .rdb len A P → len.toNat ≤ 32 → s.dataReady = true := by
  unfold waitsEnd
  cases i with
  | rdb len A P =>
    have hready : (!lenLegal len || s.dataReady) = true ↔ (len.toNat ≤ 32 → s.dataReady = true) := by
      rw [← lenLegal_iff]
      cases lenLegal len <;> simp
    rw [Bool.and_eq_true, hready]
    exact and_congr_right' ⟨fun h _ _ _ e => by cases e; exact h, fun h => h len A P rfl⟩
  | _ => simp

/-- A command whose waits all end carries out the events its procedures list. -/
theorem exec_served {i : Instr} {s : State} (h : waitsEnd i s = true) :
    ∃ tr, quiet tr = busEvents i s ∧ EndedServed s tr (exec i s) := by
  obtain ⟨hclock, hready⟩ := (waitsEnd_iff i s).mp h
  obtain ⟨l, hl⟩ := Option.isSome_iff_exists.mp hclock
  exact (exec_follows i s hready).complete l hl

theorem Line.rest_mem_peek (l : Line) : l.rest ∈ l.peek (l.answers.length + 1) := by
  obtain ⟨as, rest⟩ := l
  induction as with
  | nil => exact List.mem_cons_self
  | cons v as ih => exact List.mem_cons_of_mem _ ih

/-- Without a limit each wait for a high clock ends on a line that comes to rest high (U3). -/
theorem Line.afterRises_unlimited (l : Line) (h : l.rest = true) (n : Nat) :
    (l.afterRises 0 n).isSome = true := by
  induction n generalizing l with
  | zero => rfl
  | succ n ih =>
    have hseen : (waitOn true 0 false l).ending = .seen :=
      waitOn_sees true 0 l _ (.inl rfl) (h ▸ l.rest_mem_peek)
    rw [Line.afterRises, if_pos hseen]
    refine ih _ ?_
    rw [waitOn_seen true 0 l hseen]
    exact h

/-- Settles O51. -/
theorem servedEnds : Obligations.ServedEnds := by
  refine ⟨fun i s h => ?_, fun i s hlimit hscl hsda => ?_⟩
  · obtain ⟨tr, hquiet, t, hexec, hidle, hstatus, htrace⟩ := exec_served h
    exact ⟨t, tr, hexec, hidle, hstatus, htrace, hquiet⟩
  · have hzero : s.wlim.toNat = 0 := by rw [hlimit]; rfl
    have hready : s.dataReady = true := by
      rw [State.dataReady]
      cases hm : s.mode with
      | normal => rfl
      | sensorVariant =>
        obtain ⟨n, hlow⟩ := hsda hm
        have hseen : s.dataWait.ending = .seen := waitOn_sees false _ s.sda n (.inl hzero) hlow
        rw [hseen]
        rfl
    refine (waitsEnd_iff i s).mpr ⟨?_, fun _ _ _ _ _ => hready⟩
    rw [State.clockAfter, hzero, Line.afterRises_unlimited _ hscl]

/-! ### Durations -/

/-- A delay no longer than the clock's high and low times, or no delay. -/
def Event.brief : Event → Bool
  | .dly us => us ≤ tHigh
  | _ => true

/-- Events with no conversion delay among them that last `us` microseconds at least (R331). -/
structure Lasts (es : List Event) (us : Nat) : Prop where
  total : durationUs es = us
  brief : es.all Event.brief = true

theorem durationUs_append (a b : List Event) :
    durationUs (a ++ b) = durationUs a + durationUs b := by
  induction a with
  | nil => exact (Nat.zero_add _).symm
  | cons e a ih => cases e <;> simp [durationUs, ih, Nat.add_assoc]

theorem durationUs_cons (e : Event) (es : List Event) :
    durationUs (e :: es) = durationUs [e] + durationUs es := durationUs_append [e] es

theorem durationUs_reverse (es : List Event) : durationUs es.reverse = durationUs es := by
  induction es with
  | nil => rfl
  | cons e es ih =>
    rw [List.reverse_cons, durationUs_append, ih, Nat.add_comm, ← durationUs_cons]

/-- Failed clock samples take no time. -/
theorem durationUs_quiet (tr : List Event) : durationUs (quiet tr) = durationUs tr := by
  rw [← durationUs_reverse tr, quiet]
  induction tr.reverse with
  | nil => rfl
  | cons e es ih =>
    by_cases he : e = .sclSample false
    · subst he
      exact ih
    · rw [List.filter_cons_of_pos (by simpa using he), durationUs_cons, ih, ← durationUs_cons]

theorem count_dly_quiet (tr : List Event) (us : Nat) :
    (quiet tr).count (.dly us) = tr.count (.dly us) := by
  rw [quiet, List.count_filter (by simp), List.count_reverse]

section
variable {a b es : List Event} {m n us : Nat}

theorem Lasts.append (ha : Lasts a m) (hb : Lasts b n) : Lasts (a ++ b) (m + n) where
  total := by rw [durationUs_append, ha.total, hb.total]
  brief := by rw [List.all_append, ha.brief, hb.brief]; rfl

/-- A conversion delay does not occur among brief events. -/
theorem Lasts.count_dly (h : Lasts es n) (hus : tHigh < us) : es.count (.dly us) = 0 := by
  refine List.count_eq_zero.mpr fun hmem => ?_
  have hbrief := List.all_eq_true.mp h.brief _ hmem
  exact absurd (of_decide_eq_true hbrief) (Nat.not_le.mpr hus)

theorem Lasts.flatMap {α : Type} {g : α → List Event} (h : ∀ x, Lasts (g x) n) (xs : List α) :
    Lasts (xs.flatMap g) (n * xs.length) := by
  induction xs with
  | nil => exact ⟨rfl, rfl⟩
  | cons x xs ih =>
    rw [List.flatMap_cons, List.length_cons, Nat.mul_succ, Nat.add_comm]
    exact (h x).append ih

end

theorem evGeneralStart_lasts : Lasts evGeneralStart 13 := ⟨rfl, rfl⟩

theorem evStop_lasts : Lasts evStop 9 := ⟨rfl, rfl⟩

theorem evBitOut_lasts (b : Bool) : Lasts (evBitOut b) 9 := by cases b <;> exact ⟨rfl, rfl⟩

theorem evBitIn_lasts (v : Bool) : Lasts (evBitIn v) 9 := ⟨rfl, rfl⟩

theorem evByteOut_lasts (b : Byte) (nack : Bool) : Lasts (evByteOut b nack) 81 :=
  (Lasts.flatMap evBitOut_lasts (wireBits b)).append (evBitIn_lasts nack)

theorem evByteIn_lasts (b : Byte) (ack : Bool) : Lasts (evByteIn b ack) 81 :=
  (Lasts.flatMap evBitIn_lasts (wireBits b)).append (evBitOut_lasts !ack)

/-- Bytes that are all acknowledged. -/
theorem evBytesOut_lasts (bytes : List Byte) :
    Lasts (evBytesOut bytes (List.replicate bytes.length false)) (81 * bytes.length) := by
  induction bytes with
  | nil => exact ⟨rfl, rfl⟩
  | cons b bytes ih =>
    have h := (evByteOut_lasts b false).append ih
    rwa [Nat.add_comm] at h

theorem evBytesIn_lasts (ackLast : Bool) (bytes : List Byte) :
    Lasts (evBytesIn ackLast bytes) (81 * bytes.length) := by
  induction bytes with
  | nil => exact ⟨rfl, rfl⟩
  | cons b bytes ih =>
    cases bytes with
    | nil => exact evByteIn_lasts b ackLast
    | cons c bytes =>
      rw [List.length_cons, Nat.mul_succ, Nat.add_comm]
      exact (evByteIn_lasts b true).append ih

theorem evAddress_lasts (reg : Byte) : Lasts (evAddress reg (List.replicate 3 false)) 269 :=
  (evGeneralStart_lasts.append (evBytesOut_lasts [0xEE, reg])).append
    (evGeneralStart_lasts.append (evBytesOut_lasts [0xEF]))

theorem evResult_lasts (l : Line) (k n : Nat) :
    Lasts (evResult (List.replicate k false) l n) (81 * n + 9) := by
  rw [evResult, show (List.replicate k false).any id = false by simp]
  have h := evBytesIn_lasts false ((l.drop k).bytes n)
  rw [Line.bytes_length] at h
  rw [List.length_replicate]
  exact h.append evStop_lasts

/-- The writes of a conversion: brief events, the one delay, brief events. -/
theorem evConversion_split (control : Byte) (us : Nat) :
    ∃ a, Lasts a 265 ∧ evConversion control us (List.replicate 6 false) =
      a ++ .dly us :: evAddress 0xF6 (List.replicate 3 false) :=
  ⟨_, (evGeneralStart_lasts.append (evBytesOut_lasts [0xEE, 0xF4, control])).append evStop_lasts, rfl⟩

/-- Slots that are all acknowledged. -/
theorem Line.peek_acked {l : Line} {n : Nat} (h : (l.peek n).any id = false) :
    l.peek n = List.replicate n false :=
  List.eq_replicate_iff.mpr ⟨l.peek_length n, fun v hv => by simpa using List.any_eq_false.mp h v hv⟩

/-- A conversion with every byte acknowledged, and the read of its result. -/
theorem conversion_duration (control : Byte) (us n : Nat) {l : Line} (hus : tHigh < us)
    (h : (l.peek 6).any id = false) :
    durationUs (evConversion control us (l.peek 6) ++ evResult (l.peek 6) l n) =
        us + (543 + 81 * n) ∧
      (evConversion control us (l.peek 6) ++ evResult (l.peek 6) l n).count (.dly us) = 1 := by
  obtain ⟨a, ha, hconv⟩ := evConversion_split control us
  have hrest := (evAddress_lasts 0xF6).append (evResult_lasts l 6 n)
  rw [Line.peek_acked h, hconv, List.append_assoc, List.cons_append, durationUs_append, durationUs,
    ha.total, hrest.total, List.count_append, List.count_cons_self, ha.count_dly hus,
    hrest.count_dly hus]
  exact ⟨by omega, rfl⟩

/-- A command whose waits all end lasts as long as the events its procedures list. -/
theorem exec_lasts {i : Instr} {s : State} (h : waitsEnd i s = true) :
    ∃ t new, exec i s = .next t ∧ t.trace = new ++ s.trace ∧
      durationUs new = durationUs (busEvents i s) ∧
      ∀ us, new.count (.dly us) = (busEvents i s).count (.dly us) := by
  obtain ⟨tr, hquiet, t, hexec, -, -, htrace⟩ := exec_served h
  refine ⟨t, tr, hexec, htrace, ?_, fun us => ?_⟩
  · rw [← hquiet, durationUs_quiet]
  · rw [← hquiet, count_dly_quiet]

/-- Settles O40. -/
theorem durations : Obligations.Durations := by
  intro s
  refine ⟨fun hm h => ?_, fun h => ?_, fun hs hacks h => ?_, fun hs hacks h => ?_,
    fun oss hs hacks h => ?_⟩
  · obtain ⟨t, new, hexec, htrace, htotal, -⟩ := exec_lasts h
    rw [busEvents, hm] at htotal
    exact ⟨t, new, hexec, htrace, htotal⟩
  · obtain ⟨t, new, hexec, htrace, htotal, -⟩ := exec_lasts h
    exact ⟨t, new, hexec, htrace, htotal⟩
  · obtain ⟨t, new, hexec, htrace, htotal, -⟩ := exec_lasts h
    rw [busEvents, hs, Line.peek_acked hacks] at htotal
    exact ⟨t, new, hexec, htrace,
      htotal.trans ((evAddress_lasts 0xAA).append (evResult_lasts s.sda 3 22)).total⟩
  · obtain ⟨t, new, hexec, htrace, htotal, hcount⟩ := exec_lasts h
    obtain ⟨hlasts, hone⟩ := conversion_duration 0x2E 5000 2 (by decide) hacks
    replace hcount := hcount 5000
    rw [busEvents, hs] at htotal hcount
    exact ⟨t, new, hexec, htrace, htotal.trans hlasts, hcount.trans hone⟩
  · obtain ⟨t, new, hexec, htrace, htotal, hcount⟩ := exec_lasts h
    obtain ⟨hlasts, hone⟩ := conversion_duration (BitVec.ofNat 8 (0x34 + 64 * oss.toNat)) 26000 3
      (by decide) hacks
    replace hcount := hcount 26000
    rw [busEvents, hs] at htotal hcount
    exact ⟨t, new, hexec, htrace, htotal.trans hlasts, hcount.trans hone⟩

end Sys2Proof.Machine
end

section
/-! SETMODE (R174), and a WRB whose byte `k` is not acknowledged (R170, R273). -/

namespace Sys2Proof.Machine

/-! ### SETMODE -/

theorem modeOfField_eq_none_iff (m : BitVec 2) : modeOfField m = none ↔ 2 ≤ m.toNat := by
  decide +revert

section
variable {m : BitVec 2} {s : State}

theorem exec_setmode_of_started (hs : s.started = true) :
    exec (.setmode m) s = .next (s.endCommand .busy) := if_pos hs

theorem exec_setmode_of_closed (hs : s.started = false) :
    exec (.setmode m) s = .next ((modeOfField m).elim (s.endCommand .unknownMode)
      fun mode => { s with mode := mode }.endCommand .ok) := by
  rw [exec, execSetmode, if_neg (by rw [hs]; nofun)]
  cases modeOfField m <;> rfl

end

/-- Settles O22: an open transmission is looked at before the mode field is. -/
theorem setmodeEffect : Obligations.SetmodeEffect := by
  intro m s
  refine ⟨by decide +revert, exec_setmode_of_started, fun hs hm => ?_, fun hs hm => ?_, fun hs hm => ?_⟩
  · rw [exec_setmode_of_closed hs, (modeOfField_eq_none_iff m).mpr hm]
    rfl
  · subst hm
    exact exec_setmode_of_closed hs
  · subst hm
    exact exec_setmode_of_closed hs

/-! ### A NACK at byte `k` -/

theorem writeStatus_nackAt {l : Line} {k : Nat}
    (h : l.peek (k + 1) = List.replicate k false ++ [true]) (n : Nat) :
    writeStatus (l.peek (k + 1 + n)) = .noAck := by
  rw [Line.peek_add, h]
  exact if_pos (by simp)

/-- What a completed WriteSeq of at least one byte leaves on the lines does not depend on its
start (R171). -/
theorem writeExit_of_pos (s : State) {n : Nat} (hn : 0 < n) (S P : Bool) :
    writeExit s n S P = if P then (false, false) else (true, false) := by
  rw [writeExit, if_pos hn.ne']

/-- Settles O24: a completed WRB (O23) whose answers have their first NACK at byte `k`. -/
theorem wrbNackAt : Obligations.WrbNackAt := by
  intro s len S P k l hlen hk hnack evs hl
  obtain ⟨n, hn⟩ : ∃ n, len.toNat = k + 1 + n := Nat.exists_eq_add_of_le hk
  have hevs : evIf S (evStart s.cfg s.mode) ++
      evBytesOut (bufBytes s.buf len.toNat 0) (s.sda.peek len.toNat) ++ evIf P evStop = evs := by
    rw [hn, evBytesOut_nackAt hnack, Nat.zero_add, ← List.append_assoc]
  obtain ⟨tr, hexec, hquiet⟩ := wrbCompletes s len S P l hlen (by rw [hevs]; exact hl)
  refine ⟨tr, ?_, hquiet.trans hevs⟩
  rw [hexec, writeExit_of_pos s (Nat.zero_lt_of_lt hk), hn, bytesSent_nackAt hnack,
    writeStatus_nackAt hnack]

end Sys2Proof.Machine
end

section
/-! RDCAL, RDT and RDP whose clock waits all end (R202 to R210): the results of an acknowledged
accessor, and I2C_ERROR after a NACK, from the `_follows` lemma of the accessor; and the raw pressure
of three bytes (R206). -/

namespace Sys2Proof.Machine

/-! ### A register command on a clock that serves its accessor -/

/-- The data phase and the stop after slots that were all acknowledged. -/
theorem evResult_acked {acks : List Bool} (h : acks.any id = false) (l : Line) (n : Nat) :
    evResult acks l n = evBytesIn false ((l.drop acks.length).bytes n) ++ evStop := by
  rw [evResult, h]
  rfl

/-- The accessor `g` carried out whole from a closed transmission: what it received is written, or
its NACK ends the command with I2C_ERROR (R201, R208). -/
theorem registerCommand_complete {i : Instr} {s : State} {g : State → Flow (List Byte)}
    {write : List Byte → State → State} {evs : List Event} {acks : List Bool} {rx : List Byte}
    {started : Bool} {cut : Nat → TransportRegs} {l : Line} (hs : s.started = false)
    (hexec : exec i s =
      registerCommand i (fun s => (g s).bind fun rx s => .done .ok (write rx s)) s)
    (h : Follows (g { s with mode := .normal }) { s with mode := .normal } evs (ackEnd acks rx)
      (({ s with mode := .normal } : State).regs started) cut)
    (hl : s.clockAfter (rises evs) = some l) :
    ∃ tr, quiet tr = evs ∧
      let t := ({ s with mode := .normal } : State).bus started (pinDrive evs s.drv) l
        (s.sda.drop (sdaAnswers evs).length) tr
      exec i s = .next
        (if acks.any id then t.endCommand .i2cError else (write rx t).endCommand .ok) := by
  obtain ⟨tr, hquiet, hdone⟩ :=
    (h.bind_ackEnd fun rx s => .done Status.ok (write rx s)).complete l hl
  refine ⟨tr, hquiet, ?_⟩
  rw [hexec, registerCommand_closed i _ s hs, hdone]
  cases acks.any id with
  | true => rfl
  | false => rfl

section
variable {i : Instr} {s : State} {g : State → Flow (List Byte)} {write : List Byte → State → State}
  {sent : List Event} {k n : Nat} {started : Bool} {drv : Bool × Bool} {cut : Nat → TransportRegs}
  {l : Line} (hs : s.started = false)
  (hexec : exec i s =
    registerCommand i (fun s => (g s).bind fun rx s => .done .ok (write rx s)) s)
  (hfollows : Follows (g { s with mode := .normal }) { s with mode := .normal }
    (sent ++ evResult (s.sda.peek k) s.sda n) (ackEnd (s.sda.peek k) ((s.sda.drop k).bytes n))
    (({ s with mode := .normal } : State).regs started) cut)
  (hleaves : pinDrive sent s.drv = drv ∧ (sdaAnswers sent).length = bytesSent (s.sda.peek k))
include hs hexec hfollows hleaves

/-- An accessor with its `k` slots acknowledged: its `n` bytes are written and the bus is closed. -/
theorem exec_accessor_acked (hacks : (s.sda.peek k).any id = false) (hclosed : started = false)
    (hl : s.clockAfter (rises (sent ++ evBytesIn false ((s.sda.drop k).bytes n) ++ evStop)) =
      some l) :
    ∃ tr, exec i s = .next ((write ((s.sda.drop k).bytes n)
        (({ s with mode := .normal } : State).bus false (false, false) l (s.sda.drop (k + 8 * n))
          tr)).endCommand .ok) ∧
      quiet tr = sent ++ evBytesIn false ((s.sda.drop k).bytes n) ++ evStop := by
  obtain ⟨hsent, hslots⟩ := hleaves
  obtain ⟨hdrive, hused⟩ := evResult_leaves (s.sda.peek k) s.sda n drv hacks
  have hresult := evResult_acked hacks s.sda n
  rw [Line.peek_length] at hresult
  rw [List.append_assoc, ← hresult] at hl ⊢
  obtain ⟨tr, hquiet, hrun⟩ := registerCommand_complete hs hexec hfollows hl
  refine ⟨tr, ?_, hquiet⟩
  rw [hrun, hacks, hclosed, pinDrive_append, sdaAnswers_append, List.length_append, hsent, hdrive,
    hslots, hused, bytesSent_acked _ hacks, Line.peek_length]
  rfl

/-- An accessor with a NACK in one of its slots: I2C_ERROR, and nothing after the writes (R208). -/
theorem exec_accessor_nacked (hnack : (s.sda.peek k).any id = true)
    (hl : s.clockAfter (rises sent) = some l) :
    ∃ tr, exec i s = .next ((({ s with mode := .normal } : State).bus started drv l
        (s.sda.drop (bytesSent (s.sda.peek k))) tr).endCommand .i2cError) ∧
      quiet tr = sent := by
  obtain ⟨hsent, hslots⟩ := hleaves
  rw [evResult_nack _ _ _ hnack, List.append_nil] at hfollows
  obtain ⟨tr, hquiet, hrun⟩ := registerCommand_complete hs hexec hfollows hl
  refine ⟨tr, ?_, hquiet⟩
  rw [hrun, hnack, hsent, hslots]
  rfl

end

/-! ### RDCAL -/

theorem exec_rdcal (s : State) : exec .rdcal s = registerCommand .rdcal
    (fun s => (readRegister 0xAA 22 s).bind fun rx s => .done .ok (s.setAllCal (calWords rx))) s :=
  rfl

/-- Settles O30: the register read with its three slots acknowledged. -/
theorem rdcalCompletes : Obligations.RdcalCompletes := by
  intro s l hs hacks
  have h := exec_accessor_acked (write := fun rx t => t.setAllCal (calWords rx)) (l := l) hs
    (exec_rdcal s) (readRegister_follows 0xAA 22 { s with mode := .normal } rfl)
    (evAddress_leaves 0xAA s.sda s.drv) hacks hacks
  rw [Line.peek_acked hacks] at h
  exact h

/-- Settles O33: the register read with a NACK among its three slots. -/
theorem rdcalNack : Obligations.RdcalNack := by
  intro s l hs hnack
  have h := exec_accessor_nacked (write := fun rx t => t.setAllCal (calWords rx)) (l := l) hs
    (exec_rdcal s) (readRegister_follows 0xAA 22 { s with mode := .normal } rfl)
    (evAddress_leaves 0xAA s.sda s.drv) hnack
  rw [hnack] at h
  exact h

/-! ### RDT and RDP -/

section
variable {i : Instr} {s : State} {control : Byte} {us n : Nat} {write : List Byte → State → State}
  {l : Line} (hs : s.started = false)
  (hexec : exec i s = registerCommand i
    (fun s => (convert control us n s).bind fun rx s => .done .ok (write rx s)) s)
include hs hexec

/-- A conversion with its six slots acknowledged (R204, R205). -/
theorem exec_conversion_acked (hacks : (s.sda.peek 6).any id = false) :
    let rx := (s.sda.drop 6).bytes n
    let evs := evConversion control us (List.replicate 6 false) ++ evBytesIn false rx ++ evStop
    s.clockAfter (rises evs) = some l →
    ∃ tr, exec i s = .next ((write rx (({ s with mode := .normal } : State).bus false (false, false)
        l (s.sda.drop (6 + 8 * n)) tr)).endCommand .ok) ∧
      quiet tr = evs := by
  have h := exec_accessor_acked (l := l) hs hexec
    (convert_follows control us n { s with mode := .normal } rfl)
    (evConversion_leaves control us s.sda s.drv) hacks
    (show (!(s.sda.peek 3).any id && (s.sda.peek 6).any id) = false by rw [hacks, Bool.and_false])
  rw [Line.peek_acked hacks] at h
  exact h

/-- A conversion with a NACK in one of its six slots: the transmission is left open unless the
control-register write, which has its own stop, met the NACK (R201, R208). -/
theorem exec_conversion_nacked (hnack : (s.sda.peek 6).any id = true) :
    let evs := evConversion control us (s.sda.peek 6)
    s.clockAfter (rises evs) = some l →
    ∃ tr, exec i s = .next ((({ s with mode := .normal } : State).bus (!(s.sda.peek 3).any id)
        (!(s.sda.peek 3).any id, false) l (s.sda.drop (bytesSent (s.sda.peek 6)))
        tr).endCommand .i2cError) ∧
      quiet tr = evs := by
  have hfollows := convert_follows control us n { s with mode := .normal } rfl
  have hopen : (!(s.sda.peek 3).any id && (s.sda.peek 6).any id) = !(s.sda.peek 3).any id := by
    rw [hnack, Bool.and_true]
  exact exec_accessor_nacked hs hexec (hfollows.cast rfl (congrArg _ hopen))
    (evConversion_leaves control us s.sda s.drv) hnack

end

theorem exec_rdt (s : State) : exec .rdt s = registerCommand .rdt
    (fun s => (convert 0x2E 5000 2 s).bind fun rx s => .done .ok (s.setUt (rxWord rx 0))) s := rfl

theorem exec_rdp (oss : BitVec 2) (s : State) : exec (.rdp oss) s = registerCommand (.rdp oss)
    (fun s => (convert (BitVec.ofNat 8 (0x34 + 64 * oss.toNat)) 26000 3 s).bind fun rx s =>
      .done .ok ((s.setUp (rawPressure rx oss)).setOss oss)) s := by
  rw [← cmdPres_eq]
  rfl

/-- Settles O31: the conversion of 0x2E, whose two bytes are UT. -/
theorem rdtCompletes : Obligations.RdtCompletes := fun s _ hs hacks =>
  exec_conversion_acked (write := fun rx t => t.setUt (rxWord rx 0)) hs (exec_rdt s) hacks

/-- Settles O32: the conversion of 0x34 + 64 * oss; its delay does not depend on oss. -/
theorem rdpCompletes : Obligations.RdpCompletes := fun s oss _ hs hacks =>
  exec_conversion_acked (write := fun rx t => (t.setUp (rawPressure rx oss)).setOss oss) hs
    (exec_rdp oss s) hacks

/-- Settles O34: both commands are conversions, whatever they would write. -/
theorem conversionNack : Obligations.ConversionNack := by
  intro s i control us l hs hnack hi
  rcases hi with ⟨rfl, rfl, rfl⟩ | ⟨oss, rfl, rfl, rfl⟩
  · exact exec_conversion_nacked (write := fun rx t => t.setUt (rxWord rx 0)) hs (exec_rdt s) hnack
  · exact exec_conversion_nacked (write := fun rx t => (t.setUp (rawPressure rx oss)).setOss oss) hs
      (exec_rdp oss s) hnack

/-! ### The raw pressure -/

/-- Three bytes as the 24-bit number they form, the first one most significant (R206). -/
theorem threeBytes_toNat (a b c : Byte) : (a ++ b ++ c : BitVec 24).toNat =
    a.toNat * 65536 + b.toNat * 256 + c.toNat := by
  rw [BitVec.toNat_append, BitVec.toNat_append, ← Nat.shiftLeft_add_eq_or_of_lt c.isLt,
    ← Nat.shiftLeft_add_eq_or_of_lt b.isLt, Nat.shiftLeft_eq, Nat.shiftLeft_eq]
  omega

/-- A 24-bit number shifted right by `8 - oss` places has `16 + oss` bits left. -/
theorem div_lt_of_oss (v : BitVec 24) (oss : BitVec 2) :
    v.toNat / 2 ^ (8 - oss.toNat) < 2 ^ (16 + oss.toNat) := by
  have hoss : oss.toNat < 4 := oss.isLt
  rw [Nat.div_lt_iff_lt_mul (Nat.two_pow_pos _), ← Nat.pow_add,
    show 16 + oss.toNat + (8 - oss.toNat) = 24 by omega]
  exact v.isLt

/-- UP is wide enough for each of those numbers, so nothing of the quotient is lost. -/
theorem rawPressure_toNat (a b c : Byte) (oss : BitVec 2) :
    (rawPressure [a, b, c] oss).toNat = (a ++ b ++ c : BitVec 24).toNat / 2 ^ (8 - oss.toNat) := by
  have hoss : oss.toNat < 4 := oss.isLt
  have hwidth : 2 ^ (16 + oss.toNat) ≤ 2 ^ 19 := Nat.pow_le_pow_right Nat.two_pos (by omega)
  change (((a ++ b ++ c : BitVec 24) >>> (8 - oss.toNat)).setWidth 19).toNat = _
  rw [BitVec.toNat_setWidth, BitVec.toNat_ushiftRight, Nat.shiftRight_eq_div_pow,
    Nat.mod_eq_of_lt ((div_lt_of_oss _ oss).trans_le hwidth)]

/-- Settles O39: the quotient of the 24-bit number fits UP. -/
theorem rawPressureOfBytes : Obligations.RawPressure := by
  refine ⟨fun a b c oss => ?_, by decide, by decide, by decide⟩
  rw [rawPressure_toNat]
  exact ⟨by rw [threeBytes_toNat], div_lt_of_oss _ oss⟩

end Sys2Proof.Machine
end

section
/-! COMP from the rules over the integers (R254), what it depends on (R231, R256), and the source's
worked example E1. -/

namespace Sys2Proof.Machine

/-! ### A zero divisor: R254 -/

/-- A logical shift right by 15 leaves 0 exactly of the words below 2^15. -/
theorem floorShift_u32_fifteen_eq_zero_iff (v : Int) :
    floorShift (u32 v) 15 = 0 ↔ u32 v < 32768 := by
  have hnonneg : 0 ≤ u32 v := Int.emod_nonneg v (by decide)
  rw [floorShift]
  omega

theorem refB4_of_ac4_eq_zero {s : State} (h : s.cal[3] = 0) : refB4 s = 0 := by
  rw [refB4, h]
  simp [u32, floorShift]

/-- Settles O42: the two ends are the two branches of O41's equation, and b4 is a product shifted
right by 15. -/
theorem compFault : Obligations.CompFault := by
  intro s
  refine ⟨fun h => ?_, fun h => ?_, floorShift_u32_fifteen_eq_zero_iff _, refB4_of_ac4_eq_zero⟩
  · rw [compIsTheRules s, if_pos h]
    rfl
  · rw [compIsTheRules s, if_neg h]
    exact ⟨_, rfl, rfl⟩

/-! ### The inputs COMP reads -/

/-- No formula reads MB (R256). -/
theorem compensate_mb (round : DivRound) (c : CompInput) (v : Word) :
    compensate round { c with mb := v } = compensate round c := rfl

/-- Registers that agree but for MB give inputs that agree but for MB (R231). -/
theorem compInput_eq_but_mb {s s' : State} (hut : s.ut = s'.ut) (hup : s.up = s'.up)
    (hoss : s.oss = s'.oss) (hpoff : s.poff = s'.poff)
    (hcal : ∀ i : Fin 11, i ≠ 8 → s.cal[i] = s'.cal[i]) :
    s.compInput = { s'.compInput with mb := s.compInput.mb } := by
  have hget (i : Nat) (hi : i < 11) (hne : i ≠ 8) : s.cal[i] = s'.cal[i] :=
    hcal ⟨i, hi⟩ (by simpa [Fin.ext_iff] using hne)
  simp [State.compInput, hut, hup, hoss, hpoff, hget]

/-- COMP passes on what the engine answers: STATUS, and the two results when there are any. -/
theorem exec_comp_of_compensate_eq {s s' : State}
    (h : compensate s.cfg.divRound s.compInput = compensate s'.cfg.divRound s'.compInput) :
    ∃ t t', exec .comp s = .next t ∧ exec .comp s' = .next t' ∧ t.status = t'.status ∧
      (t.status = 0 → t.tt = t'.tt ∧ t.tp = t'.tp) := by
  rw [exec, exec, execComp, execComp, h]
  cases compensate s'.cfg.divRound s'.compInput with
  | none =>
    have hcode : Status.arithFault.code ≠ 0 := by decide
    exact ⟨_, _, rfl, rfl, rfl, fun hok => absurd hok hcode⟩
  | some r => exact ⟨_, _, rfl, rfl, rfl, fun _ => ⟨rfl, rfl⟩⟩

/-- Settles O44: the engine sees the named registers only, and no formula reads MB. -/
theorem compPure : Obligations.CompPure := by
  intro s s' hut hup hoss hpoff hround hcal
  apply exec_comp_of_compensate_eq
  rw [hround, compInput_eq_but_mb hut hup hoss hpoff hcal, compensate_mb]

/-! ### The worked example E1 -/

/-- The inputs of E1 as R231 extends them, with the offset 0. -/
def exampleInput : CompInput where
  rawT := 27898
  rawP := 23843
  oss := 0
  ac1 := 408
  ac2 := -72
  ac3 := -14383
  ac4 := 32741
  ac5 := 32757
  ac6 := 23153
  b1 := 6190
  b2 := 4
  mb := -32768
  mc := -8711
  md := 2868
  poff := 0

theorem compInput_eq_exampleInput {s : State} (hut : s.ut = 27898) (hup : s.up = 23843)
    (hoss : s.oss = 0) (hcal : s.cal = #v[0x0198, 0xFFB8, 0xC7D1, 0x7FE5, 0x7FF5, 0x5A71, 0x182E,
      0x0004, 0x8000, 0xDDF9, 0x0B34]) : s.compInput = { exampleInput with poff := s.poff } := by
  rw [State.compInput, hut, hup, hoss, hcal]
  rfl

/-- Without a zero divisor the results follow from b5, b4 and b7 (R236, R248 to R252), and POFF plays
no part before the last sum. -/
theorem compensate_eq_some {round : DivRound} {c : CompInput} {b5 b4 b7 : Word}
    (hden : tempDen c ≠ 0) (hb5 : compB5 round c = b5) (hb4 : compB4 c (compB6 b5) = b4)
    (hne : b4 ≠ 0) (hb7 : compB7 c (compB6 b5) = b7) (poff : Word) :
    compensate round { c with poff := poff } =
      some (trueTemp b5, truePressure (compP b7 b4) poff) := by
  subst hb5 hb4 hb7
  exact (if_neg hden).trans (if_neg hne)

/-- E1 under either rounding: the quotient of R234 is not whole, so b5 is 2400 or 2399, and both lead
to the same b4 and b7. -/
theorem compensate_exampleInput (round : DivRound) (poff : Word) :
    compensate round { exampleInput with poff := poff } = some (150, 69964 + poff) := by
  have hden : tempDen exampleInput ≠ 0 := by decide
  cases round with
  | towardZero =>
    exact compensate_eq_some (b5 := 2400) (b4 := 33457) (b7 := 1171050000) hden
      (by decide) (by decide) (by decide) (by decide) poff
  | towardMinusInfinity =>
    exact compensate_eq_some (b5 := 2399) (b4 := 33457) (b7 := 1171050000) hden
      (by decide) (by decide) (by decide) (by decide) poff

/-- Settles O43: E1's registers are the inputs of E1. -/
theorem compExample : Obligations.CompExample := by
  intro s hut hup hoss hcal
  rw [exec, execComp, compInput_eq_exampleInput hut hup hoss hcal, compensate_exampleInput]

end Sys2Proof.Machine
end

section
/-! The register commands in an open transmission (R200, R277). -/

namespace Sys2Proof.Machine

/-- `SetNormal()` stops a register command before its body (R200, R202, R204, R205). -/
theorem exec_register_open {s : State} {i : Instr} (hstarted : s.started = true)
    (hi : i = .rdcal ∨ i = .rdt ∨ ∃ oss, i = .rdp oss) :
    exec i s = .next (s.endCommand .modeChangeError) := by
  rcases hi with rfl | rfl | ⟨oss, rfl⟩
  · rw [exec, execRdcal, registerCommand_open _ _ s hstarted]
  · rw [exec, execRdt, registerCommand_open _ _ s hstarted]
  · rw [exec, execRdp, registerCommand_open _ _ s hstarted]

/-- Settles O35: the code of MODE_CHANGE_ERROR is 5. -/
theorem modeChangeError : Obligations.ModeChangeError := by
  intro s i hstarted hi
  have hcode : Status.modeChangeError.code = 5 := by decide
  rw [exec_register_open hstarted hi, State.endCommand, hcode]

end Sys2Proof.Machine
end

section
/-! The idle block without a host event (R300, R301). -/

namespace Sys2Proof.Machine

/-- Settles O16: the step's equation at an idle block with an empty queue. -/
theorem idleStays : Obligations.IdleStays := by
  intro s hidle hhost
  exact step_idle s hidle hhost

end Sys2Proof.Machine
end
